-- ==== Sys2Proof/Word.lean ====
section
/-! DEFINITION. The word types of VCPU-32 (00_scope.md R9, 10_state.md R20, R25, 20_memory.md R80). Bit 0 of the manual is the
most significant bit (00_scope.md R12): `BitVec.getMsbD` numbers bits as the manual does, `BitVec.extractLsb'` from the right. -/

namespace Sys2Proof

/-- A 32-bit machine word: general and control registers, offsets, instruction words (R9). -/
abbrev Word := BitVec 32

/-- An 8-bit byte (R19). -/
abbrev Byte := BitVec 8

/-- A 16-bit segment id (R25). -/
abbrev SegId := BitVec 16

/-- A physical address, 34 bits (20_memory.md R80, R109). -/
abbrev PAddr := BitVec 34

/-- The page number inside a segment, offset bits 0..17 (20_memory.md R92). -/
abbrev Page := BitVec 18

end Sys2Proof
end

