-- ==== Sys2Proof/Syntax.lean ====
section
/-! DEFINITION. The instructions of VCPU-32, one constructor for each row of spec/opcode_table.json, and the names of its traps.
Every field of an instruction's drawing (30_encoding.md R142) is kept, also where the instruction ignores it, so that the word
can be written back: it is the parameter P0 of most traps (60_exceptions.md R440). -/

namespace Sys2Proof

/-- The 2-bit `dw` field (20_memory.md R70). `double` (value 3) is reserved: trap 5 (R76). -/
inductive Width where
  | byte | half | word | double
deriving DecidableEq, Repr

/-- The 2-bit `cond` field of CMP, CMPU, CBR and CBRU (30_encoding.md R145). -/
inductive Cond where
  | eq | lt | ne | le
deriving DecidableEq, Repr

/-- The 4-bit `cond` field of CMR (30_encoding.md R145). `undefined` holds the low three bits of the codes 8..15: trap 5. -/
inductive MoveCond where
  | eq | lt | gt | ev | ne | le | ge | od
  | undefined (code : BitVec 3)
deriving DecidableEq, Repr

/-- The `mode` field of MST (45_system_control.md R366). `undefined` is mode 3: trap 5. -/
inductive MstMode where
  | write | set | clear | undefined
deriving DecidableEq, Repr

/-- The second operand of an operand-format instruction, modes 0 to 3 (30_encoding.md R143). -/
inductive Operand where
  | imm (val : BitVec 18)
  | reg (a b : BitVec 4)
  | indexed (dw : Width) (a b : BitVec 4)
  | disp (dw : Width) (ofs : BitVec 12) (b : BitVec 4)
deriving DecidableEq, Repr

/-- The displacement of a MEM-format instruction: the `ofs` field (X = 0) or index register `a` (X = 1) (40_memory_reference.md R201). -/
inductive Disp where
  | imm (ofs : BitVec 12)
  | reg (a : BitVec 4)
deriving DecidableEq, Repr

/-- The 43 instructions (30_encoding.md R160), with the fields of R142 in the order of their bits. Option letters are Bools named
after the letter; register fields are 4-bit numbers; `seg` is the 2-bit segment select field. -/
inductive Instr where
  /-- BRK, 45_system_control.md R400. -/
  | brk (info1 : BitVec 4) (info2 : BitVec 16)
  /-- LDIL, 41_immediate.md R230. -/
  | ldil (r : BitVec 4) (val : BitVec 22)
  /-- ADDIL, 41_immediate.md R231. -/
  | addil (r : BitVec 4) (val : BitVec 22)
  /-- LDO, 41_immediate.md R233. -/
  | ldo (r : BitVec 4) (ofs : BitVec 18) (b : BitVec 4)
  /-- LSID, 41_immediate.md R236. -/
  | lsid (r b : BitVec 4)
  /-- EXTR, 44_computational_bitfield.md R330; options S and A. -/
  | extr (r : BitVec 4) (optS optA : Bool) (len pos : BitVec 5) (b : BitVec 4)
  /-- DEP, 44_computational_bitfield.md R332; options Z, A and I. -/
  | dep (r : BitVec 4) (optZ optA optI : Bool) (len pos : BitVec 5) (b : BitVec 4)
  /-- DSR, 44_computational_bitfield.md R335; option A. -/
  | dsr (r : BitVec 4) (optA : Bool) (shamt : BitVec 5) (a b : BitVec 4)
  /-- SHLA, 44_computational_bitfield.md R338; options L and O. -/
  | shla (r : BitVec 4) (optL optO : Bool) (sa : BitVec 2) (a b : BitVec 4)
  /-- CMR, 44_computational_bitfield.md R342. -/
  | cmr (r : BitVec 4) (cond : MoveCond) (a b : BitVec 4)
  /-- MR, 45_system_control.md R361; direction D, register type M, register number `num`. -/
  | mr (r : BitVec 4) (optD optM : Bool) (num : BitVec 6)
  /-- MST, 45_system_control.md R366; `b` is a register (mode 0) or a mask (modes 1 and 2). -/
  | mst (r : BitVec 4) (mode : MstMode) (b : BitVec 4)
  /-- DS, 44_computational_bitfield.md R350. -/
  | ds (r a b : BitVec 4)
  /-- ADD, 43_computational_operand.md R291. -/
  | add (r : BitVec 4) (optL optO : Bool) (op : Operand)
  /-- ADC, 43_computational_operand.md R292. -/
  | adc (r : BitVec 4) (optL optO : Bool) (op : Operand)
  /-- SUB, 43_computational_operand.md R293. -/
  | sub (r : BitVec 4) (optL optO : Bool) (op : Operand)
  /-- SBC, 43_computational_operand.md R294. -/
  | sbc (r : BitVec 4) (optL optO : Bool) (op : Operand)
  /-- AND, 43_computational_operand.md R300; options N and C. -/
  | and (r : BitVec 4) (optN optC : Bool) (op : Operand)
  /-- OR, 43_computational_operand.md R301; options N and C. -/
  | or (r : BitVec 4) (optN optC : Bool) (op : Operand)
  /-- XOR, 43_computational_operand.md R302; option N. -/
  | xor (r : BitVec 4) (optN : Bool) (op : Operand)
  /-- CMP, 43_computational_operand.md R305. -/
  | cmp (r : BitVec 4) (cond : Cond) (op : Operand)
  /-- CMPU, 43_computational_operand.md R306. -/
  | cmpu (r : BitVec 4) (cond : Cond) (op : Operand)
  /-- B, 42_branch.md R251. -/
  | b (r : BitVec 4) (ofs : BitVec 22)
  /-- GATE, 42_branch.md R254. -/
  | gate (r : BitVec 4) (ofs : BitVec 22)
  /-- BR, 42_branch.md R257. -/
  | br (r b : BitVec 4)
  /-- BV, 42_branch.md R259. -/
  | bv (r b : BitVec 4)
  /-- BE, 42_branch.md R262; `a` names a segment register. -/
  | be (r : BitVec 4) (ofs : BitVec 14) (a b : BitVec 4)
  /-- BVE, 42_branch.md R266. -/
  | bve (r a b : BitVec 4)
  /-- CBR, 42_branch.md R270. -/
  | cbr (cond : Cond) (ofs : BitVec 16) (a b : BitVec 4)
  /-- CBRU, 42_branch.md R271. -/
  | cbru (cond : Cond) (ofs : BitVec 16) (a b : BitVec 4)
  /-- LD, 40_memory_reference.md R203; option M. -/
  | ld (r : BitVec 4) (optM : Bool) (seg : BitVec 2) (dw : Width) (disp : Disp) (b : BitVec 4)
  /-- ST, 40_memory_reference.md R206; option M. -/
  | st (r : BitVec 4) (optM : Bool) (seg : BitVec 2) (dw : Width) (disp : Disp) (b : BitVec 4)
  /-- LDA, 40_memory_reference.md R210; option M. -/
  | lda (r : BitVec 4) (optM : Bool) (disp : Disp) (b : BitVec 4)
  /-- STA, 40_memory_reference.md R213; option M. -/
  | sta (r : BitVec 4) (optM : Bool) (disp : Disp) (b : BitVec 4)
  /-- LDR, 40_memory_reference.md R221. -/
  | ldr (r : BitVec 4) (seg : BitVec 2) (ofs : BitVec 12) (b : BitVec 4)
  /-- STC, 40_memory_reference.md R222. -/
  | stc (r : BitVec 4) (seg : BitVec 2) (ofs : BitVec 12) (b : BitVec 4)
  /-- LDPA, 45_system_control.md R370. -/
  | ldpa (r : BitVec 4) (seg : BitVec 2) (a b : BitVec 4)
  /-- PRB, 45_system_control.md R372; options W and I. -/
  | prb (r : BitVec 4) (optW optI : Bool) (seg : BitVec 2) (a b : BitVec 4)
  /-- ITLB, 45_system_control.md R375; option T; `a` names a segment register. -/
  | itlb (r : BitVec 4) (optT : Bool) (a b : BitVec 4)
  /-- PTLB, 45_system_control.md R380; options T and M. -/
  | ptlb (optT optM : Bool) (seg : BitVec 2) (a b : BitVec 4)
  /-- PCA, 45_system_control.md R385; options T, M and F. -/
  | pca (optT optM : Bool) (seg : BitVec 2) (optF : Bool) (a b : BitVec 4)
  /-- DIAG, 45_system_control.md R396. -/
  | diag (r info a b : BitVec 4)
  /-- RFI, 45_system_control.md R398. -/
  | rfi
deriving DecidableEq, Repr

/-- The traps of the trap table (60_exceptions.md R440), and `extra` for a number the manual leaves reserved and a parameter
assigns (R470). -/
inductive TrapId where
  | machineCheck | powerFailure | recoveryCounter | externalInterrupt
  | illegalInstruction | privilegedOperation | privilegedRegister | overflow
  | instrTlbMiss | nonAccessInstrTlbMiss | instrProtection
  | dataTlbMiss | nonAccessDataTlbMiss | dataAccessRights | dataProtection | pageReference
  | alignment | breakInstruction
  | extra (n : BitVec 5)
deriving DecidableEq, Repr

end Sys2Proof
end

