-- ==== Sys2Proof/Config.lean ====
section
/-! DEFINITION. What an implementation fixes (00_scope.md R10, R11) and the free values: what the spec leaves open after an
instruction that runs (93_implementation_defined.md, treatment "any value"). A parameter with a default of the spec has that
default; an open one has a value a log entry names; a free value is an opaque constant with no body, so no proof can know it. -/

namespace Sys2Proof

/-- Where the sign bit of a signed instruction field sits (00_scope.md R11, 30_encoding.md R150). -/
inductive SignPos where
  | right | left
deriving DecidableEq, Repr

/-- What CB holds after a subtraction (00_scope.md R11, 43_computational_operand.md R296). -/
inductive BorrowSense where
  | borrow | notBorrow
deriving DecidableEq, Repr

/-- The bit that holds option A of DSR (00_scope.md R11, 30_encoding.md R147). -/
inductive DsrABit where
  | bit10 | bit11
deriving DecidableEq, Repr

/-- A setting of EXT_IRQ_MODEL (00_scope.md R11, 60_exceptions.md R444): the environment raises one request and withdraws it; the
setting says which contents of CR22 hold the request back, and whether taking the interrupt clears it. -/
structure ExtIrqModel where
  masks : Word → Bool
  clearedWhenTaken : Bool

namespace Config

/-- SIGN_POS, default `right` (R11). DESIGN CHOICE of the spec (D2), log 1; unsafe. -/
def signPos : SignPos := .right

/-- DSR_A_BIT, default 10 (R11). DESIGN CHOICE of the spec (D3), log 2; unsafe. -/
def dsrABit : DsrABit := .bit10

/-- BORROW_SENSE, default `borrow` (R11). DESIGN CHOICE of the spec (D4), log 3; unsafe. -/
def borrowSense : BorrowSense := .borrow

/-- MR_PRIV_TRAP, default 7 (R11). DESIGN CHOICE of the spec (D14), log 10; unsafe. -/
def mrPrivTrap : TrapId := .privilegedRegister

/-- PA_BITS, default 34 (R10). DESIGN CHOICE of the spec, log 31; unsafe. -/
def paBits : Nat := 34

/-- MEM_TOP below 4 GB, open, at most `0xF0000000` (R10, 20_memory.md R82). DESIGN CHOICE: all of it is populated, log 31; unsafe. -/
def memTop : Nat := 0xF0000000

/-- End of the memory above 4 GB, "any amount the platform installs" (R10). DESIGN CHOICE: all that 34 bits reach, log 31; unsafe. -/
def highMemTop : Nat := 0x400000000

/-- ITLB_ENTRIES, open, at least 1 (R10). DESIGN CHOICE, log 9; unsafe. -/
def itlbEntries : Nat := 256

/-- DTLB_ENTRIES, open, at least 1 (R10). DESIGN CHOICE, log 9; unsafe. -/
def dtlbEntries : Nat := 256

/-- CACHE_LINE_WORDS, open, "four to eight machine words" (R10, 20_memory.md R122). DESIGN CHOICE, log 11; unsafe. -/
def cacheLineWords : Nat := 4

/-- SWR_VALUE, open (R10, 10_state.md R47). DESIGN CHOICE, log 38; unsafe. -/
def swrValue : Word := 0

/-- RESET_PSW0, default 0 (70_reset_and_hazards.md R501). DESIGN CHOICE of the spec (D20), log 17; unsafe. -/
def resetPsw0 : Word := 0

/-- RESET_IA, default `0xF0000000` (70_reset_and_hazards.md R501). DESIGN CHOICE of the spec (D20), log 17; unsafe. -/
def resetIa : Word := 0xF0000000

/-- RESET_CR16, default unspecified (70_reset_and_hazards.md R501). DESIGN CHOICE, log 17; unsafe. -/
def resetCr16 : Word := 0

/-- TRAP_DIRTY, unset (60_exceptions.md R470, D17), log 13; safe: a store through an entry with D = 1 is refused. -/
def trapDirty : Option TrapId := none

/-- TRAP_DATAREF, unset (60_exceptions.md R470, D17), log 13; safe: an access through an entry with B = 1 is refused. -/
def trapDataRef : Option TrapId := none

/-- TRAP_SINGLESTEP, unset (60_exceptions.md R470, D18), log 14; safe: a step with Z = 1 is refused. -/
def trapSingleStep : Option TrapId := none

/-- TRAP_TAKENBRANCH with its enabling condition on PSW-0, unset: never raised (42_branch.md R273, D18), log 14; unsafe. -/
def trapTakenBranch : Word → Option TrapId := fun _ => none

/-- The trap GATE raises on a translated page that is not a gateway page. The spec's files differ: 42_branch.md R254 ("GATE's own
execution raises nothing"), which 90_conflicts.md C14 names for the resolved text, gives none; the words of decision D27 give
`some .instrProtection`. R254 is followed, log 23; unsafe. -/
def gateTrap : Option TrapId := none

/-- EXT_IRQ_MODEL, default none: no request is ever pending (00_scope.md R11, 60_exceptions.md R444, U17). DESIGN CHOICE of the spec
(D21), log 18; unsafe. -/
def extIrqModel : Option ExtIrqModel := none

/-- HALT_CONDITION, default none: the instruction words at which the host ends a run (00_scope.md R11, 70_reset_and_hazards.md R520).
DESIGN CHOICE of the spec (D35), log 40; safe. -/
def haltCondition : Option (Word → Bool) := none

/-- FREE VALUE: a 32-bit value the spec leaves undefined, by the number of free values taken before it. It stands for the content
of CR19, CR20 and CR21 after a trap whose parameter is "-" (60_exceptions.md R451, U27), log 33. -/
opaque freeWord : Nat → Word

/-- FREE VALUE: an arbitrary choice among several, by the number of free values taken before it; the chooser takes it modulo their
count. It stands for the TLB victim (20_memory.md R114, U19) and for the stale content of a cache (R123), logs 9 and 11. -/
opaque freeIndex : Nat → Nat

/-- FREE VALUE: DIAG_FN, the result of DIAG by `info`, `GR[a]` and `GR[b]`: "processor implementation dependent"
(45_system_control.md R396, U11), log 26. -/
opaque diagFn : BitVec 4 → Word → Word → Word

end Config

end Sys2Proof
end

