-- ==== Sys2Proof/Machine/State.lean ====
section
/-! DEFINITION. The state of VCPU-32 as plain data (10_state.md, 20_memory.md R60 to R63), why a step can stop, and the state after
reset (70_reset_and_hazards.md R501). -/

namespace Sys2Proof.Machine

/-- Why the machine stops at data it has no value for. -/
inductive Fault where
  /-- A data access or fetch reads a byte that nothing has written (70_reset_and_hazards.md R503: "unmapped bytes are
  unspecified"), log 30. Safe: the hardware goes on with some value, the model proves nothing of it. -/
  | unwrittenMemory
  /-- A data access or fetch at a physical address where the configuration has no memory (20_memory.md R82, U20), log 31. Safe. -/
  | unpopulatedMemory
deriving DecidableEq, Repr

/-- Why a step has no meaning. Each names an entry of 93_implementation_defined.md with the treatment "refuse". All are safe: the
model proves nothing of what follows. -/
inductive Refusal where
  /-- Raised by `exec` alone, for an instruction not modelled yet. Safe. -/
  | notModelled (mnemonic : String)
  /-- Raised by `step` for a word whose reserved field is not as drawn (U1, 30_encoding.md R163). Safe. -/
  | reservedField
  /-- Raised by AND and OR with N = 1 and C = 1, "an undefined operation" (U3, 43_computational_operand.md R303). Safe. -/
  | undefinedOption
  /-- Raised by `step` with PSW.N = 1 (U7, 10_state.md R33). Safe. -/
  | nullified
  /-- Raised by `step` with PSW.R = 1 (U8, 10_state.md R40). Safe. -/
  | recoveryCounter
  /-- Raised by `step` with PSW.Z = 1 while TRAP_SINGLESTEP is unset (U9, 10_state.md R41). Safe. -/
  | singleStep
  /-- Raised by DS, "a placeholder" (U10, 44_computational_bitfield.md R350). Safe. -/
  | divideStep
  /-- Raised by EXTR and DEP with `len` = 0 or a field beyond the leftmost bit (U12, R331, R333). Safe. -/
  | bitFieldRange
  /-- Raised by MR naming CR3, CR8..CR15 or CR23 (U16, 10_state.md R56). Safe. -/
  | reservedControlRegister
  /-- Raised by an access to the I/O space, where no device is defined (U21, 20_memory.md R85). Safe. -/
  | ioSpace
  /-- Raised by a write through a data TLB entry with D = 1 while TRAP_DIRTY is unset (U22, 20_memory.md R108). Safe. -/
  | dirtyFlag
  /-- Raised by an access through a data TLB entry with B = 1 while TRAP_DATAREF is unset (U22, 20_memory.md R108). Safe. -/
  | dataReferenceFlag
  /-- Raised by BE (with PSW.C = 1) and ITLB when `a` names no segment register (U25, 42_branch.md R263, R375). Safe. -/
  | noSegmentRegister
  /-- Raised by ITLB inserting a non-identity mapping for segment 0 (U26, 20_memory.md R98). Safe. -/
  | segmentZeroMapping
deriving DecidableEq, Repr

/-- The page type of an access-rights field (20_memory.md R103). -/
inductive PageType where
  | readOnly | readWrite | execute | gateway
deriving DecidableEq, Repr

/-- Access rights: page type and the two privilege levels, `true` being user, level 1 (20_memory.md R103). -/
structure Rights where
  type : PageType
  pl1 : Bool
  pl2 : Bool
deriving DecidableEq, Repr

/-- A TLB entry, kept as the record of 20_memory.md R109. -/
structure TlbEntry where
  /-- V, the entry is valid. -/
  valid : Bool
  /-- T, page reference trap (R107). -/
  refTrap : Bool
  /-- D, dirty trap (R108). -/
  dirtyTrap : Bool
  /-- B, data reference trap (R108). -/
  dataTrap : Bool
  /-- P, protection ids are checked for the page (R106). -/
  pidCheck : Bool
  /-- AR (R103). -/
  rights : Rights
  seg : SegId
  page : Page
  /-- PPN, the physical page number. -/
  ppn : BitVec 20
deriving DecidableEq, Repr

/-- Bytes by physical address, addresses strictly rising; an unlisted byte has no value (log 30). -/
abbrev Memory := List Host.Cell

/-- What the aligned word at a physical word address held earlier, byte by byte; `none` is a byte nothing had written. The cache
histories are lists of these (20_memory.md R123, log 11). -/
structure OldWord where
  addr : Nat
  b0 : Option Byte
  b1 : Option Byte
  b2 : Option Byte
  b3 : Option Byte
deriving DecidableEq, Repr

/-- The machine (INVENTORY.md, State). -/
structure State where
  /-- GR0..GR15 (10_state.md R20); GR0 reads zero (R21). -/
  gr : Vector Word 16
  /-- SR0..SR7 (10_state.md R25). -/
  sr : Vector SegId 8
  /-- PSW-0: status bits and PSW.seg (10_state.md R30). -/
  psw0 : Word
  /-- PSW-1: PSW.ofs, the instruction offset (10_state.md R30, R31). -/
  psw1 : Word
  /-- CR0..CR31 (10_state.md R46). -/
  cr : Vector Word 32
  /-- The instruction TLB (10_state.md R60). -/
  itlb : List TlbEntry
  /-- The data TLB (10_state.md R60). -/
  dtlb : List TlbEntry
  /-- Memory as the CPU's own data accesses see it (20_memory.md R123 a). -/
  mem : Memory
  /-- Instruction cache: words an instruction fetch may still return beside the current ones (20_memory.md R123 b). -/
  iOld : List OldWord
  /-- Data cache: what words held since their line's last flush (20_memory.md R123 c). -/
  dOld : List OldWord
  /-- The reservation is valid (10_state.md R62). -/
  lrValid : Bool
  /-- The physical word address of the last LDR (10_state.md R62). -/
  lrAddr : PAddr
  /-- A pending machine check, with its check type (10_state.md R63, 60_exceptions.md R441); a second one replaces it (DESIGN CHOICE,
  log 18). -/
  machineCheck : Option Word
  /-- A pending power failure (60_exceptions.md R442); a second one merges with it (DESIGN CHOICE, log 18). -/
  powerFail : Bool
  /-- A pending external interrupt request (60_exceptions.md R444). -/
  extPending : Bool
  /-- The model's own: how many free values have been taken (log 37). -/
  freeCount : Nat
deriving DecidableEq, Repr

/-- What the environment can do to the machine between instructions (60_exceptions.md R441 to R444, 70_reset_and_hazards.md R503),
log 18. -/
inductive Event where
  /-- A machine check with its check type (R441). -/
  | machineCheck (checkType : Word)
  /-- A power failure (R442). -/
  | powerFailure
  /-- An external interrupt request is raised (R444). -/
  | externalRaise
  /-- The external interrupt request is withdrawn (R444: how is not defined). -/
  | externalClear
deriving DecidableEq, Repr

/-- The control registers after reset: CR0 and CR16 by their parameters, the others, which R501 leaves unspecified, zero (log 16). -/
def resetControl : Vector Word 32 :=
  ((Vector.replicate 32 (0 : Word)).set 0 Config.swrValue (by decide)).set 16 Config.resetCr16 (by decide)

/-- The machine right after reset (70_reset_and_hazards.md R501). -/
def State.reset : State where
  gr := Vector.replicate 16 0
  sr := Vector.replicate 8 0
  psw0 := Config.resetPsw0
  psw1 := Config.resetIa
  cr := resetControl
  itlb := []
  dtlb := []
  mem := []
  iOld := []
  dOld := []
  lrValid := false
  lrAddr := 0
  machineCheck := none
  powerFail := false
  extPending := false
  freeCount := 0

end Sys2Proof.Machine
end

