-- ==== Sys2Proof/WellFormed.lean ====
section
/-! DEFINITION. When an `Instr` stands for a word. The fields' types carry every bound but one: the register number of MR, whose
drawing is wider than what it names (30_encoding.md R148). -/

namespace Sys2Proof

/-- The register number of MR is below 32 for a control register (M = 1) and below 8 for a segment register (M = 0): the bits of
`s` above the used ones "are reserved and must be zero" (30_encoding.md R148). -/
def mrNumberOk (optM : Bool) (num : BitVec 6) : Bool :=
  if optM then decide (num.toNat < 32) else decide (num.toNat < 8)

/-- The instruction has an encoding. -/
def Instr.wellFormed : Instr → Bool
  | .mr _ _ optM num => mrNumberOk optM num
  | .brk .. | .ldil .. | .addil .. | .ldo .. | .lsid .. | .extr .. | .dep .. | .dsr .. | .shla .. | .cmr .. | .mst .. | .ds ..
  | .add .. | .adc .. | .sub .. | .sbc .. | .and .. | .or .. | .xor .. | .cmp .. | .cmpu ..
  | .b .. | .gate .. | .br .. | .bv .. | .be .. | .bve .. | .cbr .. | .cbru ..
  | .ld .. | .st .. | .lda .. | .sta .. | .ldr .. | .stc ..
  | .ldpa .. | .prb .. | .itlb .. | .ptlb .. | .pca .. | .diag .. | .rfi => true

end Sys2Proof
end

