-- ==== Sys2Proof/Decode.lean ====
section
/-! DEFINITION. Decoding and encoding (30_encoding.md R140 to R166). Decoding is total: a word is an instruction, or is rejected
because its opcode is unassigned (R162: the machine then raises trap 5) or because a reserved field is not as drawn (R163: the
behaviour is undefined). Sub-codes that trap (R164) are part of the instruction. -/

namespace Sys2Proof

/-- Why a word is no instruction. -/
inductive DecodeError where
  /-- One of the 21 unassigned opcodes (R162). -/
  | unassignedOpcode
  /-- A reserved or fixed field holds another value than the drawing shows (R163). -/
  | reservedField
deriving DecidableEq, Repr

/-- `w[i : i+n-1]` in the manual's numbering (00_scope.md R13). -/
def field (w : Word) (i n : Nat) : BitVec n := w.extractLsb' (32 - i - n) n

/-- `w[i] = 1` in the manual's numbering. -/
def flag (w : Word) (i : Nat) : Bool := field w i 1 == 1#1

/-- The four bytes of a word in memory order, the most significant at the lowest address (20_memory.md R72). -/
def ofBytes (b0 b1 b2 b3 : Byte) : Word := b0 ++ b1 ++ b2 ++ b3

/-- Byte `k` of a word, byte 0 being bits 0..7 (20_memory.md R72). -/
def byteOf (w : Word) (k : Nat) : Byte := field w (8 * k) 8

/-- `dw` (20_memory.md R70). -/
def Width.ofBits : BitVec 2 → Width
  | 0#2 => .byte | 1#2 => .half | 2#2 => .word | _ => .double

def Width.toBits : Width → BitVec 2
  | .byte => 0#2 | .half => 1#2 | .word => 2#2 | .double => 3#2

/-- `cond` of CMP, CMPU, CBR, CBRU (R145). -/
def Cond.ofBits : BitVec 2 → Cond
  | 0#2 => .eq | 1#2 => .lt | 2#2 => .ne | _ => .le

def Cond.toBits : Cond → BitVec 2
  | .eq => 0#2 | .lt => 1#2 | .ne => 2#2 | .le => 3#2

/-- `cond` of CMR (R145). -/
def MoveCond.ofBits (c : BitVec 4) : MoveCond :=
  match c with
  | 0#4 => .eq | 1#4 => .lt | 2#4 => .gt | 3#4 => .ev | 4#4 => .ne | 5#4 => .le | 6#4 => .ge | 7#4 => .od
  | _ => .undefined (c.extractLsb' 0 3)

def MoveCond.toBits : MoveCond → BitVec 4
  | .eq => 0#4 | .lt => 1#4 | .gt => 2#4 | .ev => 3#4 | .ne => 4#4 | .le => 5#4 | .ge => 6#4 | .od => 7#4
  | .undefined c => 1#1 ++ c

/-- `mode` of MST (45_system_control.md R366). -/
def MstMode.ofBits : BitVec 2 → MstMode
  | 0#2 => .write | 1#2 => .set | 2#2 => .clear | _ => .undefined

def MstMode.toBits : MstMode → BitVec 2
  | .write => 0#2 | .set => 1#2 | .clear => 2#2 | .undefined => 3#2

/-- The instruction, if the reserved fields are as drawn (R163). -/
def checked (ok : Bool) (i : Instr) : Except DecodeError Instr := if ok then .ok i else .error .reservedField

/-- Operand modes 0 to 3 (R143), and whether the mode's zero field is zero. -/
def decodeOperand (w : Word) : Operand × Bool :=
  match field w 12 2 with
  | 0#2 => (.imm (field w 14 18), true)
  | 1#2 => (.reg (field w 24 4) (field w 28 4), field w 14 10 == 0#10)
  | 2#2 => (.indexed (Width.ofBits (field w 14 2)) (field w 24 4) (field w 28 4), field w 16 8 == 0#8)
  | _ => (.disp (Width.ofBits (field w 14 2)) (field w 16 12) (field w 28 4), true)

/-- Bits 10 and 16..27 of format MEM (R142), and whether the form's zero field is zero. -/
def decodeDisp (w : Word) : Disp × Bool :=
  if flag w 10 then (.reg (field w 24 4), field w 16 8 == 0#8) else (.imm (field w 16 12), true)

/-- Format DSR with option A at bit `DSR_A_BIT` (R147): A, and whether the other bit of the pair is zero. -/
def dsrOption (w : Word) : Bool × Bool :=
  match Config.dsrABit with
  | .bit10 => (flag w 10, !flag w 11)
  | .bit11 => (flag w 11, !flag w 10)

/-- The instruction a word is (R142, R160), in the order of R166. -/
def decode (w : Word) : Except DecodeError Instr :=
  match field w 0 6 with
  | 0x00#6 => checked (field w 10 6 == 0#6) (.brk (field w 6 4) (field w 16 16))
  | 0x01#6 => .ok (.ldil (field w 6 4) (field w 10 22))
  | 0x02#6 => .ok (.addil (field w 6 4) (field w 10 22))
  | 0x03#6 => .ok (.ldo (field w 6 4) (field w 10 18) (field w 28 4))
  | 0x04#6 => checked (field w 10 18 == 0#18) (.lsid (field w 6 4) (field w 28 4))
  | 0x05#6 => checked (field w 12 5 == 0#5 && field w 22 1 == 0#1)
      (.extr (field w 6 4) (flag w 10) (flag w 11) (field w 17 5) (field w 23 5) (field w 28 4))
  | 0x06#6 => checked (field w 13 4 == 0#4 && field w 22 1 == 0#1)
      (.dep (field w 6 4) (flag w 10) (flag w 11) (flag w 12) (field w 17 5) (field w 23 5) (field w 28 4))
  | 0x07#6 => checked ((dsrOption w).2 && field w 12 5 == 0#5 && field w 22 2 == 0#2)
      (.dsr (field w 6 4) (dsrOption w).1 (field w 17 5) (field w 24 4) (field w 28 4))
  | 0x08#6 => checked (field w 12 8 == 0#8 && field w 22 2 == 0#2)
      (.shla (field w 6 4) (flag w 10) (flag w 11) (field w 20 2) (field w 24 4) (field w 28 4))
  | 0x09#6 => checked (field w 14 10 == 0#10)
      (.cmr (field w 6 4) (MoveCond.ofBits (field w 10 4)) (field w 24 4) (field w 28 4))
  | 0x0A#6 => checked (field w 12 14 == 0#14 && mrNumberOk (flag w 11) (field w 26 6))
      (.mr (field w 6 4) (flag w 10) (flag w 11) (field w 26 6))
  | 0x0B#6 => checked (field w 12 16 == 0#16) (.mst (field w 6 4) (MstMode.ofBits (field w 10 2)) (field w 28 4))
  | 0x0C#6 => checked (field w 10 14 == 0#14) (.ds (field w 6 4) (field w 24 4) (field w 28 4))
  | 0x10#6 => checked (decodeOperand w).2 (.add (field w 6 4) (flag w 10) (flag w 11) (decodeOperand w).1)
  | 0x11#6 => checked (decodeOperand w).2 (.adc (field w 6 4) (flag w 10) (flag w 11) (decodeOperand w).1)
  | 0x12#6 => checked (decodeOperand w).2 (.sub (field w 6 4) (flag w 10) (flag w 11) (decodeOperand w).1)
  | 0x13#6 => checked (decodeOperand w).2 (.sbc (field w 6 4) (flag w 10) (flag w 11) (decodeOperand w).1)
  | 0x14#6 => checked (decodeOperand w).2 (.and (field w 6 4) (flag w 10) (flag w 11) (decodeOperand w).1)
  | 0x15#6 => checked (decodeOperand w).2 (.or (field w 6 4) (flag w 10) (flag w 11) (decodeOperand w).1)
  | 0x16#6 => checked (!flag w 11 && (decodeOperand w).2) (.xor (field w 6 4) (flag w 10) (decodeOperand w).1)
  | 0x17#6 => checked (decodeOperand w).2 (.cmp (field w 6 4) (Cond.ofBits (field w 10 2)) (decodeOperand w).1)
  | 0x18#6 => checked (decodeOperand w).2 (.cmpu (field w 6 4) (Cond.ofBits (field w 10 2)) (decodeOperand w).1)
  | 0x20#6 => .ok (.b (field w 6 4) (field w 10 22))
  | 0x21#6 => .ok (.gate (field w 6 4) (field w 10 22))
  | 0x22#6 => checked (field w 10 18 == 0#18) (.br (field w 6 4) (field w 28 4))
  | 0x23#6 => checked (field w 10 18 == 0#18) (.bv (field w 6 4) (field w 28 4))
  | 0x24#6 => .ok (.be (field w 6 4) (field w 10 14) (field w 24 4) (field w 28 4))
  | 0x25#6 => checked (field w 10 14 == 0#14) (.bve (field w 6 4) (field w 24 4) (field w 28 4))
  | 0x26#6 => .ok (.cbr (Cond.ofBits (field w 6 2)) (field w 8 16) (field w 24 4) (field w 28 4))
  | 0x27#6 => .ok (.cbru (Cond.ofBits (field w 6 2)) (field w 8 16) (field w 24 4) (field w 28 4))
  | 0x30#6 => checked (decodeDisp w).2
      (.ld (field w 6 4) (flag w 11) (field w 12 2) (Width.ofBits (field w 14 2)) (decodeDisp w).1 (field w 28 4))
  | 0x31#6 => checked (decodeDisp w).2
      (.st (field w 6 4) (flag w 11) (field w 12 2) (Width.ofBits (field w 14 2)) (decodeDisp w).1 (field w 28 4))
  | 0x32#6 => checked (field w 12 4 == 2#4 && (decodeDisp w).2)
      (.lda (field w 6 4) (flag w 11) (decodeDisp w).1 (field w 28 4))
  | 0x33#6 => checked (field w 12 4 == 2#4 && (decodeDisp w).2)
      (.sta (field w 6 4) (flag w 11) (decodeDisp w).1 (field w 28 4))
  | 0x34#6 => checked (field w 10 2 == 0#2 && field w 14 2 == 2#2)
      (.ldr (field w 6 4) (field w 12 2) (field w 16 12) (field w 28 4))
  | 0x35#6 => checked (field w 10 2 == 0#2 && field w 14 2 == 2#2)
      (.stc (field w 6 4) (field w 12 2) (field w 16 12) (field w 28 4))
  | 0x39#6 => checked (field w 10 2 == 0#2 && field w 14 10 == 0#10)
      (.ldpa (field w 6 4) (field w 12 2) (field w 24 4) (field w 28 4))
  | 0x3A#6 => checked (field w 14 10 == 0#10)
      (.prb (field w 6 4) (flag w 10) (flag w 11) (field w 12 2) (field w 24 4) (field w 28 4))
  | 0x3B#6 => checked (field w 11 13 == 0#13) (.itlb (field w 6 4) (flag w 10) (field w 24 4) (field w 28 4))
  | 0x3C#6 => checked (field w 6 4 == 0#4 && field w 14 10 == 0#10)
      (.ptlb (flag w 10) (flag w 11) (field w 12 2) (field w 24 4) (field w 28 4))
  | 0x3D#6 => checked (field w 6 4 == 0#4 && field w 15 9 == 0#9)
      (.pca (flag w 10) (flag w 11) (field w 12 2) (flag w 14) (field w 24 4) (field w 28 4))
  | 0x3E#6 => checked (field w 14 10 == 0#10) (.diag (field w 6 4) (field w 10 4) (field w 24 4) (field w 28 4))
  | 0x3F#6 => checked (field w 6 26 == 0#26) .rfi
  | _ => .error .unassignedOpcode

/-- Decoding from the four bytes of a word in memory order. -/
def decodeBytes (b0 b1 b2 b3 : Byte) : Except DecodeError Instr := decode (ofBytes b0 b1 b2 b3)

/-- Bits 12..31 of an operand-format word (R143). -/
def encodeOperand : Operand → BitVec 20
  | .imm val => 0#2 ++ val
  | .reg a b => 1#2 ++ 0#10 ++ a ++ b
  | .indexed dw a b => 2#2 ++ dw.toBits ++ 0#8 ++ a ++ b
  | .disp dw ofs b => 3#2 ++ dw.toBits ++ ofs ++ b

/-- Bit 10 of format MEM (R142). -/
def Disp.indexBit : Disp → BitVec 1
  | .imm _ => 0#1 | .reg _ => 1#1

/-- Bits 16..27 of format MEM (R142). -/
def Disp.bits : Disp → BitVec 12
  | .imm ofs => ofs | .reg a => 0#8 ++ a

/-- Bits 10..11 of format DSR (R147). -/
def dsrOptionBits (optA : Bool) : BitVec 2 :=
  match Config.dsrABit with
  | .bit10 => BitVec.ofBool optA ++ 0#1
  | .bit11 => 0#1 ++ BitVec.ofBool optA

/-- The word of an operand-format instruction: opcode, `r`, the two option bits, mode and operand (R142, R144). -/
def encodeOpr (opcode : BitVec 6) (r : BitVec 4) (opt : BitVec 2) (op : Operand) : Word := opcode ++ r ++ opt ++ encodeOperand op

/-- The two option bits of an operand-format instruction (R144). -/
def optBits (x y : Bool) : BitVec 2 := BitVec.ofBool x ++ BitVec.ofBool y

/-- The word of a MEM-format instruction: opcode, `r`, X, M, `seg`, `dw`, displacement, `b` (R142). -/
def encodeMem (opcode : BitVec 6) (r : BitVec 4) (optM : Bool) (seg dw : BitVec 2) (disp : Disp) (b : BitVec 4) : Word :=
  opcode ++ r ++ disp.indexBit ++ BitVec.ofBool optM ++ seg ++ dw ++ disp.bits ++ b

/-- The word of an instruction (R142). -/
def encode : Instr → Word
  | .brk info1 info2 => 0x00#6 ++ info1 ++ 0#6 ++ info2
  | .ldil r val => 0x01#6 ++ r ++ val
  | .addil r val => 0x02#6 ++ r ++ val
  | .ldo r ofs b => 0x03#6 ++ r ++ ofs ++ b
  | .lsid r b => 0x04#6 ++ r ++ 0#18 ++ b
  | .extr r optS optA len pos b => 0x05#6 ++ r ++ BitVec.ofBool optS ++ BitVec.ofBool optA ++ 0#5 ++ len ++ 0#1 ++ pos ++ b
  | .dep r optZ optA optI len pos b =>
      0x06#6 ++ r ++ BitVec.ofBool optZ ++ BitVec.ofBool optA ++ BitVec.ofBool optI ++ 0#4 ++ len ++ 0#1 ++ pos ++ b
  | .dsr r optA shamt a b => 0x07#6 ++ r ++ dsrOptionBits optA ++ 0#5 ++ shamt ++ 0#2 ++ a ++ b
  | .shla r optL optO sa a b => 0x08#6 ++ r ++ BitVec.ofBool optL ++ BitVec.ofBool optO ++ 0#8 ++ sa ++ 0#2 ++ a ++ b
  | .cmr r cond a b => 0x09#6 ++ r ++ cond.toBits ++ 0#10 ++ a ++ b
  | .mr r optD optM num => 0x0A#6 ++ r ++ BitVec.ofBool optD ++ BitVec.ofBool optM ++ 0#14 ++ num
  | .mst r mode b => 0x0B#6 ++ r ++ mode.toBits ++ 0#16 ++ b
  | .ds r a b => 0x0C#6 ++ r ++ 0#14 ++ a ++ b
  | .add r optL optO op => encodeOpr 0x10#6 r (optBits optL optO) op
  | .adc r optL optO op => encodeOpr 0x11#6 r (optBits optL optO) op
  | .sub r optL optO op => encodeOpr 0x12#6 r (optBits optL optO) op
  | .sbc r optL optO op => encodeOpr 0x13#6 r (optBits optL optO) op
  | .and r optN optC op => encodeOpr 0x14#6 r (optBits optN optC) op
  | .or r optN optC op => encodeOpr 0x15#6 r (optBits optN optC) op
  | .xor r optN op => encodeOpr 0x16#6 r (optBits optN false) op
  | .cmp r cond op => encodeOpr 0x17#6 r cond.toBits op
  | .cmpu r cond op => encodeOpr 0x18#6 r cond.toBits op
  | .b r ofs => 0x20#6 ++ r ++ ofs
  | .gate r ofs => 0x21#6 ++ r ++ ofs
  | .br r b => 0x22#6 ++ r ++ 0#18 ++ b
  | .bv r b => 0x23#6 ++ r ++ 0#18 ++ b
  | .be r ofs a b => 0x24#6 ++ r ++ ofs ++ a ++ b
  | .bve r a b => 0x25#6 ++ r ++ 0#14 ++ a ++ b
  | .cbr cond ofs a b => 0x26#6 ++ cond.toBits ++ ofs ++ a ++ b
  | .cbru cond ofs a b => 0x27#6 ++ cond.toBits ++ ofs ++ a ++ b
  | .ld r optM seg dw disp b => encodeMem 0x30#6 r optM seg dw.toBits disp b
  | .st r optM seg dw disp b => encodeMem 0x31#6 r optM seg dw.toBits disp b
  | .lda r optM disp b => encodeMem 0x32#6 r optM 0#2 2#2 disp b
  | .sta r optM disp b => encodeMem 0x33#6 r optM 0#2 2#2 disp b
  | .ldr r seg ofs b => 0x34#6 ++ r ++ 0#2 ++ seg ++ 2#2 ++ ofs ++ b
  | .stc r seg ofs b => 0x35#6 ++ r ++ 0#2 ++ seg ++ 2#2 ++ ofs ++ b
  | .ldpa r seg a b => 0x39#6 ++ r ++ 0#2 ++ seg ++ 0#10 ++ a ++ b
  | .prb r optW optI seg a b => 0x3A#6 ++ r ++ BitVec.ofBool optW ++ BitVec.ofBool optI ++ seg ++ 0#10 ++ a ++ b
  | .itlb r optT a b => 0x3B#6 ++ r ++ BitVec.ofBool optT ++ 0#13 ++ a ++ b
  | .ptlb optT optM seg a b => 0x3C#6 ++ 0#4 ++ BitVec.ofBool optT ++ BitVec.ofBool optM ++ seg ++ 0#10 ++ a ++ b
  | .pca optT optM seg optF a b =>
      0x3D#6 ++ 0#4 ++ BitVec.ofBool optT ++ BitVec.ofBool optM ++ seg ++ BitVec.ofBool optF ++ 0#9 ++ a ++ b
  | .diag r info a b => 0x3E#6 ++ r ++ info ++ 0#10 ++ a ++ b
  | .rfi => 0x3F#6 ++ 0#26

/-- The instruction the decoder reads from an instruction whose bits are `w`, bit 0 the least significant (the opcode table's
numbering), laid out in memory order and given to the decoder. -/
def decodeTableWord (nbits w : Nat) : Option Instr :=
  let word : Word := BitVec.ofNat 32 (w % 2 ^ nbits)
  match decodeBytes (byteOf word 0) (byteOf word 1) (byteOf word 2) (byteOf word 3) with
  | .ok i => some i
  | .error _ => none

end Sys2Proof
end

