-- ==== Sys2Proof/Machine/Ops.lean ====
section
/-! DEFINITION. The named operations every meaning is written over: registers (10_state.md), the status word, bytes of memory, how an
instruction ends, taking a trap (60_exceptions.md R450) and returning from one (R398, R455). -/

namespace Sys2Proof.Machine

/-! ### Registers -/

/-- `GR[r]`, zero for `r = 0` (10_state.md R21). -/
def State.readGr (s : State) (r : BitVec 4) : Word := if r = 0 then 0 else s.gr[r.toNat]'(r.isLt)

/-- `GR[r] <- v`, nothing for `r = 0` (10_state.md R21). -/
def State.writeGr (s : State) (r : BitVec 4) (v : Word) : State :=
  { s with gr := if r = 0 then s.gr else s.gr.set r.toNat v (r.isLt) }

/-- `SR[n]` (10_state.md R25). -/
def State.readSr (s : State) (n : BitVec 3) : SegId := s.sr[n.toNat]'(n.isLt)

/-- `SR[n] <- v` (10_state.md R25). -/
def State.writeSr (s : State) (n : BitVec 3) (v : SegId) : State := { s with sr := s.sr.set n.toNat v (n.isLt) }

/-- `CR[n]` (10_state.md R46). -/
def State.readCr (s : State) (n : BitVec 5) : Word := s.cr[n.toNat]'(n.isLt)

/-- `CR[n] <- v`; CR2 keeps bits 27..31 only (10_state.md R46, R49). -/
def State.writeCr (s : State) (n : BitVec 5) (v : Word) : State :=
  { s with cr := s.cr.set n.toNat (if n = 2 then v &&& 0x1F#32 else v) (n.isLt) }

/-- CR3, CR8..CR15 and CR23 (10_state.md R56). -/
def reservedCr (n : BitVec 5) : Bool := n == 3 || (decide (8 ≤ n.toNat) && decide (n.toNat ≤ 15)) || n == 23

/-- `CR[2][27:31]`, the shift amount (10_state.md R49, 44_computational_bitfield.md R337). -/
def State.shamt (s : State) : BitVec 5 := (s.readCr 2).extractLsb' 0 5

/-! ### Status word and instruction address -/

/-- PSW.M (10_state.md R34). -/
def State.pswM (s : State) : Bool := flag s.psw0 0
/-- PSW.X, the privilege level: `true` is user, level 1 (10_state.md R35). -/
def State.pswX (s : State) : Bool := flag s.psw0 1
/-- PSW.C (10_state.md R36). -/
def State.pswC (s : State) : Bool := flag s.psw0 2
/-- PSW.N (10_state.md R33). -/
def State.pswN (s : State) : Bool := flag s.psw0 3
/-- PSW.V (10_state.md R37). -/
def State.pswV (s : State) : Bool := flag s.psw0 4
/-- PSW.CB (10_state.md R38). -/
def State.pswCB (s : State) : Bool := flag s.psw0 5
/-- PSW.R (10_state.md R40). -/
def State.pswR (s : State) : Bool := flag s.psw0 11
/-- PSW.Z (10_state.md R41). -/
def State.pswZ (s : State) : Bool := flag s.psw0 12
/-- PSW.D (10_state.md R42). -/
def State.pswD (s : State) : Bool := flag s.psw0 13
/-- PSW.P (10_state.md R43). -/
def State.pswP (s : State) : Bool := flag s.psw0 14
/-- PSW.E (10_state.md R44). -/
def State.pswE (s : State) : Bool := flag s.psw0 15
/-- PSW.seg (10_state.md R30). -/
def State.pswSeg (s : State) : SegId := field s.psw0 16 16
/-- PSW-0 bits 12..15: Z, D, P, E, the bits MST reads and writes (45_system_control.md R366). -/
def State.mask (s : State) : BitVec 4 := field s.psw0 12 4

/-- `w` with bit `i` (the manual's numbering) set to `v`. -/
def setFlag (w : Word) (i : Nat) (v : Bool) : Word :=
  if v then w ||| (1#32 <<< (31 - i)) else w &&& ~~~(1#32 <<< (31 - i))

/-- `PSW.X <- v`. -/
def State.setX (s : State) (v : Bool) : State := { s with psw0 := setFlag s.psw0 1 v }

/-- `PSW.CB <- v`. -/
def State.setCB (s : State) (v : Bool) : State := { s with psw0 := setFlag s.psw0 5 v }

/-- `PSW.seg <- v`. -/
def State.setSeg (s : State) (v : SegId) : State := { s with psw0 := field s.psw0 0 16 ++ v }

/-- `PSW-0[12:15] <- v` (45_system_control.md R366). -/
def State.setMask (s : State) (v : BitVec 4) : State := { s with psw0 := field s.psw0 0 12 ++ v ++ field s.psw0 16 16 }

/-- An offset with bits 30..31 cleared (10_state.md R31). -/
def alignOfs (t : Word) : Word := t &&& 0xFFFFFFFC#32

/-- `pc <- t` (00_scope.md R16, 10_state.md R31). -/
def State.setPc (s : State) (t : Word) : State := { s with psw1 := alignOfs t }

/-- The offset of the next instruction, modulo 2^32 (10_state.md R32). -/
def State.nextPc (s : State) : Word := s.psw1 + 4#32

/-- The end of an instruction that does not branch (10_state.md R32). -/
def State.advance (s : State) : State := s.setPc s.nextPc

/-! ### Bytes of memory -/

/-- The byte at a physical address; none where nothing has been written (log 30). -/
def memByte : Memory → Nat → Option Byte
  | [], _ => none
  | c :: m, a => if c.1 = a then some c.2 else memByte m a

/-- The memory with byte `v` at address `a`, addresses kept strictly rising. -/
def memSet : Memory → Nat → Byte → Memory
  | [], a, v => [(a, v)]
  | c :: m, a, v => if c.1 = a then (a, v) :: m else if a < c.1 then (a, v) :: c :: m else c :: memSet m a v

/-- The memory with nothing at address `a`. -/
def memClear : Memory → Nat → Memory
  | [], _ => []
  | c :: m, a => if c.1 = a then m else c :: memClear m a

/-- The memory with byte `v`, or nothing, at address `a`. -/
def memPut (m : Memory) (a : Nat) (v : Option Byte) : Memory :=
  match v with
  | some b => memSet m a b
  | none => memClear m a

/-- Bytes stored at rising addresses from `a`. -/
def memSetAll : Memory → Nat → List Byte → Memory
  | m, _, [] => m
  | m, a, b :: bs => memSetAll (memSet m a b) (a + 1) bs

/-- The canonical form: addresses strictly rising. -/
def Memory.wf : Memory → Bool
  | [] => true
  | [_] => true
  | c :: d :: m => decide (c.1 < d.1) && Memory.wf (d :: m)

/-! ### How an instruction ends -/

/-- A trap and its parameters; `none` is the "-" of the trap table (60_exceptions.md R440, R451). -/
structure Trap where
  id : TrapId
  p0 : Option Word
  p1 : Option Word
  p2 : Option Word
deriving DecidableEq, Repr

/-- Why an instruction is abandoned, none of its writes done (00_scope.md R15, R16). -/
inductive Stop where
  | trap (t : Trap)
  | fault (f : Fault)
  | refuse (r : Refusal)
deriving DecidableEq, Repr

/-- A completed instruction: the state it leaves, and the traps that would follow its completion if their parameters were set
(60_exceptions.md R460): a data reference trap after a read, a taken-branch trap. -/
structure Done where
  state : State
  dataRef : Option Trap
  takenBranch : Option Trap

/-- A trap with only the instruction word as parameter. -/
def instrTrap (id : TrapId) (instr : Word) : Trap := ⟨id, some instr, none, none⟩

/-- A trap with parameters (instr, segment id, offset). -/
def dataTrap (id : TrapId) (instr : Word) (seg : SegId) (ofs : Word) : Trap := ⟨id, some instr, some (seg.setWidth 32), some ofs⟩

/-- A trap with no parameters. -/
def bareTrap (id : TrapId) : Trap := ⟨id, none, none, none⟩

/-- The trap's number (60_exceptions.md R440). -/
def trapNumber : TrapId → Nat
  | .machineCheck => 1 | .powerFailure => 2 | .recoveryCounter => 3 | .externalInterrupt => 4
  | .illegalInstruction => 5 | .privilegedOperation => 6 | .privilegedRegister => 7 | .overflow => 8
  | .instrTlbMiss => 9 | .nonAccessInstrTlbMiss => 10 | .instrProtection => 11
  | .dataTlbMiss => 12 | .nonAccessDataTlbMiss => 13 | .dataAccessRights => 14 | .dataProtection => 15 | .pageReference => 16
  | .alignment => 17 | .breakInstruction => 18
  | .extra n => n.toNat

/-- Where the handler of a trap starts: `CR[16] + 32 * id`, modulo 2^32 (60_exceptions.md R450, R454). -/
def State.vector (s : State) (id : TrapId) : Word := s.readCr 16 + BitVec.ofNat 32 (32 * trapNumber id)

/-- The value a trap writes for a parameter: the one given, else a free value (60_exceptions.md R451, log 33). -/
def paramValue (p : Option Word) (k : Nat) : Word := p.getD (Config.freeWord k)

/-- How many free values a trap takes. -/
def Trap.freeTaken (t : Trap) : Nat := if t.p0.isSome && t.p1.isSome && t.p2.isSome then 0 else 3

/-- Trap entry (60_exceptions.md R450): PSW-0 and PSW-1 are saved in CR17 and CR18, the parameters in CR19..CR21, PSW-0 becomes zero
and PSW-1 the handler's address. -/
def State.takeTrap (s : State) (t : Trap) : State :=
  { s with
    cr := ((((s.cr.set 17 s.psw0).set 18 s.psw1).set 19 (paramValue t.p0 s.freeCount)).set 20
      (paramValue t.p1 (s.freeCount + 1))).set 21 (paramValue t.p2 (s.freeCount + 2))
    psw0 := 0
    psw1 := alignOfs (s.vector t.id)
    freeCount := s.freeCount + t.freeTaken }

/-- Return from a trap (45_system_control.md R398, 60_exceptions.md R455): PSW-0 from CR17, PSW-1 from CR18 with the low two bits
cleared. -/
def State.returnFromTrap (s : State) : State := { s with psw0 := s.readCr 17, psw1 := alignOfs (s.readCr 18) }

/-- A completed instruction that neither reads data nor takes a branch. -/
def done (s : State) : Except Stop Done := .ok ⟨s, none, none⟩

/-- The trap after the completion of an instruction that began in `s`, in the order of 60_exceptions.md R460; none while
TRAP_DATAREF, TRAP_SINGLESTEP and TRAP_TAKENBRANCH are unset. -/
def afterTrap (instr : Word) (s : State) (d : Done) : Option Trap :=
  match d.dataRef with
  | some t => some t
  | none =>
    match (if s.pswZ then Config.trapSingleStep else none) with
    | some id => some (instrTrap id instr)
    | none => d.takenBranch

/-- The outcome of instruction `instr` begun in `s`: a trap is taken from `s`, with nothing of the instruction done (60_exceptions.md
R452); a completed instruction gives its state. -/
def conclude (instr : Word) (s : State) (r : Except Stop Done) : Host.Outcome State Fault Refusal :=
  match r with
  | .ok d =>
    match afterTrap instr s d with
    | some t => .next (d.state.takeTrap t)
    | none => .next d.state
  | .error (.trap t) => .next (s.takeTrap t)
  | .error (.fault f) => .fault f
  | .error (.refuse r) => .refused r

/-- The privilege test, the first step of a privileged instruction (45_system_control.md R360). -/
def needPrivilege (instr : Word) (s : State) : Except Stop Unit :=
  if s.pswX then .error (.trap (instrTrap .privilegedOperation instr)) else .ok ()

/-- Refuse unless `ok`. -/
def needOrRefuse (ok : Bool) (r : Refusal) : Except Stop Unit := if ok then .ok () else .error (.refuse r)

/-- Raise `t` if `bad`. -/
def trapIf (bad : Bool) (t : Trap) : Except Stop Unit := if bad then .error (.trap t) else .ok ()

end Sys2Proof.Machine
end

