-- ==== Sys2Proof/Machine/PhysMem.lean ====
section
/-! DEFINITION. Physical memory: the address map (20_memory.md R80 to R86), big-endian reads and writes (R72), the reservation
(40_memory_reference.md R223) and what the caches let a program observe (R120 to R126), as histories of earlier values (log 11). -/

namespace Sys2Proof.Machine

/-- The width of an access that is performed (20_memory.md R70). -/
inductive Size where
  | byte | half | word
deriving DecidableEq, Repr

def Size.bytes : Size → Nat
  | .byte => 1 | .half => 2 | .word => 4

/-- What stands at a physical address (20_memory.md R81 to R85). -/
inductive Region where
  | memory | ioSpace | absent
deriving DecidableEq, Repr

/-- The map of the physical address space (20_memory.md R81): main memory, PDC, I/O, and the memory above 4 GB (R80), log 31. -/
def region (pa : PAddr) : Region :=
  if pa.toNat < Config.memTop then .memory
  else if pa.toNat < 0xF0000000 then .absent
  else if pa.toNat < 0xF1000000 then .memory
  else if pa.toNat < 0x100000000 then .ioSpace
  else if pa.toNat < Config.highMemTop then .memory
  else .absent

/-- An access needs memory at its address (20_memory.md R82, R85). -/
def needMemory (pa : PAddr) : Except Stop Unit :=
  match region pa with
  | .memory => .ok ()
  | .ioSpace => .error (.refuse .ioSpace)
  | .absent => .error (.fault .unpopulatedMemory)

/-- The byte at a physical address, which something must have written (log 30). -/
def readByte (m : Memory) (a : Nat) : Except Stop Byte :=
  match memByte m a with
  | some b => .ok b
  | none => .error (.fault .unwrittenMemory)

/-- `MemRead(pa, n)`: big-endian, zero-extended (20_memory.md R72). -/
def memRead (m : Memory) (pa : Nat) : Size → Except Stop Word
  | .byte => do
    let b0 ← readByte m pa
    .ok (b0.setWidth 32)
  | .half => do
    let b0 ← readByte m pa
    let b1 ← readByte m (pa + 1)
    .ok ((b0 ++ b1).setWidth 32)
  | .word => do
    let b0 ← readByte m pa
    let b1 ← readByte m (pa + 1)
    let b2 ← readByte m (pa + 2)
    let b3 ← readByte m (pa + 3)
    .ok (ofBytes b0 b1 b2 b3)

/-- The bytes a store of width `n` writes, in memory order: the rightmost of the word (20_memory.md R72). -/
def storedBytes (v : Word) : Size → List Byte
  | .byte => [byteOf v 3]
  | .half => [byteOf v 2, byteOf v 3]
  | .word => [byteOf v 0, byteOf v 1, byteOf v 2, byteOf v 3]

/-- The physical address of the word that holds a byte (40_memory_reference.md R223). -/
def wordAddr (pa : PAddr) : PAddr := pa &&& 0x3FFFFFFFC#34

/-! ### Cache histories (20_memory.md R123) -/

/-- Accesses to `0xF0000000`..`0xFFFFFFFF` are not cached (20_memory.md R86). -/
def cached (pa : PAddr) : Bool := decide (pa.toNat < 0xF0000000) || decide (0x100000000 ≤ pa.toNat)

/-- What the word at word address `a` holds now. -/
def oldWordAt (m : Memory) (a : Nat) : OldWord := ⟨a, memByte m a, memByte m (a + 1), memByte m (a + 2), memByte m (a + 3)⟩

/-- The cache line of a physical address (20_memory.md R122). -/
def lineOf (a : Nat) : Nat := a / (4 * Config.cacheLineWords)

/-- The history entry lies in the cache line of `pa`. -/
def OldWord.inLine (o : OldWord) (pa : PAddr) : Bool := lineOf o.addr == lineOf pa.toNat

/-- `MemWrite(pa, n, v)` by the CPU (20_memory.md R72): the bytes change, what the word held joins the histories of both caches, and
a reservation of that word is lost (40_memory_reference.md R223). -/
def State.store (s : State) (pa : PAddr) (n : Size) (v : Word) : State :=
  let old := oldWordAt s.mem (wordAddr pa).toNat
  { s with
    mem := memSetAll s.mem pa.toNat (storedBytes v n)
    iOld := if cached pa then old :: s.iOld else s.iOld
    dOld := if cached pa then old :: s.dOld else s.dOld
    lrValid := s.lrValid && !(wordAddr pa == s.lrAddr) }

/-- A store to physical memory. -/
def physWrite (s : State) (pa : PAddr) (n : Size) (v : Word) : Except Stop State := do
  needMemory pa
  .ok (s.store pa n v)

/-- A load from physical memory. -/
def physRead (s : State) (pa : PAddr) (n : Size) : Except Stop Word := do
  needMemory pa
  memRead s.mem pa.toNat n

/-- One of `first` and `rest`: `first` where there is no other, else the free choice numbered `k`. -/
def chooseAmong {α : Type} (k : Nat) (first : α) (rest : List α) : α :=
  match rest with
  | [] => first
  | x :: xs => (first :: x :: xs).getD (Config.freeIndex k % (xs.length + 2)) first

/-- Flush of the data-cache line of `pa`: memory now holds what the line held (20_memory.md R121). -/
def State.flushDataLine (s : State) (pa : PAddr) : State := { s with dOld := s.dOld.filter (fun o => !o.inLine pa) }

/-- Purge of the instruction-cache line of `pa`: what a fetch may still find is what a data line not yet flushed kept from memory
(20_memory.md R123 b). -/
def State.purgeInstrLine (s : State) (pa : PAddr) : State :=
  { s with iOld := s.dOld.filter (fun o => o.inLine pa) ++ s.iOld.filter (fun o => !o.inLine pa) }

/-- One byte of a purged word: its current value or one it held since the line's last flush (20_memory.md R123 c). -/
def revertByte (k : Nat) (m : Memory) (a : Nat) (olds : List (Option Byte)) : Memory := memPut m a (chooseAmong k (memByte m a) olds)

/-- A word of a purged line reverts, byte by byte; what it held joins the histories. -/
def State.revertWord (s : State) (a : Nat) : State :=
  let olds := s.dOld.filter (fun o => o.addr == a)
  let k := s.freeCount
  let m0 := revertByte k s.mem a (olds.map (·.b0))
  let m1 := revertByte (k + 1) m0 (a + 1) (olds.map (·.b1))
  let m2 := revertByte (k + 2) m1 (a + 2) (olds.map (·.b2))
  let m3 := revertByte (k + 3) m2 (a + 3) (olds.map (·.b3))
  { s with
    mem := m3
    iOld := oldWordAt s.mem a :: s.iOld
    dOld := oldWordAt s.mem a :: s.dOld
    freeCount := k + 4 }

/-- The words of a line with unflushed stores, each once. -/
def State.dirtyWords (s : State) (pa : PAddr) : List Nat := ((s.dOld.filter (fun o => o.inLine pa)).map (·.addr)).dedup

/-- Purge without flush of the data-cache line of `pa` (20_memory.md R123 c). -/
def State.purgeDataLine (s : State) (pa : PAddr) : State := (s.dirtyWords pa).foldl State.revertWord s

end Sys2Proof.Machine
end

