-- ==== Sys2Proof/Machine/Tlb.lean ====
section
/-! DEFINITION. The translation look-aside buffers (20_memory.md R109 to R116) and the rights an entry gives (R103 to R106). -/

namespace Sys2Proof.Machine

/-- The page number of an offset, bits 0..17 (20_memory.md R92). -/
def pageOf (ofs : Word) : Page := field ofs 0 18

/-- The entry is for this virtual page. -/
def TlbEntry.isFor (e : TlbEntry) (seg : SegId) (page : Page) : Bool := e.seg == seg && e.page == page

/-- `TLB.lookup(seg, page)`: the valid entry of a virtual page (20_memory.md R110). -/
def tlbLookup (tlb : List TlbEntry) (seg : SegId) (page : Page) : Option TlbEntry :=
  tlb.find? (fun e => e.valid && e.isFor seg page)

/-- An entry for the same page exists, and is reused (20_memory.md R110). -/
def tlbHolds (tlb : List TlbEntry) (e : TlbEntry) : Bool := tlb.any (fun x => x.isFor e.seg e.page)

/-- Insertion (20_memory.md R110, R114): an entry for the same page is overwritten; into a full TLB the new entry displaces an
arbitrary other one, the free choice numbered `k`. -/
def tlbInsert (capacity k : Nat) (tlb : List TlbEntry) (e : TlbEntry) : List TlbEntry :=
  if tlbHolds tlb e then tlb.map (fun x => if x.isFor e.seg e.page then e else x)
  else if tlb.length < capacity then e :: tlb
  else e :: tlb.eraseIdx (Config.freeIndex k % tlb.length)

/-- How many free choices an insertion takes. -/
def tlbInsertTakes (capacity : Nat) (tlb : List TlbEntry) (e : TlbEntry) : Nat :=
  if tlbHolds tlb e then 0 else if tlb.length < capacity then 0 else 1

/-- Removal of the entry of a virtual page, if there is one (20_memory.md R112). -/
def tlbPurge (tlb : List TlbEntry) (seg : SegId) (page : Page) : List TlbEntry := tlb.filter (fun e => !e.isFor seg page)

/-- ITLB's effect on the TLB that `optT` names, `true` the data TLB (45_system_control.md R375). -/
def State.insertTlb (s : State) (optT : Bool) (e : TlbEntry) : State :=
  if optT then
    { s with
      dtlb := tlbInsert Config.dtlbEntries s.freeCount s.dtlb e
      freeCount := s.freeCount + tlbInsertTakes Config.dtlbEntries s.dtlb e }
  else
    { s with
      itlb := tlbInsert Config.itlbEntries s.freeCount s.itlb e
      freeCount := s.freeCount + tlbInsertTakes Config.itlbEntries s.itlb e }

/-- PTLB's effect on the TLB that `optT` names (45_system_control.md R380). -/
def State.purgeTlb (s : State) (optT : Bool) (seg : SegId) (page : Page) : State :=
  if optT then { s with dtlb := tlbPurge s.dtlb seg page } else { s with itlb := tlbPurge s.itlb seg page }

/-- The PPN bits an implementation with PA_BITS address bits uses (20_memory.md R80, R109). -/
def effectivePpn (ppn : BitVec 20) : BitVec 20 := ppn &&& BitVec.ofNat 20 (2 ^ (Config.paBits - 14) - 1)

/-- `PPN ‖ ofs[18:31]` (20_memory.md R92, R109). -/
def TlbEntry.physical (e : TlbEntry) (ofs : Word) : PAddr := effectivePpn e.ppn ++ field ofs 18 14

/-- Page types 0 to 3 (20_memory.md R103). -/
def PageType.ofBits : BitVec 2 → PageType
  | 0#2 => .readOnly | 1#2 => .readWrite | 2#2 => .execute | _ => .gateway

/-- The entry an ITLB argument word describes for a virtual page; V is set whatever the word's V bit is (45_system_control.md R375). -/
def entryOfWord (w : Word) (seg : SegId) (page : Page) : TlbEntry where
  valid := true
  refTrap := flag w 1
  dirtyTrap := flag w 2
  dataTrap := flag w 3
  pidCheck := flag w 4
  rights := ⟨PageType.ofBits (field w 8 2), flag w 10, flag w 11⟩
  seg := seg
  page := page
  ppn := field w 12 20

/-- `x <= y` on privilege levels, `false` being level 0 (20_memory.md R103). -/
def levelLe (x y : Bool) : Bool := !x || y

/-- Read allowed at level `pl`: `PL <= PL1` (20_memory.md R104). -/
def readAllowed (ar : Rights) (pl : Bool) : Bool := levelLe pl ar.pl1

/-- Write allowed at level `pl` (20_memory.md R104). -/
def writeAllowed (ar : Rights) (pl : Bool) : Bool :=
  match ar.type with
  | .readOnly => false
  | .readWrite => levelLe pl ar.pl2
  | .execute | .gateway => !pl

/-- Execute allowed by the page's type (20_memory.md R97). -/
def executable (ar : Rights) : Bool :=
  match ar.type with
  | .readOnly | .readWrite => false
  | .execute | .gateway => true

/-- One of the eight protection ids in CR4..CR7 equals the segment id (20_memory.md R106, 10_state.md R50). -/
def State.pidMatch (s : State) (seg : SegId) : Bool :=
  [4#5, 5#5, 6#5, 7#5].any (fun n => field (s.readCr n) 0 16 == seg || field (s.readCr n) 16 16 == seg)

/-- The protection id check refuses an access through the entry (20_memory.md R106). -/
def State.pidRefuses (s : State) (e : TlbEntry) (seg : SegId) : Bool := s.pswP && e.pidCheck && !s.pidMatch seg

end Sys2Proof.Machine
end

