-- ==== Sys2Proof/Machine/Access.lean ====
section
/-! DEFINITION. The data access procedure (20_memory.md R90 to R108): segment selection, the checks in their order, the access. -/

namespace Sys2Proof.Machine

/-- `segSelect(x) = 4 + x[0:1]` (00_scope.md R16, 20_memory.md R91). -/
def segSelect (x : Word) : BitVec 3 := 1#1 ++ field x 0 2

/-- The segment register of an address: SR1..SR3 by a non-zero `seg` field, else by the offset (20_memory.md R91). -/
def segReg (seg : BitVec 2) (ofs : Word) : BitVec 3 := if seg = 0 then segSelect ofs else seg.setWidth 3

/-- The segment id of a data access: with data translation off "a zero value" (20_memory.md R95, 60_exceptions.md R440). -/
def State.dataSeg (s : State) (sr : BitVec 3) : SegId := if s.pswD then s.readSr sr else 0

/-- The width of an access; `dw` = 3 raises trap 5 (20_memory.md R76). -/
def accessSize (instr : Word) : Width → Except Stop Size
  | .byte => .ok .byte
  | .half => .ok .half
  | .word => .ok .word
  | .double => .error (.trap (instrTrap .illegalInstruction instr))

/-- Where a data access goes, and the data reference trap that follows it if TRAP_DATAREF is set (20_memory.md R108). -/
structure Translated where
  pa : PAddr
  after : Option Trap

/-- The D flag: a write through the entry raises TRAP_DIRTY, and is refused while that is unset (20_memory.md R108, log 13). -/
def dirtyCheck (instr : Word) (write : Bool) (seg : SegId) (ofs : Word) (e : TlbEntry) : Except Stop Unit :=
  if write && e.dirtyTrap then
    match Config.trapDirty with
    | some id => .error (.trap (dataTrap id instr seg ofs))
    | none => .error (.refuse .dirtyFlag)
  else .ok ()

/-- The B flag: TRAP_DATAREF before a write, after a read, and a refusal while that is unset (20_memory.md R108, log 13). -/
def dataRefCheck (instr : Word) (write : Bool) (seg : SegId) (ofs : Word) (e : TlbEntry) : Except Stop (Option Trap) :=
  if e.dataTrap then
    match Config.trapDataRef with
    | some id => if write then .error (.trap (dataTrap id instr seg ofs)) else .ok (some (dataTrap id instr seg ofs))
    | none => .error (.refuse .dataReferenceFlag)
  else .ok none

/-- Access rights, protection id, page reference, D and B flags of a translated access, in order (20_memory.md R100, R101, R102). -/
def entryChecks (instr : Word) (write : Bool) (seg : SegId) (ofs : Word) (s : State) (e : TlbEntry) : Except Stop (Option Trap) := do
  trapIf (!(if write then writeAllowed e.rights s.pswX else readAllowed e.rights s.pswX)) (dataTrap .dataAccessRights instr seg ofs)
  trapIf (s.pidRefuses e seg) (dataTrap .dataProtection instr seg ofs)
  trapIf e.refTrap (dataTrap .pageReference instr seg ofs)
  dirtyCheck instr write seg ofs e
  dataRefCheck instr write seg ofs e

/-- The physical address of a data access of width `n` at `seg.ofs`, with all checks of `DataRead` or `DataWrite` (20_memory.md R73,
R95, R100, R101). -/
def dataAddress (instr : Word) (write : Bool) (seg : SegId) (ofs : Word) (n : Size) (s : State) : Except Stop Translated := do
  trapIf (ofs.toNat % n.bytes != 0) (dataTrap .alignment instr seg ofs)
  if s.pswD then
    match tlbLookup s.dtlb seg (pageOf ofs) with
    | none => .error (.trap (dataTrap .dataTlbMiss instr seg ofs))
    | some e =>
      let after ← entryChecks instr write seg ofs s e
      .ok ⟨e.physical ofs, after⟩
  else .ok ⟨ofs.setWidth 34, none⟩

/-- A loaded value, where it was read, and the trap that would follow. -/
structure Loaded where
  value : Word
  pa : PAddr
  after : Option Trap

/-- `DataRead(seg, ofs, n)` (20_memory.md R100). -/
def dataRead (instr : Word) (seg : SegId) (ofs : Word) (n : Size) (s : State) : Except Stop Loaded := do
  let t ← dataAddress instr false seg ofs n s
  let v ← physRead s t.pa n
  .ok ⟨v, t.pa, t.after⟩

/-- `DataWrite(seg, ofs, n, v)` (20_memory.md R101): the state with the bytes stored. -/
def dataWrite (instr : Word) (seg : SegId) (ofs : Word) (n : Size) (v : Word) (s : State) : Except Stop State := do
  let t ← dataAddress instr true seg ofs n s
  physWrite s t.pa n v

end Sys2Proof.Machine
end

