-- ==== Sys2Proof/Machine/Flags.lean ====
section
/-! DEFINITION. Results, carry, borrow, overflow and conditions (43_computational_operand.md R291 to R306,
44_computational_bitfield.md R339, R342): operands as exact integers, narrowed at the end. -/

namespace Sys2Proof.Machine

/-- The exact unsigned sum with a carry in (R291, R292). -/
def addExact (a b : Word) (c : Bool) : Nat := a.toNat + b.toNat + c.toNat

/-- The sum modulo 2^32 (R291, R292). -/
def addValue (a b : Word) (c : Bool) : Word := BitVec.ofNat 32 (addExact a b c)

/-- The carry out (R291, R292). -/
def addCarry (a b : Word) (c : Bool) : Bool := decide (2 ^ 32 ≤ addExact a b c)

/-- The exact signed integer fits no 32-bit word. -/
def outsideSigned (x : Int) : Bool := decide (x < -2 ^ 31) || decide (2 ^ 31 - 1 < x)

/-- The exact integer is no unsigned 32-bit value. -/
def outsideUnsigned (x : Int) : Bool := decide (x < 0) || decide (2 ^ 32 - 1 < x)

/-- `overflow_add(a, b, c, L)` (R295). -/
def overflowAdd (a b : Word) (c : Bool) (optL : Bool) : Bool :=
  if optL then outsideUnsigned (a.toNat + b.toNat + c.toNat) else outsideSigned (a.toInt + b.toInt + c.toNat)

/-- The difference with a borrow in, modulo 2^32 (R293, R294). -/
def subValue (a b : Word) (c : Bool) : Word := BitVec.ofInt 32 ((a.toNat : Int) - b.toNat - c.toNat)

/-- A borrow occurs (R293, R294). -/
def subBorrow (a b : Word) (c : Bool) : Bool := decide (a.toNat < b.toNat + c.toNat)

/-- `overflow_sub(a, b, c, L)` (R295). -/
def overflowSub (a b : Word) (c : Bool) (optL : Bool) : Bool :=
  if optL then outsideUnsigned ((a.toNat : Int) - b.toNat - c.toNat) else outsideSigned (a.toInt - b.toInt - c.toNat)

/-- `cb_after_sub(borrow)` (R296). -/
def cbAfterSub (borrow : Bool) : Bool :=
  match Config.borrowSense with
  | .borrow => borrow
  | .notBorrow => !borrow

/-- `borrow_in(CB)` (R296). -/
def borrowIn (cb : Bool) : Bool :=
  match Config.borrowSense with
  | .borrow => cb
  | .notBorrow => !cb

/-- The shifted value of SHLA, modulo 2^32 (R338). -/
def shiftedValue (a : Word) (sa : BitVec 2) : Word := BitVec.ofNat 32 (a.toNat * 2 ^ sa.toNat)

/-- `shla_overflow(a, b, sa, L)` (R339). -/
def shlaOverflow (a b : Word) (sa : BitVec 2) (optL : Bool) : Bool :=
  if optL then outsideUnsigned (a.toNat * 2 ^ sa.toNat) || outsideUnsigned ((shiftedValue a sa).toNat + b.toNat)
  else outsideSigned (a.toInt * 2 ^ sa.toNat) || outsideSigned ((shiftedValue a sa).toInt + b.toInt)

/-- A comparison of exact integers (R305, 42_branch.md R270). -/
def condTest (cond : Cond) (a b : Int) : Bool :=
  match cond with
  | .eq => decide (a = b)
  | .lt => decide (a < b)
  | .ne => decide (a ≠ b)
  | .le => decide (a ≤ b)

/-- The signed comparison of CMP and CBR (R305, 42_branch.md R270). -/
def compareSigned (cond : Cond) (a b : Word) : Bool := condTest cond a.toInt b.toInt

/-- The unsigned comparison of CMPU and CBRU (R306, 42_branch.md R271). -/
def compareUnsigned (cond : Cond) (a b : Word) : Bool := condTest cond a.toNat b.toNat

/-- The condition of CMR on `GR[b]`; none for the codes 8..15 (44_computational_bitfield.md R342). -/
def moveTest (cond : MoveCond) (b : Word) : Option Bool :=
  match cond with
  | .eq => some (decide (b.toInt = 0))
  | .lt => some (decide (b.toInt < 0))
  | .gt => some (decide (0 < b.toInt))
  | .ev => some (!flag b 31)
  | .ne => some (decide (b.toInt ≠ 0))
  | .le => some (decide (b.toInt ≤ 0))
  | .ge => some (decide (0 ≤ b.toInt))
  | .od => some (flag b 31)
  | .undefined _ => none

/-- 1 if the condition is met, else 0 (R305). -/
def truthWord (v : Bool) : Word := if v then 1 else 0

end Sys2Proof.Machine
end

