-- ==== Sys2Proof/Machine/Operands.lean ====
section
/-! DEFINITION. Operand forms: signed fields (30_encoding.md R150, R151), the offset of a memory reference (40_memory_reference.md
R201), the four operand modes (43_computational_operand.md R290), bit fields (44_computational_bitfield.md R330, R332). -/

namespace Sys2Proof.Machine

/-- `lowsign_N(f)`: the sign is the field's rightmost bit (30_encoding.md R150). -/
def lowSign {n : Nat} (f : BitVec n) : Int := (f.toNat / 2 : Nat) - (f.toNat % 2 : Nat) * 2 ^ (n - 1)

/-- `imm_N(f)`, the signed value of an instruction field (30_encoding.md R150). -/
def immValue {n : Nat} (f : BitVec n) : Int :=
  match Config.signPos with
  | .right => lowSign f
  | .left => f.toInt

/-- The signed value of a field as a word. -/
def imm {n : Nat} (f : BitVec n) : Word := BitVec.ofInt 32 (immValue f)

/-- The signed value of a word displacement, in bytes (30_encoding.md R151). -/
def immTimes4 {n : Nat} (f : BitVec n) : Word := BitVec.ofInt 32 (immValue f * 4)

/-- The 22-bit immediate of LDIL and ADDIL in place: `val << 10` (30_encoding.md R152). -/
def leftImm (val : BitVec 22) : Word := val ++ 0#10

/-- The displacement of a memory reference (40_memory_reference.md R201). -/
def State.displacement (s : State) : Disp → Word
  | .imm ofs => imm ofs
  | .reg a => s.readGr a

/-- `tmpOfs`: without M, or with a negative displacement, base plus displacement; else the base (40_memory_reference.md R201). -/
def State.memOffset (s : State) (optM : Bool) (disp : Disp) (b : BitVec 4) : Word :=
  if !optM || flag (s.displacement disp) 0 then s.readGr b + s.displacement disp else s.readGr b

/-- `newB`, the base register after M (40_memory_reference.md R201). -/
def State.newBase (s : State) (disp : Disp) (b : BitVec 4) : Word := s.readGr b + s.displacement disp

/-- The base update of option M (40_memory_reference.md R201). `old` is the state whose registers form the new base (00_scope.md R15). -/
def State.updateBase (s old : State) (optM : Bool) (disp : Disp) (b : BitVec 4) : State :=
  if optM then s.writeGr b (old.newBase disp b) else s

/-- The two operands of an operand-format instruction. -/
structure Operands where
  a : Word
  b : Word
  after : Option Trap

/-- A memory operand, zero-extended; the segment register is SR4..SR7 by the offset (43_computational_operand.md R290). -/
def memOperand (instr : Word) (r : BitVec 4) (dw : Width) (ofs : Word) (s : State) : Except Stop Operands := do
  let n ← accessSize instr dw
  let v ← dataRead instr (s.dataSeg (segSelect ofs)) ofs n s
  .ok ⟨s.readGr r, v.value, v.after⟩

/-- Operand fetch (43_computational_operand.md R290). -/
def operands (instr : Word) (r : BitVec 4) (op : Operand) (s : State) : Except Stop Operands :=
  match op with
  | .imm val => .ok ⟨s.readGr r, imm val, none⟩
  | .reg a b => .ok ⟨s.readGr a, s.readGr b, none⟩
  | .indexed dw a b => memOperand instr r dw (s.readGr b + s.readGr a) s
  | .disp dw ofs b => memOperand instr r dw (s.readGr b + imm ofs) s

/-- The position of a bit field: the field `pos`, or the shift amount register under option A (R330, R332). -/
def State.fieldPos (s : State) (optA : Bool) (pos : BitVec 5) : Nat := if optA then s.shamt.toNat else pos.toNat

/-- `len` is not 0 and the field does not begin left of bit 0 (R331, R333). -/
def fieldInRange (p : Nat) (len : BitVec 5) : Bool := decide (len.toNat ≠ 0) && decide (len.toNat ≤ p + 1)

/-- Bits `p - len + 1 .. p` of a word, right-justified (R330). -/
def extractField (w : Word) (p : Nat) (len : BitVec 5) (signed : Bool) : Word :=
  if signed then (w.extractLsb' (31 - p) len.toNat).signExtend 32 else (w.extractLsb' (31 - p) len.toNat).setWidth 32

/-- The bits `p - len + 1 .. p` of a word, all one. -/
def fieldMask (p : Nat) (len : BitVec 5) : Word := BitVec.ofNat 32 ((2 ^ len.toNat - 1) * 2 ^ (31 - p))

/-- `old` with bits `p - len + 1 .. p` replaced by the rightmost `len` bits of `src` (R332). -/
def depositField (old src : Word) (p : Nat) (len : BitVec 5) : Word :=
  (old &&& ~~~fieldMask p len) ||| ((src <<< (31 - p)) &&& fieldMask p len)

end Sys2Proof.Machine
end

