-- ==== Sys2Proof/Machine/Fetch.lean ====
section
/-! DEFINITION. What happens around an instruction: states that have no meaning, asynchronous events (60_exceptions.md R441 to R453),
and instruction fetch (20_memory.md R96, R97, R123). -/

namespace Sys2Proof.Machine

/-- A state whose execution the spec gives no meaning: N = 1 (10_state.md R33), R = 1 (R40), Z = 1 while TRAP_SINGLESTEP is unset (R41). -/
def State.noMeaning (s : State) : Option Refusal :=
  if s.pswN then some .nullified
  else if s.pswR then some .recoveryCounter
  else if s.pswZ && Config.trapSingleStep.isNone then some .singleStep
  else none

/-- CR22 holds the external interrupt request back, in the setting of EXT_IRQ_MODEL (60_exceptions.md R444). -/
def State.requestMasked (s : State) : Bool :=
  match Config.extIrqModel with
  | none => false
  | some m => m.masks (s.readCr 22)

/-- The state once the external interrupt is taken: the setting of EXT_IRQ_MODEL says whether that clears the request; without one it
stays until it is withdrawn (60_exceptions.md R444; DESIGN CHOICE, log 18). -/
def State.requestTaken (s : State) : State :=
  match Config.extIrqModel with
  | none => s
  | some m => { s with extPending := s.extPending && !m.clearedWhenTaken }

/-- An external interrupt request is raised; without a setting of EXT_IRQ_MODEL none is ever pending (60_exceptions.md R444, U17). -/
def State.raiseRequest (s : State) : State :=
  match Config.extIrqModel with
  | none => s
  | some _ => { s with extPending := true }

/-- The asynchronous event taken before the next fetch, and the state without it (60_exceptions.md R453, R460): machine check if M = 0,
power failure, external interrupt if E = 1 and CR22 does not hold it back. -/
def State.sampleEvent (s : State) : Option (Trap × State) :=
  match (if s.pswM then none else s.machineCheck) with
  | some checkType => some (⟨.machineCheck, some checkType, none, none⟩, { s with machineCheck := none })
  | none =>
    if s.powerFail then some (bareTrap .powerFailure, { s with powerFail := false })
    else if s.pswE && s.extPending && !s.requestMasked then some (bareTrap .externalInterrupt, s.requestTaken)
    else none

/-- An event reaches the machine, between two steps (70_reset_and_hazards.md R503). The spec does not say what a second event of a kind
does before the first is taken: a second machine check replaces the first, a second power failure merges with it into one trap 2
(DESIGN CHOICE, log 18). -/
def State.deliver (s : State) (e : Event) : State :=
  match e with
  | .machineCheck checkType => { s with machineCheck := some checkType }
  | .powerFailure => { s with powerFail := true }
  | .externalRaise => s.raiseRequest
  | .externalClear => { s with extPending := false }

/-- The word that the bytes of `o` make, all of which something must have written. -/
def OldWord.word (o : OldWord) : Except Stop Word :=
  match o.b0, o.b1, o.b2, o.b3 with
  | some b0, some b1, some b2, some b3 => .ok (ofBytes b0 b1 b2 b3)
  | _, _, _, _ => .error (.fault .unwrittenMemory)

/-- What an instruction fetch at `pa` may return beside the current word (20_memory.md R123 b). -/
def State.staleAt (s : State) (pa : PAddr) : List OldWord := s.iOld.filter (fun o => o.addr == pa.toNat)

/-- The instruction word read at `pa`: the current one, or by a free choice a stale one (20_memory.md R123 b). -/
def fetchWord (s : State) (pa : PAddr) : Except Stop (Word × State) := do
  needMemory pa
  let w ← (chooseAmong s.freeCount (oldWordAt s.mem pa.toNat) (s.staleAt pa)).word
  .ok (w, if (s.staleAt pa).isEmpty then s else { s with freeCount := s.freeCount + 1 })

/-- A privileged fetch from an execute page whose PL2 is user demotes (20_memory.md R97). -/
def State.demote (s : State) (e : TlbEntry) : State :=
  if e.rights.type == .execute && !s.pswX && e.rights.pl2 then s.setX true else s

/-- Instruction fetch (20_memory.md R96, R97): the word, and the state it executes in. -/
def fetch (s : State) : Except Stop (Word × State) :=
  if s.pswC then
    match tlbLookup s.itlb s.pswSeg (pageOf s.psw1) with
    | none => .error (.trap (bareTrap .instrTlbMiss))
    | some e => do
      trapIf (!executable e.rights) (bareTrap .instrProtection)
      trapIf (s.pidRefuses e s.pswSeg) (bareTrap .instrProtection)
      trapIf (!levelLe s.pswX e.rights.pl1) (bareTrap .instrProtection)
      fetchWord (s.demote e) (e.physical s.psw1)
  else fetchWord s (s.psw1.setWidth 34)

/-- Where the next instruction is fetched: by the instruction TLB's entry, or the offset itself. -/
def State.fetchPlace (s : State) : PAddr :=
  if s.pswC then
    match tlbLookup s.itlb s.pswSeg (pageOf s.psw1) with
    | some e => e.physical s.psw1
    | none => s.psw1.setWidth 34
  else s.psw1.setWidth 34

/-- A word placed in memory from outside the machine: the four bytes, and no stale copy of them in the instruction cache (log 36). -/
def State.placeWord (s : State) (pa : PAddr) (w : Word) : State :=
  { s with
    mem := memSetAll s.mem pa.toNat [byteOf w 0, byteOf w 1, byteOf w 2, byteOf w 3]
    iOld := s.iOld.filter (fun o => o.addr != pa.toNat) }

/-- A word the decoder rejects: an unassigned opcode raises trap 5 at both levels (30_encoding.md R162), a reserved field is refused
(R163). -/
def rejected (s : State) (w : Word) (e : DecodeError) : Host.Outcome State Fault Refusal :=
  match e with
  | .unassignedOpcode => .next (s.takeTrap (instrTrap .illegalInstruction w))
  | .reservedField => .refused .reservedField

/-- The outcome of a fetch that is abandoned: a trap is taken with the address that could not be fetched (60_exceptions.md R440). -/
def fetchStopped (s : State) (r : Stop) : Host.Outcome State Fault Refusal :=
  match r with
  | .trap t => .next (s.takeTrap t)
  | .fault f => .fault f
  | .refuse r => .refused r

end Sys2Proof.Machine
end

