-- ==== Sys2Proof/Machine/BitField.lean ====
section
/-! DEFINITION. The bit-field, shift, conditional-move and divide-step instructions EXTR, DEP, DSR, SHLA, CMR and DS
(44_computational_bitfield.md). -/

namespace Sys2Proof.Machine

/-- EXTR (R330): an out-of-range field is refused (R331). -/
def execExtr (r : BitVec 4) (optS optA : Bool) (len pos : BitVec 5) (b : BitVec 4) (s : State) : Host.Outcome State Fault Refusal :=
  conclude (encode (.extr r optS optA len pos b)) s (do
    needOrRefuse (fieldInRange (s.fieldPos optA pos) len) .bitFieldRange
    done (s.writeGr r (extractField (s.readGr b) (s.fieldPos optA pos) len optS)).advance)

/-- The source of DEP: the signed 4-bit immediate in the place of `b`, or `GR[b]` (R332, R334). -/
def State.depositSource (s : State) (optI : Bool) (b : BitVec 4) : Word := if optI then imm b else s.readGr b

/-- DEP (R332): an out-of-range field is refused (R333). -/
def execDep (r : BitVec 4) (optZ optA optI : Bool) (len pos : BitVec 5) (b : BitVec 4) (s : State) :
    Host.Outcome State Fault Refusal :=
  conclude (encode (.dep r optZ optA optI len pos b)) s (do
    needOrRefuse (fieldInRange (s.fieldPos optA pos) len) .bitFieldRange
    done (s.writeGr r
      (depositField (if optZ then 0 else s.readGr r) (s.depositSource optI b) (s.fieldPos optA pos) len)).advance)

/-- The pair `hi ‖ lo` shifted right by `n`, its low word (R335). -/
def doubleShift (hi lo : Word) (n : Nat) : Word := ((hi ++ lo : BitVec 64) >>> n).setWidth 32

/-- DSR (R335): `GR[b]` is the left part, `GR[a]` the right part. -/
def execDsr (r : BitVec 4) (optA : Bool) (shamt : BitVec 5) (a b : BitVec 4) (s : State) : Host.Outcome State Fault Refusal :=
  conclude (encode (.dsr r optA shamt a b)) s
    (done (s.writeGr r (doubleShift (s.readGr b) (s.readGr a) (s.fieldPos optA shamt))).advance)

/-- SHLA (R338, R339). -/
def execShla (r : BitVec 4) (optL optO : Bool) (sa : BitVec 2) (a b : BitVec 4) (s : State) : Host.Outcome State Fault Refusal :=
  conclude (encode (.shla r optL optO sa a b)) s (do
    trapIf (optO && shlaOverflow (s.readGr a) (s.readGr b) sa optL) (instrTrap .overflow (encode (.shla r optL optO sa a b)))
    done (s.writeGr r (shiftedValue (s.readGr a) sa + s.readGr b)).advance)

/-- CMR (R342): the codes 8..15 raise trap 5. -/
def execCmr (r : BitVec 4) (cond : MoveCond) (a b : BitVec 4) (s : State) : Host.Outcome State Fault Refusal :=
  conclude (encode (.cmr r cond a b)) s
    (match moveTest cond (s.readGr b) with
     | none => .error (.trap (instrTrap .illegalInstruction (encode (.cmr r cond a b))))
     | some true => done (s.writeGr r (s.readGr a)).advance
     | some false => done s.advance)

/-- DS (R350): "This spec gives DS no semantics"; refused (U10), log 25. -/
def execDs (r a b : BitVec 4) (s : State) : Host.Outcome State Fault Refusal :=
  conclude (encode (.ds r a b)) s (.error (.refuse .divideStep))

end Sys2Proof.Machine
end

