-- ==== Sys2Proof/Machine/Branch.lean ====
section
/-! DEFINITION. The branch instructions B, GATE, BR, BV, BE, BVE, CBR and CBRU (42_branch.md). The page rights of a target are
checked when it is fetched (R253), so no branch checks them. -/

namespace Sys2Proof.Machine

/-- The taken-branch trap of B, BR, BV, BE and BVE, none while TRAP_TAKENBRANCH is unset (R273). -/
def State.takenBranchTrap (s : State) (instr : Word) : Option Trap := (Config.trapTakenBranch s.psw0).map (fun id => instrTrap id instr)

/-- A taken branch: the link in `GR[r]`, the target in the instruction offset. -/
def State.branchTo (s : State) (r : BitVec 4) (link target : Word) : State := (s.writeGr r link).setPc target

/-- B (R251). -/
def execB (r : BitVec 4) (ofs : BitVec 22) (s : State) : Host.Outcome State Fault Refusal :=
  conclude (encode (.b r ofs)) s
    (.ok ⟨s.branchTo r s.nextPc (s.psw1 + immTimes4 ofs), none, s.takenBranchTrap (encode (.b r ofs))⟩)

/-- The level after GATE (R254): with code translation on, the promotion of the gateway page it was fetched from; off, level 0. -/
def State.gateLevel (s : State) : Bool :=
  if s.pswC then
    match tlbLookup s.itlb s.pswSeg (pageOf s.psw1) with
    | some e => if e.rights.type == .gateway && !e.rights.pl2 && s.pswX then e.rights.pl2 else s.pswX
    | none => s.pswX
  else false

/-- The instruction was fetched from a gateway page, page type 3 (20_memory.md R103). -/
def State.onGatewayPage (s : State) : Bool :=
  match tlbLookup s.itlb s.pswSeg (pageOf s.psw1) with
  | some e => e.rights.type == .gateway
  | none => false

/-- Under the other reading of decision D27 GATE traps on a translated page that is not a gateway page; under R254, which is followed,
on none (log 23). -/
def needGateway (s : State) : Except Stop Unit :=
  match Config.gateTrap with
  | none => .ok ()
  | some id => trapIf (s.pswC && !s.onGatewayPage) (bareTrap id)

/-- GATE (R254): `GR[r]` receives the old level. -/
def execGate (r : BitVec 4) (ofs : BitVec 22) (s : State) : Host.Outcome State Fault Refusal :=
  conclude (encode (.gate r ofs)) s (do
    needGateway s
    done ((s.setX s.gateLevel).branchTo r (truthWord s.pswX) (s.psw1 + immTimes4 ofs)))

/-- BR (R257). -/
def execBr (r b : BitVec 4) (s : State) : Host.Outcome State Fault Refusal :=
  conclude (encode (.br r b)) s
    (.ok ⟨s.branchTo r s.nextPc (s.psw1 + s.readGr b <<< 2), none, s.takenBranchTrap (encode (.br r b))⟩)

/-- BV (R259). -/
def execBv (r b : BitVec 4) (s : State) : Host.Outcome State Fault Refusal :=
  conclude (encode (.bv r b)) s
    (.ok ⟨s.branchTo r s.nextPc (s.readGr b), none, s.takenBranchTrap (encode (.bv r b))⟩)

/-- An external branch: the old segment in SR0, the link in `GR[r]`, the new segment and offset in the instruction address. -/
def State.branchExternal (s : State) (r : BitVec 4) (link : Word) (newSeg : SegId) (target : Word) : State :=
  ((s.writeSr 0 s.pswSeg).setSeg newSeg).branchTo r link target

/-- BE (R262, R263, R264). -/
def execBe (r : BitVec 4) (ofs : BitVec 14) (a b : BitVec 4) (s : State) : Host.Outcome State Fault Refusal :=
  conclude (encode (.be r ofs a b)) s (do
    needOrRefuse (!s.pswC || decide (a.toNat < 8)) .noSegmentRegister
    .ok ⟨s.branchExternal r s.nextPc (if s.pswC then s.readSr (a.setWidth 3) else s.pswSeg) (s.readGr b + immTimes4 ofs),
      none, s.takenBranchTrap (encode (.be r ofs a b))⟩)

/-- BVE (R266). -/
def execBve (r a b : BitVec 4) (s : State) : Host.Outcome State Fault Refusal :=
  conclude (encode (.bve r a b)) s
    (.ok ⟨s.branchExternal r s.nextPc (s.readSr (segSelect (s.readGr b + s.readGr a))) (s.readGr b + s.readGr a),
      none, s.takenBranchTrap (encode (.bve r a b))⟩)

/-- A conditional branch: the target if the condition is met, else the next instruction (R270). -/
def State.branchIf (s : State) (taken : Bool) (ofs : BitVec 16) : State := s.setPc (if taken then s.psw1 + immTimes4 ofs else s.nextPc)

/-- CBR (R270). -/
def execCbr (cond : Cond) (ofs : BitVec 16) (a b : BitVec 4) (s : State) : Host.Outcome State Fault Refusal :=
  conclude (encode (.cbr cond ofs a b)) s (done (s.branchIf (compareSigned cond (s.readGr a) (s.readGr b)) ofs))

/-- CBRU (R271). -/
def execCbru (cond : Cond) (ofs : BitVec 16) (a b : BitVec 4) (s : State) : Host.Outcome State Fault Refusal :=
  conclude (encode (.cbru cond ofs a b)) s (done (s.branchIf (compareUnsigned cond (s.readGr a) (s.readGr b)) ofs))

end Sys2Proof.Machine
end

