-- ==== Sys2Proof/Machine/Computational.lean ====
section
/-! DEFINITION. The operand-format instructions ADD, ADC, SUB, SBC, AND, OR, XOR, CMP and CMPU (43_computational_operand.md). -/

namespace Sys2Proof.Machine

/-- Addition with a carry in (R291, R292): CB is written only when L = 0. -/
def addWith (instr : Word) (r : BitVec 4) (optL optO : Bool) (op : Operand) (cin : Bool) (s : State) : Except Stop Done := do
  let o ← operands instr r op s
  trapIf (optO && overflowAdd o.a o.b cin optL) (instrTrap .overflow instr)
  let t := s.writeGr r (addValue o.a o.b cin)
  .ok ⟨(if optL then t else t.setCB (addCarry o.a o.b cin)).advance, o.after, none⟩

/-- Subtraction with a borrow in (R293, R294): CB is written whatever L is. -/
def subWith (instr : Word) (r : BitVec 4) (optL optO : Bool) (op : Operand) (bin : Bool) (s : State) : Except Stop Done := do
  let o ← operands instr r op s
  trapIf (optO && overflowSub o.a o.b bin optL) (instrTrap .overflow instr)
  let t := (s.writeGr r (subValue o.a o.b bin)).setCB (cbAfterSub (subBorrow o.a o.b bin))
  .ok ⟨t.advance, o.after, none⟩

/-- An instruction whose result is a function of the two operands and that writes no flag (R300 to R306). -/
def resultOf (instr : Word) (r : BitVec 4) (op : Operand) (f : Word → Word → Word) (s : State) : Except Stop Done := do
  let o ← operands instr r op s
  .ok ⟨(s.writeGr r (f o.a o.b)).advance, o.after, none⟩

/-- Complement under an option bit. -/
def complementIf (c : Bool) (x : Word) : Word := if c then ~~~x else x

/-- AND and OR with both N and C are undefined (R303). -/
def needDefinedOption (optN optC : Bool) : Except Stop Unit := needOrRefuse (!(optN && optC)) .undefinedOption

/-- ADD (R291). -/
def execAdd (r : BitVec 4) (optL optO : Bool) (op : Operand) (s : State) : Host.Outcome State Fault Refusal :=
  conclude (encode (.add r optL optO op)) s (addWith (encode (.add r optL optO op)) r optL optO op false s)

/-- ADC (R292). -/
def execAdc (r : BitVec 4) (optL optO : Bool) (op : Operand) (s : State) : Host.Outcome State Fault Refusal :=
  conclude (encode (.adc r optL optO op)) s (addWith (encode (.adc r optL optO op)) r optL optO op s.pswCB s)

/-- SUB (R293). -/
def execSub (r : BitVec 4) (optL optO : Bool) (op : Operand) (s : State) : Host.Outcome State Fault Refusal :=
  conclude (encode (.sub r optL optO op)) s (subWith (encode (.sub r optL optO op)) r optL optO op false s)

/-- SBC (R294). -/
def execSbc (r : BitVec 4) (optL optO : Bool) (op : Operand) (s : State) : Host.Outcome State Fault Refusal :=
  conclude (encode (.sbc r optL optO op)) s (subWith (encode (.sbc r optL optO op)) r optL optO op (borrowIn s.pswCB) s)

/-- AND (R300). -/
def execAnd (r : BitVec 4) (optN optC : Bool) (op : Operand) (s : State) : Host.Outcome State Fault Refusal :=
  conclude (encode (.and r optN optC op)) s (do
    needDefinedOption optN optC
    resultOf (encode (.and r optN optC op)) r op (fun a b => complementIf optN (a &&& complementIf optC b)) s)

/-- OR (R301). -/
def execOr (r : BitVec 4) (optN optC : Bool) (op : Operand) (s : State) : Host.Outcome State Fault Refusal :=
  conclude (encode (.or r optN optC op)) s (do
    needDefinedOption optN optC
    resultOf (encode (.or r optN optC op)) r op (fun a b => complementIf optN (a ||| complementIf optC b)) s)

/-- XOR (R302). -/
def execXor (r : BitVec 4) (optN : Bool) (op : Operand) (s : State) : Host.Outcome State Fault Refusal :=
  conclude (encode (.xor r optN op)) s
    (resultOf (encode (.xor r optN op)) r op (fun a b => complementIf optN (a ^^^ b)) s)

/-- CMP (R305). -/
def execCmp (r : BitVec 4) (cond : Cond) (op : Operand) (s : State) : Host.Outcome State Fault Refusal :=
  conclude (encode (.cmp r cond op)) s
    (resultOf (encode (.cmp r cond op)) r op (fun a b => truthWord (compareSigned cond a b)) s)

/-- CMPU (R306). -/
def execCmpu (r : BitVec 4) (cond : Cond) (op : Operand) (s : State) : Host.Outcome State Fault Refusal :=
  conclude (encode (.cmpu r cond op)) s
    (resultOf (encode (.cmpu r cond op)) r op (fun a b => truthWord (compareUnsigned cond a b)) s)

end Sys2Proof.Machine
end

