-- ==== Sys2Proof/Machine/Immediate.lean ====
section
/-! DEFINITION. The immediate instructions LDIL, ADDIL, LDO and LSID (41_immediate.md): no flag, no trap, no memory (R240). -/

namespace Sys2Proof.Machine

/-- LDIL (41_immediate.md R230): `GR[r] <- val << 10`. -/
def execLdil (r : BitVec 4) (val : BitVec 22) (s : State) : Host.Outcome State Fault Refusal :=
  conclude (encode (.ldil r val)) s (done (s.writeGr r (leftImm val)).advance)

/-- ADDIL (41_immediate.md R231): `GR[1] <- GR[r] + (val << 10)`. -/
def execAddil (r : BitVec 4) (val : BitVec 22) (s : State) : Host.Outcome State Fault Refusal :=
  conclude (encode (.addil r val)) s (done (s.writeGr 1 (s.readGr r + leftImm val)).advance)

/-- LDO (41_immediate.md R233): `GR[r] <- GR[b] + imm_18(ofs)`. -/
def execLdo (r : BitVec 4) (ofs : BitVec 18) (b : BitVec 4) (s : State) : Host.Outcome State Fault Refusal :=
  conclude (encode (.ldo r ofs b)) s (done (s.writeGr r (s.readGr b + imm ofs)).advance)

/-- LSID (41_immediate.md R236): `GR[r] <- zext_16(SR[segSelect(GR[b])])`. -/
def execLsid (r b : BitVec 4) (s : State) : Host.Outcome State Fault Refusal :=
  conclude (encode (.lsid r b)) s (done (s.writeGr r ((s.readSr (segSelect (s.readGr b))).setWidth 32)).advance)

end Sys2Proof.Machine
end

