-- ==== Sys2Proof/Machine/MemoryRef.lean ====
section
/-! DEFINITION. The memory reference instructions LD, ST, LDA, STA, LDR and STC (40_memory_reference.md). -/

namespace Sys2Proof.Machine

/-- The end of a load: the base update, which is ignored when the base is the target, then the loaded value (R203, R210). -/
def State.finishLoad (s : State) (r : BitVec 4) (optM : Bool) (disp : Disp) (b : BitVec 4) (v : Word) : State :=
  ((s.updateBase s (optM && b != r) disp b).writeGr r v).advance

/-- The end of a store that left state `t`: the base update (R206, R213). -/
def State.finishStore (s t : State) (optM : Bool) (disp : Disp) (b : BitVec 4) : State := (t.updateBase s optM disp b).advance

/-- LD (R203). -/
def execLd (r : BitVec 4) (optM : Bool) (seg : BitVec 2) (dw : Width) (disp : Disp) (b : BitVec 4) (s : State) :
    Host.Outcome State Fault Refusal :=
  conclude (encode (.ld r optM seg dw disp b)) s (do
    let n ← accessSize (encode (.ld r optM seg dw disp b)) dw
    let ofs := s.memOffset optM disp b
    let v ← dataRead (encode (.ld r optM seg dw disp b)) (s.dataSeg (segReg seg ofs)) ofs n s
    .ok ⟨s.finishLoad r optM disp b v.value, v.after, none⟩)

/-- ST (R206). -/
def execSt (r : BitVec 4) (optM : Bool) (seg : BitVec 2) (dw : Width) (disp : Disp) (b : BitVec 4) (s : State) :
    Host.Outcome State Fault Refusal :=
  conclude (encode (.st r optM seg dw disp b)) s (do
    let n ← accessSize (encode (.st r optM seg dw disp b)) dw
    let ofs := s.memOffset optM disp b
    let t ← dataWrite (encode (.st r optM seg dw disp b)) (s.dataSeg (segReg seg ofs)) ofs n (s.readGr r) s
    done (s.finishStore t optM disp b))

/-- The alignment test of an absolute access: segment 0, the physical address as offset (R214). -/
def absoluteAddress (instr : Word) (ofs : Word) : Except Stop PAddr := do
  trapIf (ofs.toNat % 4 != 0) (dataTrap .alignment instr 0 ofs)
  .ok (ofs.setWidth 34)

/-- LDA (R210). -/
def execLda (r : BitVec 4) (optM : Bool) (disp : Disp) (b : BitVec 4) (s : State) : Host.Outcome State Fault Refusal :=
  conclude (encode (.lda r optM disp b)) s (do
    needPrivilege (encode (.lda r optM disp b)) s
    let pa ← absoluteAddress (encode (.lda r optM disp b)) (s.memOffset optM disp b)
    let v ← physRead s pa .word
    done (s.finishLoad r optM disp b v))

/-- STA (R213). -/
def execSta (r : BitVec 4) (optM : Bool) (disp : Disp) (b : BitVec 4) (s : State) : Host.Outcome State Fault Refusal :=
  conclude (encode (.sta r optM disp b)) s (do
    needPrivilege (encode (.sta r optM disp b)) s
    let pa ← absoluteAddress (encode (.sta r optM disp b)) (s.memOffset optM disp b)
    let t ← physWrite s pa .word (s.readGr r)
    done (s.finishStore t optM disp b))

/-- A reservation on the word at `pa` (R221). -/
def State.reserve (s : State) (pa : PAddr) : State := { s with lrValid := true, lrAddr := pa }

/-- `lrValid <- 0` (R222). -/
def State.dropReservation (s : State) : State := { s with lrValid := false }

/-- LDR (R221). -/
def execLdr (r : BitVec 4) (seg : BitVec 2) (ofs : BitVec 12) (b : BitVec 4) (s : State) : Host.Outcome State Fault Refusal :=
  conclude (encode (.ldr r seg ofs b)) s (do
    let tmp := s.readGr b + imm ofs
    let v ← dataRead (encode (.ldr r seg ofs b)) (s.dataSeg (segReg seg tmp)) tmp .word s
    .ok ⟨((s.writeGr r v.value).reserve v.pa).advance, v.after, none⟩)

/-- STC (R222): without a reservation no address is formed; at another address nothing is stored. -/
def execStc (r : BitVec 4) (seg : BitVec 2) (ofs : BitVec 12) (b : BitVec 4) (s : State) : Host.Outcome State Fault Refusal :=
  conclude (encode (.stc r seg ofs b)) s
    (if s.lrValid then do
      let tmp := s.readGr b + imm ofs
      let t ← dataAddress (encode (.stc r seg ofs b)) true (s.dataSeg (segReg seg tmp)) tmp .word s
      if t.pa == s.lrAddr then do
        let u ← physWrite s t.pa .word (s.readGr r)
        done ((u.writeGr r 0).dropReservation).advance
      else done ((s.writeGr r 1).dropReservation).advance
     else done ((s.writeGr r 1).dropReservation).advance)

end Sys2Proof.Machine
end

