-- ==== Sys2Proof/Machine/System.lean ====
section
/-! DEFINITION. The system control instructions MR, MST, LDPA, PRB, ITLB, PTLB, PCA, DIAG, RFI and BRK (45_system_control.md). -/

namespace Sys2Proof.Machine

/-- MR to this register needs privileged mode: SR5..SR7 and every control register but CR2 (R361, R362). -/
def mrPrivileged (optM : Bool) (num : BitVec 6) : Bool :=
  if optM then (num.setWidth 5 : BitVec 5) != 2 else decide (5 ≤ (num.setWidth 3 : BitVec 3).toNat)

/-- `GR[r]` to segment or control register `num` (R361). -/
def State.moveTo (s : State) (r : BitVec 4) (optM : Bool) (num : BitVec 6) : State :=
  if optM then s.writeCr (num.setWidth 5) (s.readGr r) else s.writeSr (num.setWidth 3) ((s.readGr r).setWidth 16)

/-- Segment or control register `num` to `GR[r]` (R361). -/
def State.moveFrom (s : State) (r : BitVec 4) (optM : Bool) (num : BitVec 6) : State :=
  s.writeGr r (if optM then s.readCr (num.setWidth 5) else (s.readSr (num.setWidth 3)).setWidth 32)

/-- MR (R361, R362). -/
def execMr (r : BitVec 4) (optD optM : Bool) (num : BitVec 6) (s : State) : Host.Outcome State Fault Refusal :=
  conclude (encode (.mr r optD optM num)) s (do
    needOrRefuse (!(optM && reservedCr (num.setWidth 5))) .reservedControlRegister
    if optD then do
      trapIf (mrPrivileged optM num && s.pswX) (instrTrap Config.mrPrivTrap (encode (.mr r optD optM num)))
      done (s.moveTo r optM num).advance
    else done (s.moveFrom r optM num).advance)

/-- The new Z, D, P, E bits of MST; none for mode 3 (R366). -/
def State.newMask (s : State) (mode : MstMode) (b : BitVec 4) : Option (BitVec 4) :=
  match mode with
  | .write => some (field (s.readGr b) 28 4)
  | .set => some (s.mask ||| b)
  | .clear => some (s.mask &&& ~~~b)
  | .undefined => none

/-- MST (R366): privilege is tested before the mode. -/
def execMst (r : BitVec 4) (mode : MstMode) (b : BitVec 4) (s : State) : Host.Outcome State Fault Refusal :=
  conclude (encode (.mst r mode b)) s (do
    needPrivilege (encode (.mst r mode b)) s
    match s.newMask mode b with
    | none => .error (.trap (instrTrap .illegalInstruction (encode (.mst r mode b))))
    | some m => done ((s.writeGr r (s.mask.setWidth 32)).setMask m).advance)

/-- The data TLB entry for an offset under a `seg` field, whatever PSW.D is. -/
def State.dataEntry (s : State) (seg : BitVec 2) (ofs : Word) : Option TlbEntry :=
  tlbLookup s.dtlb (s.readSr (segReg seg ofs)) (pageOf ofs)

/-- The instruction TLB entry for an offset under a `seg` field, whatever PSW.C is. -/
def State.instrEntry (s : State) (seg : BitVec 2) (ofs : Word) : Option TlbEntry :=
  tlbLookup s.itlb (s.readSr (segReg seg ofs)) (pageOf ofs)

/-- The entry, or the non-access miss trap `id` (20_memory.md R111). -/
def needEntry (e : Option TlbEntry) (id : TrapId) : Except Stop TlbEntry :=
  match e with
  | some e => .ok e
  | none => .error (.trap (bareTrap id))

/-- LDPA (R370). -/
def execLdpa (r : BitVec 4) (seg : BitVec 2) (a b : BitVec 4) (s : State) : Host.Outcome State Fault Refusal :=
  conclude (encode (.ldpa r seg a b)) s (do
    needPrivilege (encode (.ldpa r seg a b)) s
    let ofs := s.readGr b + s.readGr a
    if s.pswD then do
      let e ← needEntry (s.dataEntry seg ofs) .nonAccessDataTlbMiss
      done (s.writeGr r ((e.physical ofs).setWidth 32)).advance
    else done (s.writeGr r ofs).advance)

/-- The level PRB tests: bit 27 of the instruction, the low bit of field `a`, or the low bit of `GR[a]` (R372). -/
def State.probeLevel (s : State) (optI : Bool) (a : BitVec 4) : Bool := if optI then a.getLsbD 0 else flag (s.readGr a) 31

/-- PRB (R372, R373). -/
def execPrb (r : BitVec 4) (optW optI : Bool) (seg : BitVec 2) (a b : BitVec 4) (s : State) : Host.Outcome State Fault Refusal :=
  conclude (encode (.prb r optW optI seg a b)) s (do
    let ofs := s.readGr b
    let lvl := s.probeLevel optI a
    let e ← needEntry (s.dataEntry seg ofs) .nonAccessDataTlbMiss
    let ok := (if optW then writeAllowed e.rights lvl else readAllowed e.rights lvl) &&
      !s.pidRefuses e (s.readSr (segReg seg ofs))
    done (s.writeGr r (truthWord ok)).advance)

/-- The entry maps a page of segment 0 to another physical page than its own number (20_memory.md R98). -/
def TlbEntry.breaksSegmentZero (e : TlbEntry) : Bool := e.seg == 0 && effectivePpn e.ppn != e.page.setWidth 20

/-- ITLB (R375, R376). -/
def execItlb (r : BitVec 4) (optT : Bool) (a b : BitVec 4) (s : State) : Host.Outcome State Fault Refusal :=
  conclude (encode (.itlb r optT a b)) s (do
    needPrivilege (encode (.itlb r optT a b)) s
    needOrRefuse (decide (a.toNat < 8)) .noSegmentRegister
    let e := entryOfWord (s.readGr r) (s.readSr (a.setWidth 3)) (pageOf (s.readGr b))
    needOrRefuse (!e.breaksSegmentZero) .segmentZeroMapping
    done (s.insertTlb optT e).advance)

/-- PTLB (R380). -/
def execPtlb (optT optM : Bool) (seg : BitVec 2) (a b : BitVec 4) (s : State) : Host.Outcome State Fault Refusal :=
  conclude (encode (.ptlb optT optM seg a b)) s (do
    needPrivilege (encode (.ptlb optT optM seg a b)) s
    let ofs := s.memOffset optM (.reg a) b
    done ((s.purgeTlb optT (s.readSr (segReg seg ofs)) (pageOf ofs)).updateBase s optM (.reg a) b).advance)

/-- The physical address of the line PCA names, by the TLB of the cache it addresses (R385, 20_memory.md R126). -/
def cacheAddress (optT : Bool) (seg : BitVec 2) (ofs : Word) (s : State) : Except Stop PAddr :=
  if optT then
    if s.pswD then do
      let e ← needEntry (s.dataEntry seg ofs) .nonAccessDataTlbMiss
      .ok (e.physical ofs)
    else .ok (ofs.setWidth 34)
  else if s.pswC then do
    let e ← needEntry (s.instrEntry seg ofs) .nonAccessInstrTlbMiss
    .ok (e.physical ofs)
  else .ok (ofs.setWidth 34)

/-- What PCA does to the line (R385, 20_memory.md R123): F has no meaning for the instruction cache. -/
def State.purgeCache (s : State) (optT optF : Bool) (pa : PAddr) : State :=
  if optT then (if optF then s.flushDataLine pa else s.purgeDataLine pa) else s.purgeInstrLine pa

/-- PCA (R385, R386). -/
def execPca (optT optM : Bool) (seg : BitVec 2) (optF : Bool) (a b : BitVec 4) (s : State) : Host.Outcome State Fault Refusal :=
  conclude (encode (.pca optT optM seg optF a b)) s (do
    needPrivilege (encode (.pca optT optM seg optF a b)) s
    let pa ← cacheAddress optT seg (s.memOffset optM (.reg a) b) s
    done ((s.purgeCache optT optF pa).updateBase s optM (.reg a) b).advance)

/-- DIAG (R396): the result is the implementation's `DIAG_FN`, log 26. -/
def execDiag (r info a b : BitVec 4) (s : State) : Host.Outcome State Fault Refusal :=
  conclude (encode (.diag r info a b)) s (do
    needPrivilege (encode (.diag r info a b)) s
    done (s.writeGr r (Config.diagFn info (s.readGr a) (s.readGr b))).advance)

/-- RFI (R398). -/
def execRfi (s : State) : Host.Outcome State Fault Refusal :=
  conclude (encode .rfi) s (do
    needPrivilege (encode .rfi) s
    done s.returnFromTrap)

/-- BRK (R400): `BRK 0, 0` is a no-operation. -/
def execBrk (info1 : BitVec 4) (info2 : BitVec 16) (s : State) : Host.Outcome State Fault Refusal :=
  conclude (encode (.brk info1 info2)) s
    (if info1 == 0 && info2 == 0 then done s.advance
     else .error (.trap (instrTrap .breakInstruction (encode (.brk info1 info2)))))

end Sys2Proof.Machine
end

