-- ==== Sys2Proof/Machine/Dispatch.lean ====
section
/-! DEFINITION. Execution of one decoded instruction: one arm for each constructor of Instr, one direct call each. -/

namespace Sys2Proof.Machine

def exec (i : Instr) (s : State) : Host.Outcome State Fault Refusal :=
  match i with
  | .brk info1 info2 => Sys2Proof.Machine.execBrk info1 info2 s
  | .ldil r val => Sys2Proof.Machine.execLdil r val s
  | .addil r val => Sys2Proof.Machine.execAddil r val s
  | .ldo r ofs b => Sys2Proof.Machine.execLdo r ofs b s
  | .lsid r b => Sys2Proof.Machine.execLsid r b s
  | .extr r optS optA len pos b => Sys2Proof.Machine.execExtr r optS optA len pos b s
  | .dep r optZ optA optI len pos b => Sys2Proof.Machine.execDep r optZ optA optI len pos b s
  | .dsr r optA shamt a b => Sys2Proof.Machine.execDsr r optA shamt a b s
  | .shla r optL optO sa a b => Sys2Proof.Machine.execShla r optL optO sa a b s
  | .cmr r cond a b => Sys2Proof.Machine.execCmr r cond a b s
  | .mr r optD optM num => Sys2Proof.Machine.execMr r optD optM num s
  | .mst r mode b => Sys2Proof.Machine.execMst r mode b s
  | .ds r a b => Sys2Proof.Machine.execDs r a b s
  | .add r optL optO op => Sys2Proof.Machine.execAdd r optL optO op s
  | .adc r optL optO op => Sys2Proof.Machine.execAdc r optL optO op s
  | .sub r optL optO op => Sys2Proof.Machine.execSub r optL optO op s
  | .sbc r optL optO op => Sys2Proof.Machine.execSbc r optL optO op s
  | .and r optN optC op => Sys2Proof.Machine.execAnd r optN optC op s
  | .or r optN optC op => Sys2Proof.Machine.execOr r optN optC op s
  | .xor r optN op => Sys2Proof.Machine.execXor r optN op s
  | .cmp r cond op => Sys2Proof.Machine.execCmp r cond op s
  | .cmpu r cond op => Sys2Proof.Machine.execCmpu r cond op s
  | .b r ofs => Sys2Proof.Machine.execB r ofs s
  | .gate r ofs => Sys2Proof.Machine.execGate r ofs s
  | .br r b => Sys2Proof.Machine.execBr r b s
  | .bv r b => Sys2Proof.Machine.execBv r b s
  | .be r ofs a b => Sys2Proof.Machine.execBe r ofs a b s
  | .bve r a b => Sys2Proof.Machine.execBve r a b s
  | .cbr cond ofs a b => Sys2Proof.Machine.execCbr cond ofs a b s
  | .cbru cond ofs a b => Sys2Proof.Machine.execCbru cond ofs a b s
  | .ld r optM seg dw disp b => Sys2Proof.Machine.execLd r optM seg dw disp b s
  | .st r optM seg dw disp b => Sys2Proof.Machine.execSt r optM seg dw disp b s
  | .lda r optM disp b => Sys2Proof.Machine.execLda r optM disp b s
  | .sta r optM disp b => Sys2Proof.Machine.execSta r optM disp b s
  | .ldr r seg ofs b => Sys2Proof.Machine.execLdr r seg ofs b s
  | .stc r seg ofs b => Sys2Proof.Machine.execStc r seg ofs b s
  | .ldpa r seg a b => Sys2Proof.Machine.execLdpa r seg a b s
  | .prb r optW optI seg a b => Sys2Proof.Machine.execPrb r optW optI seg a b s
  | .itlb r optT a b => Sys2Proof.Machine.execItlb r optT a b s
  | .ptlb optT optM seg a b => Sys2Proof.Machine.execPtlb optT optM seg a b s
  | .pca optT optM seg optF a b => Sys2Proof.Machine.execPca optT optM seg optF a b s
  | .diag r info a b => Sys2Proof.Machine.execDiag r info a b s
  | .rfi => Sys2Proof.Machine.execRfi s

end Sys2Proof.Machine
end

