-- ==== Sys2Proof/Machine/Run.lean ====
section
/-! DEFINITION. What one step does (00_scope.md R8, 60_exceptions.md R453, R460): an asynchronous event is taken, or an instruction
is fetched, decoded and executed; and what a run of steps is, with the ways it ends (70_reset_and_hazards.md R503, R520). -/

namespace Sys2Proof.Machine

/-- A fetched word is decoded and executed in the state the fetch left (30_encoding.md R166). -/
def runWord (w : Word) (s : State) : Host.Outcome State Fault Refusal :=
  match decode w with
  | .ok i => exec i s
  | .error e => rejected s w e

/-- Fetch and execution of one instruction. -/
def runNext (s : State) : Host.Outcome State Fault Refusal :=
  match fetch s with
  | .ok (w, t) => runWord w t
  | .error r => fetchStopped s r

/-- A state without meaning is refused (log 14, log 15), a pending event is taken, else an instruction runs (R453, R460). -/
def runStep (s : State) : Host.Outcome State Fault Refusal :=
  match s.noMeaning with
  | some r => .refused r
  | none =>
    match s.sampleEvent with
    | some (t, u) => .next (u.takeTrap t)
    | none => runNext s

/-! ### Runs -/

/-- How a run ends (70_reset_and_hazards.md R520). -/
inductive RunEnd where
  /-- The number of steps the caller fixed are done. -/
  | stepBound
  /-- A state that a step leaves as it is, with no event to come. -/
  | fixedPoint
  /-- HALT_CONDITION. -/
  | halted
  | fault (f : Fault)
  | refused (r : Refusal)
deriving DecidableEq, Repr

/-- The host ends the run before the next instruction: HALT_CONDITION holds of its word (70_reset_and_hazards.md R520, log 40). -/
def State.hostHalts (s : State) : Bool :=
  match Config.haltCondition with
  | none => false
  | some ends =>
    s.noMeaning.isNone && s.sampleEvent.isNone &&
      (match fetch s with
       | .ok (w, _) => ends w
       | .error _ => false)

/-- A run (70_reset_and_hazards.md R503, R520): before each step the events of its list are delivered; the output is how the run ended
and the final state. -/
def runFrom : List (List Event) → State → RunEnd × State
  | [], s => (.stepBound, s)
  | events :: later, s =>
    let t := events.foldl State.deliver s
    if t.hostHalts then (.halted, t)
    else
      match runStep t with
      | .next u => if u = t ∧ later.all List.isEmpty = true then (.fixedPoint, t) else runFrom later u
      | .fault f => (.fault f, t)
      | .refused r => (.refused r, t)

end Sys2Proof.Machine
end

