-- ==== Sys2Proof/Machine/Step.lean ====
section
/-! DEFINITION. The step function of the host's interface. -/

namespace Sys2Proof.Machine

/-- One step (60_exceptions.md R453, R460). -/
def step (s : State) : Host.Outcome State Fault Refusal := runStep s

/-- `s` with the instruction whose bits are `w` stored where the next fetch reads (log 36). -/
def State.withFetchWord (s : State) (nbits w : Nat) : State := s.placeWord s.fetchPlace (BitVec.ofNat 32 (w % 2 ^ nbits))

end Sys2Proof.Machine
end

