-- ==== Sys2Proof/Safety.lean ====
section
/-! DEFINITION. The terms the statements use: the invariant of every state, what an instruction leaves unchanged, when a data access
is performed and what it reads or stores, and what taking a trap does. Each is written from the spec's rules and mentions no meaning
of an instruction. -/

namespace Sys2Proof.Machine

/-! ### The invariant -/

/-- A TLB holds at most `capacity` entries, all valid, at most one for a virtual page (20_memory.md R110, R114), and maps segment 0
to the physical address of the same offset (R98). -/
structure TlbWf (capacity : Nat) (tlb : List TlbEntry) : Prop where
  size : tlb.length ≤ capacity
  valid : ∀ e ∈ tlb, e.valid = true
  unique : (tlb.map (fun e => (e.seg, e.page))).Nodup
  segmentZero : ∀ e ∈ tlb, e.seg = 0 → effectivePpn e.ppn = e.page.setWidth 20

/-- What holds in every state a run reaches. -/
structure State.Inv (s : State) : Prop where
  /-- Memory keeps its canonical form. -/
  memory : Memory.wf s.mem = true
  /-- Register zero holds zero (10_state.md R21). -/
  gr0 : s.gr[0] = 0
  /-- "The lower two bits are zero, as instruction words are always word aligned in memory" (10_state.md R31). -/
  address : alignOfs s.psw1 = s.psw1
  /-- "bits 0..26 of CR2 read as zero" (10_state.md R49). -/
  shamt : (s.readCr 2).toNat < 32
  itlb : TlbWf Config.itlbEntries s.itlb
  dtlb : TlbWf Config.dtlbEntries s.dtlb
  /-- A reservation is on a word (40_memory_reference.md R221). -/
  reservation : s.lrValid = true → s.lrAddr.toNat % 4 = 0
  /-- The cache histories are of aligned words (log 11). -/
  instrHistory : ∀ o ∈ s.iOld, o.addr % 4 = 0
  dataHistory : ∀ o ∈ s.dOld, o.addr % 4 = 0

/-! ### Frames -/

/-- The parts of the machine a program can change, registers, status bits and bytes each on its own. -/
inductive Part where
  | gr (n : BitVec 4)
  | sr (n : BitVec 3)
  | cr (n : BitVec 5)
  /-- Bit `n` of PSW-0 in the manual's numbering; bits 16 to 31 are PSW.seg. -/
  | psw0 (n : Fin 32)
  | psw1
  /-- The byte at a physical address. -/
  | mem (a : Nat)
  | itlb
  | dtlb
  | instrCache
  | dataCache
  | reservation
  | pending
  /-- The count of free values taken. -/
  | freeValues
deriving DecidableEq, Repr

/-- The part is the same in both states. -/
def samePart (s t : State) : Part → Prop
  | .gr n => t.readGr n = s.readGr n
  | .sr n => t.readSr n = s.readSr n
  | .cr n => t.readCr n = s.readCr n
  | .psw0 n => flag t.psw0 n.val = flag s.psw0 n.val
  | .psw1 => t.psw1 = s.psw1
  | .mem a => memByte t.mem a = memByte s.mem a
  | .itlb => t.itlb = s.itlb
  | .dtlb => t.dtlb = s.dtlb
  | .instrCache => t.iOld = s.iOld
  | .dataCache => t.dOld = s.dOld
  | .reservation => t.lrValid = s.lrValid ∧ t.lrAddr = s.lrAddr
  | .pending => t.machineCheck = s.machineCheck ∧ t.powerFail = s.powerFail ∧ t.extPending = s.extPending
  | .freeValues => t.freeCount = s.freeCount

/-- Every part is unchanged from `s` to `t` but those that `changed` names and the instruction offset PSW-1. -/
def Keeps (changed : Part → Prop) (s t : State) : Prop := ∀ p, ¬ changed p → p ≠ .psw1 → samePart s t p

/-- The general register `r`, as a part. -/
def isGr (r : BitVec 4) (p : Part) : Prop := p = .gr r

/-- PSW-0 bits `i` to `j` of the manual's numbering. -/
def isPsw0 (i j : Nat) (p : Part) : Prop := ∃ n : Fin 32, i ≤ n.val ∧ n.val ≤ j ∧ p = .psw0 n

/-- What register `r` reads after `v` was written to it: `v`, or zero for register zero (10_state.md R21). -/
def written (r : BitVec 4) (v : Word) : Word := if r = 0 then 0 else v

/-! ### Data accesses -/

/-- A data TLB entry lets an access through: rights, protection id, page reference (20_memory.md R100, R101), and the D and B flags,
whose traps are not set (R108). -/
structure Permits (s : State) (write : Bool) (seg : SegId) (e : TlbEntry) : Prop where
  rights : (if write then writeAllowed e.rights s.pswX else readAllowed e.rights s.pswX) = true
  pid : s.pidRefuses e seg = false
  refTrap : e.refTrap = false
  dirtyTrap : write = true → e.dirtyTrap = false
  dataTrap : e.dataTrap = false

/-- The data access `seg.ofs` of width `n` goes to physical address `pa`, all checks of 20_memory.md R100 and R101 passed (R73, R95). -/
structure Reaches (s : State) (write : Bool) (seg : SegId) (ofs : Word) (n : Size) (pa : PAddr) : Prop where
  aligned : ofs.toNat % n.bytes = 0
  physical : s.pswD = false → pa = ofs.setWidth 34
  mapped : s.pswD = true → ∃ e, tlbLookup s.dtlb seg (pageOf ofs) = some e ∧ Permits s write seg e ∧ pa = e.physical ofs

/-- The `n` bytes at `a` are the rightmost bytes of `v`, the most significant first, and the rest of `v` is zero (20_memory.md R72). -/
def Holds (m : Memory) (a : Nat) (n : Size) (v : Word) : Prop :=
  (∀ k < n.bytes, memByte m (a + k) = some (byteOf v (4 - n.bytes + k))) ∧ v.toNat < 2 ^ (8 * n.bytes)

/-- The address is one of the `n` bytes at `a`. -/
def inStore (a : Nat) (n : Size) (x : Nat) : Prop := a ≤ x ∧ x < a + n.bytes

/-- After a store of `v` of width `n` at `pa` the bytes are there, and the cache histories know the word they lie in (20_memory.md R72,
R123). -/
structure Stored (s t : State) (pa : PAddr) (n : Size) (v : Word) : Prop where
  bytes : ∀ k < n.bytes, memByte t.mem (pa.toNat + k) = some (byteOf v (4 - n.bytes + k))
  others : ∀ a, ¬ inStore pa.toNat n a → memByte t.mem a = memByte s.mem a
  instrCache : t.iOld = if cached pa then oldWordAt s.mem (wordAddr pa).toNat :: s.iOld else s.iOld
  dataCache : t.dOld = if cached pa then oldWordAt s.mem (wordAddr pa).toNat :: s.dOld else s.dOld

/-- The data value at `seg.ofs` is `v`, read from physical address `pa` with every check passed (20_memory.md R100). -/
structure Reads (s : State) (seg : SegId) (ofs : Word) (n : Size) (pa : PAddr) (v : Word) : Prop where
  reaches : Reaches s false seg ofs n pa
  memory : region pa = .memory
  holds : Holds s.mem pa.toNat n v

/-- A store goes to `seg.ofs`, physical address `pa`, with every check passed (20_memory.md R101). -/
structure Writes (s : State) (seg : SegId) (ofs : Word) (n : Size) (pa : PAddr) : Prop where
  reaches : Reaches s true seg ofs n pa
  memory : region pa = .memory

/-- The size an access width names; none for the reserved one (20_memory.md R70, R76). -/
def widthSize : Width → Option Size
  | .byte => some .byte
  | .half => some .half
  | .word => some .word
  | .double => none

/-- The offset of a memory operand (43_computational_operand.md R290, modes 2 and 3). -/
def State.operandOffset (s : State) : Operand → Option (Width × Word)
  | .imm _ => none
  | .reg _ _ => none
  | .indexed dw a b => some (dw, s.readGr b + s.readGr a)
  | .disp dw ofs b => some (dw, s.readGr b + imm ofs)

/-- A memory operand at `ofs` of width `dw` reads `v`; its segment register is one of SR4..SR7 by the offset (R290). -/
def MemOperandIs (s : State) (dw : Width) (ofs : Word) (v : Word) : Prop :=
  ∃ n pa, widthSize dw = some n ∧ Reads s (s.dataSeg (segSelect ofs)) ofs n pa v

/-- The operands of an operand-format instruction with result register `r` are `x` and `y` (43_computational_operand.md R290). -/
def OperandsAre (s : State) (r : BitVec 4) (op : Operand) (x y : Word) : Prop :=
  match op with
  | .imm val => x = s.readGr r ∧ y = imm val
  | .reg a b => x = s.readGr a ∧ y = s.readGr b
  | .indexed dw a b => x = s.readGr r ∧ MemOperandIs s dw (s.readGr b + s.readGr a) y
  | .disp dw ofs b => x = s.readGr r ∧ MemOperandIs s dw (s.readGr b + imm ofs) y

/-! ### Outcomes -/

/-- The next state `t` of an instruction that does not branch: only what `changed` names differs, and the next instruction follows
(10_state.md R32). -/
def Ends (changed : Part → Prop) (s t : State) : Prop := Keeps changed s t ∧ t.psw1 = alignOfs (s.psw1 + 4)

/-- The parts trap entry writes beside PSW-1: PSW-0 and CR17 to CR21 (60_exceptions.md R450); a parameter the trap table does not give
is a free value (R451). -/
def isTrapPart (p : Part) : Prop := isPsw0 0 31 p ∨ (∃ n : BitVec 5, 17 ≤ n.toNat ∧ n.toNat ≤ 21 ∧ p = .cr n) ∨ p = .freeValues

/-- `t` is `s` after trap entry with number `id` and parameters `p0`, `p1`, `p2`, `none` for a "-" (60_exceptions.md R450). The handler's
address has its two low bits dropped, as every write of PSW-1 (10_state.md R31, logs 6 and 39). -/
structure TrapEntered (s t : State) (id : Nat) (p0 p1 p2 : Option Word) : Prop where
  savedStatus : t.readCr 17 = s.psw0
  savedOffset : t.readCr 18 = s.psw1
  parm0 : ∀ v, p0 = some v → t.readCr 19 = v
  parm1 : ∀ v, p1 = some v → t.readCr 20 = v
  parm2 : ∀ v, p2 = some v → t.readCr 21 = v
  status : t.psw0 = 0
  handler : t.psw1 = alignOfs (s.readCr 16 + BitVec.ofNat 32 (32 * id))
  frame : Keeps isTrapPart s t

/-- The instruction `i` executed in `s` is abandoned by trap `id` with these parameters (60_exceptions.md R450, R452). -/
def Traps (o : Host.Outcome State Fault Refusal) (s : State) (id : Nat) (p0 p1 p2 : Option Word) : Prop :=
  ∃ t, o = .next t ∧ TrapEntered s t id p0 p1 p2

/-! ### Instructions and the accesses they make -/

/-- The one data access of a memory operand: a read at the operand's offset (43_computational_operand.md R290). -/
def operandAccess (s : State) (op : Operand) : Option (Bool × SegId × Word × Size) :=
  match s.operandOffset op with
  | none => none
  | some (dw, ofs) => (widthSize dw).map (fun n => (false, s.dataSeg (segSelect ofs), ofs, n))

/-- The data access through `DataRead` or `DataWrite` that an instruction makes: written or read, segment id, offset and width
(60_exceptions.md R447, rows 12 and 14 to 17). -/
def accessOf (s : State) : Instr → Option (Bool × SegId × Word × Size)
  | .ld _ optM seg dw disp b =>
      (widthSize dw).map (fun n => (false, s.dataSeg (segReg seg (s.memOffset optM disp b)), s.memOffset optM disp b, n))
  | .st _ optM seg dw disp b =>
      (widthSize dw).map (fun n => (true, s.dataSeg (segReg seg (s.memOffset optM disp b)), s.memOffset optM disp b, n))
  | .ldr _ seg ofs b => some (false, s.dataSeg (segReg seg (s.readGr b + imm ofs)), s.readGr b + imm ofs, .word)
  | .stc _ seg ofs b =>
      if s.lrValid then some (true, s.dataSeg (segReg seg (s.readGr b + imm ofs)), s.readGr b + imm ofs, .word) else none
  | .add _ _ _ op | .adc _ _ _ op | .sub _ _ _ op | .sbc _ _ _ op | .xor _ _ op | .cmp _ _ op | .cmpu _ _ op => operandAccess s op
  | .and _ optN optC op | .or _ optN optC op => if optN && optC then none else operandAccess s op
  | .brk .. | .ldil .. | .addil .. | .ldo .. | .lsid .. | .extr .. | .dep .. | .dsr .. | .shla .. | .cmr .. | .mr .. | .mst .. | .ds ..
  | .b .. | .gate .. | .br .. | .bv .. | .be .. | .bve .. | .cbr .. | .cbru .. | .lda .. | .sta ..
  | .ldpa .. | .prb .. | .itlb .. | .ptlb .. | .pca .. | .diag .. | .rfi => none

/-- The width of a memory operand; none for a register or immediate operand. -/
def operandWidth : Operand → Option Width
  | .imm _ => none
  | .reg _ _ => none
  | .indexed dw _ _ => some dw
  | .disp dw _ _ => some dw

/-- The instruction names the reserved access width `dw` = 3 (60_exceptions.md R447, second row; 20_memory.md R76). -/
def namesReservedWidth : Instr → Bool
  | .ld _ _ _ dw _ _ | .st _ _ _ dw _ _ => dw == .double
  | .add _ _ _ op | .adc _ _ _ op | .sub _ _ _ op | .sbc _ _ _ op | .xor _ _ op | .cmp _ _ op | .cmpu _ _ op =>
      operandWidth op == some .double
  | .and _ optN optC op | .or _ optN optC op => operandWidth op == some .double && !(optN && optC)
  | .brk .. | .ldil .. | .addil .. | .ldo .. | .lsid .. | .extr .. | .dep .. | .dsr .. | .shla .. | .cmr .. | .mr .. | .mst .. | .ds ..
  | .b .. | .gate .. | .br .. | .bv .. | .be .. | .bve .. | .cbr .. | .cbru .. | .lda .. | .sta .. | .ldr .. | .stc ..
  | .ldpa .. | .prb .. | .itlb .. | .ptlb .. | .pca .. | .diag .. | .rfi => false

/-- The instructions that are always privileged (45_system_control.md R360). -/
def alwaysPrivileged : Instr → Bool
  | .lda .. | .sta .. | .mst .. | .ldpa .. | .itlb .. | .ptlb .. | .pca .. | .diag .. | .rfi => true
  | .brk .. | .ldil .. | .addil .. | .ldo .. | .lsid .. | .extr .. | .dep .. | .dsr .. | .shla .. | .cmr .. | .mr .. | .ds ..
  | .add .. | .adc .. | .sub .. | .sbc .. | .and .. | .or .. | .xor .. | .cmp .. | .cmpu ..
  | .b .. | .gate .. | .br .. | .bv .. | .be .. | .bve .. | .cbr .. | .cbru .. | .ld .. | .st .. | .ldr .. | .stc .. | .prb .. => false

/-- The instructions that may change memory: the stores, and a data-cache purge without flush (20_memory.md R123 c). -/
def mayChangeMemory : Instr → Bool
  | .st .. | .sta .. | .stc .. => true
  | .pca optT _ _ optF _ _ => optT && !optF
  | .brk .. | .ldil .. | .addil .. | .ldo .. | .lsid .. | .extr .. | .dep .. | .dsr .. | .shla .. | .cmr .. | .mr .. | .mst .. | .ds ..
  | .add .. | .adc .. | .sub .. | .sbc .. | .and .. | .or .. | .xor .. | .cmp .. | .cmpu ..
  | .b .. | .gate .. | .br .. | .bv .. | .be .. | .bve .. | .cbr .. | .cbru .. | .ld .. | .lda .. | .ldr ..
  | .ldpa .. | .prb .. | .itlb .. | .ptlb .. | .diag .. | .rfi => false

/-- The instructions that write the carry/borrow bit as their result (43_computational_operand.md R297). -/
def writesCarry : Instr → Bool
  | .add _ optL _ _ | .adc _ optL _ _ => !optL
  | .sub .. | .sbc .. => true
  | .brk .. | .ldil .. | .addil .. | .ldo .. | .lsid .. | .extr .. | .dep .. | .dsr .. | .shla .. | .cmr .. | .mr .. | .mst .. | .ds ..
  | .and .. | .or .. | .xor .. | .cmp .. | .cmpu ..
  | .b .. | .gate .. | .br .. | .bv .. | .be .. | .bve .. | .cbr .. | .cbru .. | .ld .. | .st .. | .lda .. | .sta .. | .ldr .. | .stc ..
  | .ldpa .. | .prb .. | .itlb .. | .ptlb .. | .pca .. | .diag .. | .rfi => false

/-- What only privileged code may change (60_exceptions.md R481, 45_system_control.md R360, R361): SR5 to SR7, the control registers
but CR2, PSW-0 bits 0 to 15 but X and CB, the TLBs, the pending events. -/
def Protected (p : Part) : Prop :=
  (∃ n : BitVec 3, 5 ≤ n.toNat ∧ p = .sr n) ∨ (∃ n : BitVec 5, n ≠ 2 ∧ p = .cr n) ∨
  (∃ j : Fin 32, j.val < 16 ∧ j.val ≠ 1 ∧ j.val ≠ 5 ∧ p = .psw0 j) ∨ p = .itlb ∨ p = .dtlb ∨ p = .pending

/-! ### Arithmetic on exact integers -/

/-- The integer a word stands for: unsigned under option L, signed without (43_computational_operand.md R295). -/
def exactValue (optL : Bool) (x : Word) : Int := if optL then x.toNat else x.toInt

/-- The exact result is in the range of its kind (43_computational_operand.md R295). -/
def Fits (optL : Bool) (z : Int) : Prop :=
  if optL then 0 ≤ z ∧ z ≤ 2 ^ 32 - 1 else -2 ^ 31 ≤ z ∧ z ≤ 2 ^ 31 - 1

/-- SHLA's two results are in range (44_computational_bitfield.md R339). -/
def ShlaFits (optL : Bool) (sa : BitVec 2) (x y : Word) : Prop :=
  Fits optL (exactValue optL x * 2 ^ sa.toNat) ∧
    Fits optL (exactValue optL (BitVec.ofNat 32 (x.toNat * 2 ^ sa.toNat)) + exactValue optL y)

/-- The condition of CMP and CBR on integers (43_computational_operand.md R305). -/
def CondHolds (cond : Cond) (a b : Int) : Prop :=
  match cond with
  | .eq => a = b
  | .lt => a < b
  | .ne => a ≠ b
  | .le => a ≤ b

/-- The condition of CMR on `GR[b]` (44_computational_bitfield.md R342); none for the codes 8 to 15. -/
def MoveCondHolds (cond : MoveCond) (b : Word) : Prop :=
  match cond with
  | .eq => b = 0
  | .lt => b.toInt < 0
  | .gt => 0 < b.toInt
  | .ev => b.toNat % 2 = 0
  | .ne => b ≠ 0
  | .le => b.toInt ≤ 0
  | .ge => 0 ≤ b.toInt
  | .od => b.toNat % 2 = 1
  | .undefined _ => False

/-! ### Steps -/

/-- An instruction is about to be fetched: no state without meaning (10_state.md R33, R40, R41), no event to take (60_exceptions.md
R453, R460). -/
structure Ready (s : State) : Prop where
  notNullified : s.pswN = false
  noCounter : s.pswR = false
  noSingleStep : s.pswZ = false
  noMachineCheck : s.pswM = true ∨ s.machineCheck = none
  noPowerFailure : s.powerFail = false
  noInterrupt : s.pswE = false ∨ s.extPending = false

/-- The fetch passes its checks, reads at `pa`, and the instruction executes in `t`: `s`, or `s` demoted to user level (20_memory.md
R96, R97). -/
structure Fetches (s : State) (pa : PAddr) (t : State) : Prop where
  plain : s.pswC = false → pa = s.psw1.setWidth 34 ∧ t = s
  mapped : s.pswC = true → ∃ e, tlbLookup s.itlb s.pswSeg (pageOf s.psw1) = some e ∧
    (e.rights.type = .execute ∨ e.rights.type = .gateway) ∧ s.pidRefuses e s.pswSeg = false ∧
    (s.pswX = true → e.rights.pl1 = true) ∧ pa = e.physical s.psw1 ∧
    t = (if e.rights.type = .execute ∧ s.pswX = false ∧ e.rights.pl2 = true then s.setX true else s)
  memory : region pa = .memory

end Sys2Proof.Machine
end

