-- ==== Sys2Proof/Certificates/Slice0/Obligations.lean ====
section
/-! DEFINITION. The statements for the provers. -/

open Sys2Proof Sys2Proof.Machine

/-! ### Encoding -/

/-- Decoding the encoding of a well-formed instruction gives it back, with every field at every value (30_encoding.md R142, R143,
R160). -/
def Obligations.DecodeEncodeRoundTrip : Prop :=
  ∀ i : Instr, i.wellFormed = true → decode (encode i) = .ok i

/-- A word that decodes is the encoding of the instruction it decodes to: no bit of it is dropped (R142, R163). -/
def Obligations.EncodeOfDecodeIsTheWord : Prop :=
  ∀ (w : Word) (i : Instr), decode w = .ok i → encode i = w ∧ i.wellFormed = true

/-- Words printed by the spec decode to the instructions the spec gives for them: one of each family. -/
def Obligations.SpecWordsDecode : Prop :=
  decode 0x06848D15#32 = .ok (.ldil 10 0x48D15) ∧
  decode 0x40C40045#32 = .ok (.add 3 false false (.reg 4 5)) ∧
  decode 0x156041F5#32 = .ok (.extr 5 true false 16 31 5) ∧
  decode 0x83800020#32 = .ok (.b 14 0x20) ∧
  decode 0xC0C20104#32 = .ok (.ld 3 false 0 .word (.imm 0x010) 4) ∧
  decode 0x28500011#32 = .ok (.mr 1 false true 17) ∧
  decode 0xFC000001#32 = .error .reservedField

/-- The opcodes that R162 lists as unassigned. -/
def unassignedOpcode (n : Nat) : Prop :=
  (0x0D ≤ n ∧ n ≤ 0x0F) ∨ (0x19 ≤ n ∧ n ≤ 0x1F) ∨ (0x28 ≤ n ∧ n ≤ 0x2F) ∨ (0x36 ≤ n ∧ n ≤ 0x38)

/-- A fetched word with an unassigned opcode takes trap 5 with the word as parameter, at both privilege levels; a word with a
reserved field not as drawn is refused (R162, R163: decisions D7 and D8 of the spec, log 5). The status saved by trap 5 is the one the
fetch left, a demotion included: that is the model's reading (log 33). -/
def Obligations.RejectedWordsStop : Prop :=
  ∀ (s t : State) (pa : PAddr) (w : Word), Ready s → Fetches s pa t → s.staleAt pa = [] → Holds s.mem pa.toNat .word w →
    (unassignedOpcode (field w 0 6).toNat → Traps (step s) t 5 (some w) none none) ∧
    (decode w = .error .reservedField → step s = .refused .reservedField) ∧
    (decode w = .error .unassignedOpcode ↔ unassignedOpcode (field w 0 6).toNat)

/-! ### Steps -/

/-- When the word at the instruction address decodes to an instruction, and no older copy of it is in the instruction cache, the step
is that instruction's execution, in the state the fetch leaves (20_memory.md R96, R97). -/
def Obligations.StepRunsTheDecodedInstruction : Prop :=
  ∀ (s t : State) (pa : PAddr) (w : Word) (i : Instr),
    Ready s → Fetches s pa t → s.staleAt pa = [] → Holds s.mem pa.toNat .word w → decode w = .ok i → step s = exec i t

/-- A fetch returns the current word or one that the word held since its line was last purged from the instruction cache; which one is
a free choice (20_memory.md R123 b, decision D15 of the spec, log 11). The step then runs the word it returned. -/
def Obligations.FetchReturnsACurrentOrStaleWord : Prop :=
  ∀ (s t u : State) (pa : PAddr) (w : Word), Ready s → Fetches s pa t → fetch s = .ok (w, u) →
    (∃ o ∈ oldWordAt s.mem pa.toNat :: s.staleAt pa, o.word = .ok w) ∧
    Keeps (fun p => p = .freeValues) t u ∧ u.psw1 = t.psw1 ∧
    (∀ i, decode w = .ok i → step s = exec i u)

/-- With code translation on, a fetch without an instruction TLB entry takes trap 9, and one that the entry's type, protection id or
PL1 refuses takes trap 11 (20_memory.md R97, decision D34 of the spec, log 29). -/
def Obligations.FetchTraps : Prop :=
  ∀ s : State, Ready s → s.pswC = true →
    (tlbLookup s.itlb s.pswSeg (pageOf s.psw1) = none → Traps (step s) s 9 none none none) ∧
    (∀ e, tlbLookup s.itlb s.pswSeg (pageOf s.psw1) = some e →
      ((e.rights.type = .readOnly ∨ e.rights.type = .readWrite) ∨ s.pidRefuses e s.pswSeg = true ∨
        (s.pswX = true ∧ e.rights.pl1 = false)) →
      Traps (step s) s 11 none none none)

/-- Between instructions a pending machine check (with M = 0), power failure or external interrupt (with E = 1) is taken, in this order
(60_exceptions.md R441 to R444, R453, R460; decisions D11, D19 and D21 of the spec, logs 7, 15 and 18). The first two are consumed. While
EXT_IRQ_MODEL is unset no event raises a request (log 18): the third clause is about the states that have one pending. -/
def Obligations.AsynchronousEventsAreTaken : Prop :=
  ∀ s : State, s.pswN = false → s.pswR = false → s.pswZ = false →
    (∀ c, s.pswM = false → s.machineCheck = some c →
      ∃ t, step s = .next t ∧ TrapEntered { s with machineCheck := none } t 1 (some c) none none) ∧
    ((s.pswM = true ∨ s.machineCheck = none) → s.powerFail = true →
      ∃ t, step s = .next t ∧ TrapEntered { s with powerFail := false } t 2 none none none) ∧
    ((s.pswM = true ∨ s.machineCheck = none) → s.powerFail = false → s.pswE = true → s.extPending = true →
      Traps (step s) s 4 none none none)

/-- A state with N = 1, R = 1 or Z = 1 is refused by name (10_state.md R33, R40, R41: decisions D18 and D19 of the spec, logs 14
and 15). -/
def Obligations.StatesWithoutMeaningAreRefused : Prop :=
  ∀ s : State,
    (s.pswN = true → step s = .refused .nullified) ∧
    (s.pswN = false → s.pswR = true → step s = .refused .recoveryCounter) ∧
    (s.pswN = false → s.pswR = false → s.pswZ = true → step s = .refused .singleStep)

/-- Every step keeps the invariant: memory in canonical form, register zero, the aligned instruction offset, the five bits of CR2, the
TLBs' form and the identity of segment 0, the word of a reservation. -/
def Obligations.InvariantKeptByEveryStep : Prop :=
  ∀ s t : State, s.Inv → step s = .next t → t.Inv

/-- The machine after reset meets the invariant. -/
def Obligations.InvariantAtReset : Prop := State.reset.Inv

/-- Reset: privileged, untranslated, at `0xF0000000`, TLBs and caches empty, no reservation, no pending event (70_reset_and_hazards.md
R501: decision D20 of the spec, log 17), and no byte of memory has a value (R503, log 30). -/
def Obligations.ResetState : Prop :=
  State.reset.psw0 = 0 ∧ State.reset.psw1 = 0xF0000000#32 ∧ State.reset.readGr 0 = 0 ∧
  State.reset.itlb = [] ∧ State.reset.dtlb = [] ∧ State.reset.iOld = [] ∧ State.reset.dOld = [] ∧
  State.reset.lrValid = false ∧ State.reset.machineCheck = none ∧ State.reset.powerFail = false ∧
  State.reset.extPending = false ∧ Ready State.reset ∧ ∀ a, memByte State.reset.mem a = none

/-- Taking a trap saves PSW-0 and PSW-1 in CR17 and CR18 and the given parameters in CR19 to CR21, clears PSW-0, goes to
`CR16 + 32 * id`, modulo 2^32 and with the two low bits dropped, and changes nothing else (60_exceptions.md R450, R451: decision D39 of
the spec, log 33). That every write of PSW-1 drops the two low bits is decision D9 of the spec (10_state.md R31, log 6), that an
unaligned CR16 is added as it is the model's reading (R454, log 39). -/
def Obligations.TrapEntrySavesAndVectors : Prop :=
  ∀ (s : State) (t : Trap), TrapEntered s (s.takeTrap t) (trapNumber t.id) t.p0 t.p1 t.p2

/-! ### Rules about every instruction -/

/-- The execution of an instruction leaves the privilege level as it is, but for GATE, which can only go to level 0, RFI from privileged
mode, and a trap (60_exceptions.md R482). The demotion by a fetch (20_memory.md R97) comes before the execution and is not in this
statement: `Fetches` says it. -/
def Obligations.PrivilegeLevelChanges : Prop :=
  ∀ (i : Instr) (s t : State), exec i s = .next t →
    t.pswX = s.pswX ∨ ((∃ r ofs, i = .gate r ofs) ∧ t.pswX = false) ∨
    (i = .rfi ∧ s.pswX = false ∧ t.pswX = flag (s.readCr 17) 1) ∨ (∃ id p0 p1 p2, TrapEntered s t id p0 p1 p2)

/-- The carry/borrow bit changes only by ADD and ADC without L, SUB, SBC, RFI and a trap (43_computational_operand.md R297, 10_state.md
R38). -/
def Obligations.CarryBitWriters : Prop :=
  ∀ (i : Instr) (s t : State), exec i s = .next t → writesCarry i = false → i ≠ .rfi →
    t.pswCB = s.pswCB ∨ (∃ id p0 p1 p2, TrapEntered s t id p0 p1 p2)

/-- A byte of memory changes only by ST, STA, STC or a data-cache purge without flush (20_memory.md R123 c, R132). -/
def Obligations.MemoryWriters : Prop :=
  ∀ (i : Instr) (s t : State) (a : Nat), exec i s = .next t → memByte t.mem a ≠ memByte s.mem a → mayChangeMemory i = true

/-- In user mode the execution of an instruction changes none of SR5 to SR7, the control registers other than CR2, the status bits other
than X and CB, the TLBs and the pending events, unless it takes a trap (60_exceptions.md R481). Which registers MR protects is decision
D14 of the spec (log 10), that PCA is privileged decision D33 (log 28). -/
def Obligations.UserModeKeepsProtectedState : Prop :=
  ∀ (i : Instr) (s t : State), s.pswX = true → exec i s = .next t →
    (∃ id p0 p1 p2, TrapEntered s t id p0 p1 p2) ∨ (∀ p, Protected p → samePart s t p)

/-- Register zero reads zero, a write to it does nothing, and an instruction whose only result would go there still does the rest: ADD
writes the carry, LDR makes its reservation, LD traps on a misaligned address (10_state.md R21). What a reservation is, the physical
address of the word, is decision D23 of the spec (log 20), and writing the carry decision D6 (log 4). -/
def Obligations.RegisterZero : Prop :=
  (∀ s : State, s.readGr 0 = 0 ∧ ∀ v, s.writeGr 0 v = s) ∧
  (∀ (i : Instr) (s t : State), exec i s = .next t → t.readGr 0 = 0) ∧
  (∀ (s : State) (op : Operand) (x y : Word), OperandsAre s 0 op x y →
    ∃ t, exec (.add 0 false false op) s = .next t ∧ t.pswCB = decide (2 ^ 32 ≤ x.toNat + y.toNat)) ∧
  (∀ (s : State) (seg : BitVec 2) (ofs : BitVec 12) (b : BitVec 4) (pa : PAddr) (v : Word),
    Reads s (s.dataSeg (segReg seg (s.readGr b + imm ofs))) (s.readGr b + imm ofs) .word pa v →
    ∃ t, exec (.ldr 0 seg ofs b) s = .next t ∧ t.lrValid = true ∧ t.lrAddr = pa) ∧
  (∀ (s : State) (seg : BitVec 2) (disp : Disp) (b : BitVec 4), (s.memOffset false disp b).toNat % 4 ≠ 0 →
    Traps (exec (.ld 0 false seg .word disp b) s) s 17 (some (encode (.ld 0 false seg .word disp b)))
      (some ((s.dataSeg (segReg seg (s.memOffset false disp b))).setWidth 32)) (some (s.memOffset false disp b)))

/-! ### Immediate instructions -/

/-- LDIL (41_immediate.md R230). -/
def Obligations.LdilLoadsTheLeftImmediate : Prop :=
  ∀ (s : State) (r : BitVec 4) (val : BitVec 22),
    encode (.ldil r val) = 0x01#6 ++ r ++ val ∧
    ∃ t, exec (.ldil r val) s = .next t ∧ t.readGr r = written r (val.setWidth 32 <<< 10) ∧ Ends (isGr r) s t

/-- ADDIL (41_immediate.md R231). -/
def Obligations.AddilAddsIntoRegisterOne : Prop :=
  ∀ (s : State) (r : BitVec 4) (val : BitVec 22),
    encode (.addil r val) = 0x02#6 ++ r ++ val ∧
    ∃ t, exec (.addil r val) s = .next t ∧ t.readGr 1 = s.readGr r + (val.setWidth 32 <<< 10) ∧ Ends (isGr 1) s t

/-- LDO (41_immediate.md R233); the sign of the field is its rightmost bit (30_encoding.md R150: decision D2 of the spec, log 1). -/
def Obligations.LdoAddsTheOffset : Prop :=
  ∀ (s : State) (r b : BitVec 4) (ofs : BitVec 18),
    ∃ t, exec (.ldo r ofs b) s = .next t ∧
      t.readGr r = written r (s.readGr b + BitVec.ofInt 32 ((ofs.toNat / 2 : Nat) - (ofs.toNat % 2 : Nat) * 2 ^ 17)) ∧
      Ends (isGr r) s t

/-- LSID (41_immediate.md R236). -/
def Obligations.LsidReadsTheSegmentRegister : Prop :=
  ∀ (s : State) (r b : BitVec 4),
    encode (.lsid r b) = 0x04#6 ++ r ++ 0#18 ++ b ∧
    ∃ (t : State) (n : BitVec 3), exec (.lsid r b) s = .next t ∧ n.toNat = 4 + (s.readGr b).toNat / 2 ^ 30 ∧
      t.readGr r = written r ((s.readSr n).setWidth 32) ∧ Ends (isGr r) s t

/-! ### Bit fields, shifts, conditional move -/

/-- The position operand of EXTR, DEP and DSR: the field, or bits 27 to 31 of CR2 under option A (44_computational_bitfield.md R330,
R332, R335, R337). -/
def positionOf (s : State) (optA : Bool) (pos : BitVec 5) : Nat := if optA then (s.readCr 2).toNat % 32 else pos.toNat

/-- EXTR, bit by bit from the right (44_computational_bitfield.md R330). -/
def Obligations.ExtrExtractsTheField : Prop :=
  ∀ (s : State) (r b : BitVec 4) (optS optA : Bool) (len pos : BitVec 5),
    len ≠ 0 → len.toNat ≤ positionOf s optA pos + 1 →
    ∃ t, exec (.extr r optS optA len pos b) s = .next t ∧ Ends (isGr r) s t ∧
      ∀ k < 32, (t.readGr r).getLsbD k = (decide (r ≠ 0) &&
        if k < len.toNat then (s.readGr b).getLsbD (31 - positionOf s optA pos + k)
        else optS && (s.readGr b).getLsbD (31 - positionOf s optA pos + len.toNat - 1))

/-- DEP, bit by bit from the right (44_computational_bitfield.md R332, R334: the immediate by log 1 and log 22). -/
def Obligations.DepDepositsTheField : Prop :=
  ∀ (s : State) (r b : BitVec 4) (optZ optA optI : Bool) (len pos : BitVec 5),
    len ≠ 0 → len.toNat ≤ positionOf s optA pos + 1 →
    ∃ t, exec (.dep r optZ optA optI len pos b) s = .next t ∧ Ends (isGr r) s t ∧
      ∀ k < 32, (t.readGr r).getLsbD k = (decide (r ≠ 0) &&
        if 31 - positionOf s optA pos ≤ k ∧ k < 31 - positionOf s optA pos + len.toNat then
          (if optI then BitVec.ofInt 32 ((b.toNat / 2 : Nat) - (b.toNat % 2 : Nat) * 2 ^ 3) else s.readGr b).getLsbD
            (k - (31 - positionOf s optA pos))
        else !optZ && (s.readGr r).getLsbD k)

/-- DSR (44_computational_bitfield.md R335; the bit of option A by decision D3 of the spec, log 2). -/
def Obligations.DsrShiftsThePair : Prop :=
  ∀ (s : State) (r a b : BitVec 4) (optA : Bool) (shamt : BitVec 5),
    ∃ t, exec (.dsr r optA shamt a b) s = .next t ∧ Ends (isGr r) s t ∧
      t.readGr r = written r (if positionOf s optA shamt = 0 then s.readGr a
        else (s.readGr b <<< (32 - positionOf s optA shamt)) ||| (s.readGr a >>> positionOf s optA shamt))

/-- SHLA without option O, or in range (44_computational_bitfield.md R338, R339: the range by decision D42 of the spec, log 4). -/
def Obligations.ShlaShiftsAndAdds : Prop :=
  ∀ (s : State) (r a b : BitVec 4) (optL optO : Bool) (sa : BitVec 2),
    (optO = true → ShlaFits optL sa (s.readGr a) (s.readGr b)) →
    ∃ t, exec (.shla r optL optO sa a b) s = .next t ∧ Ends (isGr r) s t ∧
      t.readGr r = written r (BitVec.ofNat 32 ((s.readGr a).toNat * 2 ^ sa.toNat + (s.readGr b).toNat))

/-- CMR: the eight conditions, and trap 5 for the codes 8 to 15 (44_computational_bitfield.md R342). -/
def Obligations.CmrMovesOnItsCondition : Prop :=
  (∀ (r : BitVec 4) (cond : MoveCond) (a b : BitVec 4), encode (.cmr r cond a b) = 0x09#6 ++ r ++ cond.toBits ++ 0#10 ++ a ++ b) ∧
  [MoveCond.eq, .lt, .gt, .ev, .ne, .le, .ge, .od].map MoveCond.toBits = [0, 1, 2, 3, 4, 5, 6, 7] ∧
  ∀ (s : State) (r a b : BitVec 4) (cond : MoveCond),
    (MoveCondHolds cond (s.readGr b) →
      ∃ t, exec (.cmr r cond a b) s = .next t ∧ t.readGr r = written r (s.readGr a) ∧ Ends (isGr r) s t) ∧
    (¬ MoveCondHolds cond (s.readGr b) → (∀ c, cond ≠ .undefined c) →
      ∃ t, exec (.cmr r cond a b) s = .next t ∧ Ends (fun _ => False) s t) ∧
    (∀ c, cond = .undefined c → Traps (exec (.cmr r cond a b) s) s 5 (some (encode (.cmr r cond a b))) none none)

/-- DS has no semantics in the spec and is refused (44_computational_bitfield.md R350: decision D29 of the spec, log 25). -/
def Obligations.DsIsRefused : Prop := ∀ (s : State) (r a b : BitVec 4), exec (.ds r a b) s = .refused .divideStep

/-! ### Operand-format instructions -/

/-- ADD and ADC: the sum modulo 2^32, and without L the carry (43_computational_operand.md R291, R292; writing CB by decision D6 and
overflow by decision D5 of the spec, log 4). -/
def Obligations.AddAndAdcResult : Prop :=
  ∀ (s : State) (r : BitVec 4) (optL optO : Bool) (op : Operand) (x y : Word) (i : Instr) (c : Bool),
    OperandsAre s r op x y →
    (i = .add r optL optO op ∧ c = false) ∨ (i = .adc r optL optO op ∧ c = s.pswCB) →
    (optO = true → Fits optL (exactValue optL x + exactValue optL y + c.toNat)) →
    ∃ t, exec i s = .next t ∧ t.readGr r = written r (BitVec.ofNat 32 (x.toNat + y.toNat + c.toNat)) ∧
      (optL = false → t.pswCB = decide (2 ^ 32 ≤ x.toNat + y.toNat + c.toNat)) ∧
      Ends (fun p => isGr r p ∨ (optL = false ∧ p = .psw0 5)) s t

/-- SUB and SBC: the difference modulo 2^32, and the borrow in CB whatever L is (43_computational_operand.md R293, R294; decisions D4
and D6 of the spec, logs 3 and 4). -/
def Obligations.SubAndSbcResult : Prop :=
  ∀ (s : State) (r : BitVec 4) (optL optO : Bool) (op : Operand) (x y : Word) (i : Instr) (c : Bool),
    OperandsAre s r op x y →
    (i = .sub r optL optO op ∧ c = false) ∨ (i = .sbc r optL optO op ∧ c = s.pswCB) →
    (optO = true → Fits optL (exactValue optL x - exactValue optL y - c.toNat)) →
    ∃ t, exec i s = .next t ∧ t.readGr r = written r (x - y - BitVec.ofNat 32 c.toNat) ∧
      t.pswCB = decide (x.toNat < y.toNat + c.toNat) ∧
      Ends (fun p => isGr r p ∨ p = .psw0 5) s t

/-- With option O a result out of range takes trap 8 (43_computational_operand.md R291 to R295, 44_computational_bitfield.md R339:
decisions D5 and D42 of the spec, log 4). The result of SBC subtracts CB as a borrow, decision D4 of the spec (log 3). -/
def Obligations.OverflowTraps : Prop :=
  (∀ (s : State) (r : BitVec 4) (optL : Bool) (op : Operand) (x y : Word), OperandsAre s r op x y →
    (¬ Fits optL (exactValue optL x + exactValue optL y) →
      Traps (exec (.add r optL true op) s) s 8 (some (encode (.add r optL true op))) none none) ∧
    (¬ Fits optL (exactValue optL x + exactValue optL y + s.pswCB.toNat) →
      Traps (exec (.adc r optL true op) s) s 8 (some (encode (.adc r optL true op))) none none) ∧
    (¬ Fits optL (exactValue optL x - exactValue optL y) →
      Traps (exec (.sub r optL true op) s) s 8 (some (encode (.sub r optL true op))) none none) ∧
    (¬ Fits optL (exactValue optL x - exactValue optL y - s.pswCB.toNat) →
      Traps (exec (.sbc r optL true op) s) s 8 (some (encode (.sbc r optL true op))) none none)) ∧
  (∀ (s : State) (r a b : BitVec 4) (optL : Bool) (sa : BitVec 2), ¬ ShlaFits optL sa (s.readGr a) (s.readGr b) →
    Traps (exec (.shla r optL true sa a b) s) s 8 (some (encode (.shla r optL true sa a b))) none none)

/-- AND, OR and XOR with their options (43_computational_operand.md R300, R301, R302). AND and OR with both N and C are refused in every
state, before the operand is fetched (R303, 30_encoding.md R164, R166: decision D8 of the spec, log 5). -/
def Obligations.LogicResult : Prop :=
  (∀ (r : BitVec 4) (optN optC : Bool) (op : Operand),
    encode (.and r optN optC op) = 0x14#6 ++ r ++ BitVec.ofBool optN ++ BitVec.ofBool optC ++ encodeOperand op ∧
    encode (.or r optN optC op) = 0x15#6 ++ r ++ BitVec.ofBool optN ++ BitVec.ofBool optC ++ encodeOperand op ∧
    encode (.xor r optN op) = 0x16#6 ++ r ++ BitVec.ofBool optN ++ 0#1 ++ encodeOperand op) ∧
  (∀ (s : State) (r : BitVec 4) (op : Operand) (x y : Word) (optN optC : Bool), OperandsAre s r op x y →
    (¬ (optN = true ∧ optC = true) → ∃ t, exec (.and r optN optC op) s = .next t ∧ Ends (isGr r) s t ∧
      t.readGr r = written r (if optN then ~~~(x &&& y) else if optC then x &&& ~~~y else x &&& y)) ∧
    (¬ (optN = true ∧ optC = true) → ∃ t, exec (.or r optN optC op) s = .next t ∧ Ends (isGr r) s t ∧
      t.readGr r = written r (if optN then ~~~(x ||| y) else if optC then x ||| ~~~y else x ||| y)) ∧
    (∃ t, exec (.xor r optN op) s = .next t ∧ Ends (isGr r) s t ∧
      t.readGr r = written r (if optN then ~~~(x ^^^ y) else x ^^^ y))) ∧
  (∀ (s : State) (r : BitVec 4) (op : Operand),
    exec (.and r true true op) s = .refused .undefinedOption ∧ exec (.or r true true op) s = .refused .undefinedOption)

/-- CMP and CMPU: one if the condition holds of the signed or unsigned operands, else zero (43_computational_operand.md R305, R306). -/
def Obligations.CompareResult : Prop :=
  (∀ (r : BitVec 4) (cond : Cond) (op : Operand),
    encode (.cmp r cond op) = 0x17#6 ++ r ++ cond.toBits ++ encodeOperand op ∧
    encode (.cmpu r cond op) = 0x18#6 ++ r ++ cond.toBits ++ encodeOperand op) ∧
  [Cond.eq, .lt, .ne, .le].map Cond.toBits = [0, 1, 2, 3] ∧
  ∀ (s : State) (r : BitVec 4) (cond : Cond) (op : Operand) (x y : Word), OperandsAre s r op x y →
    (∃ t, exec (.cmp r cond op) s = .next t ∧ Ends (isGr r) s t ∧
      (CondHolds cond x.toInt y.toInt → t.readGr r = written r 1) ∧
      (¬ CondHolds cond x.toInt y.toInt → t.readGr r = 0)) ∧
    (∃ t, exec (.cmpu r cond op) s = .next t ∧ Ends (isGr r) s t ∧
      (CondHolds cond x.toNat y.toNat → t.readGr r = written r 1) ∧
      (¬ CondHolds cond x.toNat y.toNat → t.readGr r = 0))

/-! ### Branches -/

/-- B: the link, and the target relative to the branch itself (42_branch.md R251; the field's sign by decision D2 of the spec, log 1). -/
def Obligations.BranchResult : Prop :=
  ∀ (s : State) (r : BitVec 4) (ofs : BitVec 22),
    ∃ t, exec (.b r ofs) s = .next t ∧ Keeps (isGr r) s t ∧ t.readGr r = written r (s.psw1 + 4) ∧
      t.psw1 = alignOfs (s.psw1 + BitVec.ofInt 32 (((ofs.toNat / 2 : Nat) - (ofs.toNat % 2 : Nat) * 2 ^ 21) * 4))

/-- GATE: the old level in `GR[r]`, the target, and the level: 0 with code translation off, promotion by a gateway page with it on
(42_branch.md R254, R255, R256: decision D27 of the spec, log 23; the field's sign by decision D2 of the spec, log 1). -/
def Obligations.GateResult : Prop :=
  ∀ (s : State) (r : BitVec 4) (ofs : BitVec 22),
    ∃ t, exec (.gate r ofs) s = .next t ∧ Keeps (fun p => isGr r p ∨ p = .psw0 1) s t ∧
      t.readGr r = written r (if s.pswX then 1 else 0) ∧
      t.psw1 = alignOfs (s.psw1 + BitVec.ofInt 32 (((ofs.toNat / 2 : Nat) - (ofs.toNat % 2 : Nat) * 2 ^ 21) * 4)) ∧
      (s.pswC = false → t.pswX = false) ∧
      (∀ e, s.pswC = true → tlbLookup s.itlb s.pswSeg (pageOf s.psw1) = some e →
        ((e.rights.type = .gateway ∧ e.rights.pl2 = false) → t.pswX = false) ∧
        (¬ (e.rights.type = .gateway ∧ e.rights.pl2 = false) → t.pswX = s.pswX))

/-- BR and BV: the link, and a target relative to the branch or absolute in the segment (42_branch.md R257, R259). -/
def Obligations.RegisterBranchResult : Prop :=
  ∀ (s : State) (r b : BitVec 4),
    encode (.br r b) = 0x22#6 ++ r ++ 0#18 ++ b ∧ encode (.bv r b) = 0x23#6 ++ r ++ 0#18 ++ b ∧
    (∃ t, exec (.br r b) s = .next t ∧ Keeps (isGr r) s t ∧ t.readGr r = written r (s.psw1 + 4) ∧
      t.psw1 = alignOfs (s.psw1 + s.readGr b <<< 2)) ∧
    (∃ t, exec (.bv r b) s = .next t ∧ Keeps (isGr r) s t ∧ t.readGr r = written r (s.psw1 + 4) ∧
      t.psw1 = alignOfs (s.readGr b))

/-- BE: SR0 receives the old segment, `GR[r]` the link, and the target's segment is `SR[a]` with code translation on, the old one with
it off (42_branch.md R262, R263, R264: decision D28 of the spec, log 24; the field's sign by log 1). -/
def Obligations.BranchExternalResult : Prop :=
  ∀ (s : State) (r a b : BitVec 4) (ofs : BitVec 14), (s.pswC = true → a.toNat < 8) →
    ∃ t, exec (.be r ofs a b) s = .next t ∧
      Keeps (fun p => isGr r p ∨ p = .sr 0 ∨ isPsw0 16 31 p) s t ∧
      t.readGr r = written r (s.psw1 + 4) ∧ t.readSr 0 = s.pswSeg ∧
      (s.pswC = true → t.pswSeg = s.readSr (a.setWidth 3)) ∧ (s.pswC = false → t.pswSeg = s.pswSeg) ∧
      t.psw1 = alignOfs (s.readGr b + BitVec.ofInt 32 (((ofs.toNat / 2 : Nat) - (ofs.toNat % 2 : Nat) * 2 ^ 13) * 4))

/-- BVE: as BE, the segment register selected by the two leftmost bits of the target (42_branch.md R266). -/
def Obligations.BranchVectoredExternalResult : Prop :=
  ∀ (s : State) (r a b : BitVec 4),
    encode (.bve r a b) = 0x25#6 ++ r ++ 0#14 ++ a ++ b ∧
    ∃ (t : State) (n : BitVec 3), exec (.bve r a b) s = .next t ∧ n.toNat = 4 + (s.readGr b + s.readGr a).toNat / 2 ^ 30 ∧
      Keeps (fun p => isGr r p ∨ p = .sr 0 ∨ isPsw0 16 31 p) s t ∧
      t.readGr r = written r (s.psw1 + 4) ∧ t.readSr 0 = s.pswSeg ∧ t.pswSeg = s.readSr n ∧
      t.psw1 = alignOfs (s.readGr b + s.readGr a)

/-- CBR and CBRU: the target if the condition holds of the signed or unsigned registers, else the next instruction; no register is
written (42_branch.md R270, R271; the field's sign by log 1). -/
def Obligations.ConditionalBranchResult : Prop :=
  ∀ (s : State) (cond : Cond) (ofs : BitVec 16) (a b : BitVec 4),
    (∃ t, exec (.cbr cond ofs a b) s = .next t ∧ Keeps (fun _ => False) s t ∧
      (CondHolds cond (s.readGr a).toInt (s.readGr b).toInt →
        t.psw1 = alignOfs (s.psw1 + BitVec.ofInt 32 (((ofs.toNat / 2 : Nat) - (ofs.toNat % 2 : Nat) * 2 ^ 15) * 4))) ∧
      (¬ CondHolds cond (s.readGr a).toInt (s.readGr b).toInt → t.psw1 = alignOfs (s.psw1 + 4))) ∧
    (∃ t, exec (.cbru cond ofs a b) s = .next t ∧ Keeps (fun _ => False) s t ∧
      (CondHolds cond (s.readGr a).toNat (s.readGr b).toNat →
        t.psw1 = alignOfs (s.psw1 + BitVec.ofInt 32 (((ofs.toNat / 2 : Nat) - (ofs.toNat % 2 : Nat) * 2 ^ 15) * 4))) ∧
      (¬ CondHolds cond (s.readGr a).toNat (s.readGr b).toNat → t.psw1 = alignOfs (s.psw1 + 4)))

/-! ### Memory reference -/

/-- The displacement of LD, ST, LDA and STA: the signed 12-bit field, its sign bit rightmost (30_encoding.md R150), or `GR[a]`
(40_memory_reference.md R201). -/
def displacementOf (s : State) : Disp → Word
  | .imm ofs => BitVec.ofInt 32 ((ofs.toNat / 2 : Nat) - (ofs.toNat % 2 : Nat) * 2 ^ 11)
  | .reg a => s.readGr a

/-- The address of LD, ST, LDA, STA is `GR[b]` plus the displacement, under M with a displacement that is not negative `GR[b]` alone;
the base that M leaves is `GR[b]` plus the displacement in both cases; LD's result is the value read, zero-extended, and under M the
updated base unless it is the target (40_memory_reference.md R201, R203; the field's sign by decision D2 of the spec, log 1). -/
def Obligations.LoadResult : Prop :=
  (∀ (s : State) (optM : Bool) (disp : Disp) (b : BitVec 4),
    s.memOffset optM disp b =
      (if optM = false ∨ (displacementOf s disp).toInt < 0 then s.readGr b + displacementOf s disp else s.readGr b) ∧
    s.newBase disp b = s.readGr b + displacementOf s disp) ∧
  ∀ (s : State) (r b : BitVec 4) (optM : Bool) (seg : BitVec 2) (dw : Width) (disp : Disp) (n : Size) (pa : PAddr) (v : Word),
    widthSize dw = some n →
    Reads s (s.dataSeg (segReg seg (s.memOffset optM disp b))) (s.memOffset optM disp b) n pa v →
    ∃ t, exec (.ld r optM seg dw disp b) s = .next t ∧ t.readGr r = written r v ∧
      (optM = true → b ≠ r → t.readGr b = written b (s.newBase disp b)) ∧
      Ends (fun p => isGr r p ∨ (optM = true ∧ isGr b p)) s t

/-- ST: the rightmost bytes of `GR[r]` stored, every other byte unchanged, the base updated under M, and a reservation of that word
lost (40_memory_reference.md R206, R223: decision D23 of the spec, log 20; the field's sign by log 1). -/
def Obligations.StoreResult : Prop :=
  ∀ (s : State) (r b : BitVec 4) (optM : Bool) (seg : BitVec 2) (dw : Width) (disp : Disp) (n : Size) (pa : PAddr),
    widthSize dw = some n →
    Writes s (s.dataSeg (segReg seg (s.memOffset optM disp b))) (s.memOffset optM disp b) n pa →
    ∃ t, exec (.st r optM seg dw disp b) s = .next t ∧ Stored s t pa n (s.readGr r) ∧
      (optM = true → t.readGr b = written b (s.newBase disp b)) ∧
      t.lrAddr = s.lrAddr ∧ (t.lrValid = true ↔ s.lrValid = true ∧ wordAddr pa ≠ s.lrAddr) ∧
      Ends (fun p => (∃ a, inStore pa.toNat n a ∧ p = .mem a) ∨ p = .instrCache ∨ p = .dataCache ∨ p = .reservation ∨
        (optM = true ∧ isGr b p)) s t

/-- LDA and STA in privileged mode: the word at the offset as physical address, whatever PSW.D is (40_memory_reference.md R210, R213;
the field's sign by log 1, the reservation by log 20). -/
def Obligations.AbsoluteAccessResult : Prop :=
  ∀ (s : State) (r b : BitVec 4) (optM : Bool) (disp : Disp), s.pswX = false → (s.memOffset optM disp b).toNat % 4 = 0 →
    region ((s.memOffset optM disp b).setWidth 34) = .memory →
    (∀ v, Holds s.mem (s.memOffset optM disp b).toNat .word v →
      ∃ t, exec (.lda r optM disp b) s = .next t ∧ t.readGr r = written r v ∧
        (optM = true → b ≠ r → t.readGr b = written b (s.newBase disp b)) ∧
        Ends (fun p => isGr r p ∨ (optM = true ∧ isGr b p)) s t) ∧
    (∃ t, exec (.sta r optM disp b) s = .next t ∧
      Stored s t ((s.memOffset optM disp b).setWidth 34) .word (s.readGr r) ∧
      (optM = true → t.readGr b = written b (s.newBase disp b)) ∧
      t.lrAddr = s.lrAddr ∧
      (t.lrValid = true ↔ s.lrValid = true ∧ (s.memOffset optM disp b).setWidth 34 ≠ s.lrAddr) ∧
      Ends (fun p => (∃ a, inStore (s.memOffset optM disp b).toNat .word a ∧ p = .mem a) ∨ p = .instrCache ∨ p = .dataCache ∨
        p = .reservation ∨ (optM = true ∧ isGr b p)) s t)

/-- LDR: the word read, and a reservation on it (40_memory_reference.md R221: decision D23 of the spec, log 20). -/
def Obligations.LoadReserveResult : Prop :=
  ∀ (s : State) (r b : BitVec 4) (seg : BitVec 2) (ofs : BitVec 12) (pa : PAddr) (v : Word),
    Reads s (s.dataSeg (segReg seg (s.readGr b + imm ofs))) (s.readGr b + imm ofs) .word pa v →
    ∃ t, exec (.ldr r seg ofs b) s = .next t ∧ t.readGr r = written r v ∧ t.lrValid = true ∧ t.lrAddr = pa ∧
      Ends (fun p => isGr r p ∨ p = .reservation) s t

/-- STC: without a reservation, or on another word, one in `GR[r]` and nothing stored; on the reserved word the store and zero in
`GR[r]`; the reservation ends (40_memory_reference.md R222: decision D23 of the spec, log 20). -/
def Obligations.StoreConditionalResult : Prop :=
  ∀ (s : State) (r b : BitVec 4) (seg : BitVec 2) (ofs : BitVec 12),
    (s.lrValid = false →
      ∃ t, exec (.stc r seg ofs b) s = .next t ∧ t.readGr r = written r 1 ∧ Ends (isGr r) s t) ∧
    (∀ pa, s.lrValid = true →
      Reaches s true (s.dataSeg (segReg seg (s.readGr b + imm ofs))) (s.readGr b + imm ofs) .word pa →
      (pa ≠ s.lrAddr →
        ∃ t, exec (.stc r seg ofs b) s = .next t ∧ t.readGr r = written r 1 ∧ t.lrValid = false ∧
          Ends (fun p => isGr r p ∨ p = .reservation) s t) ∧
      (pa = s.lrAddr → region pa = .memory →
        ∃ t, exec (.stc r seg ofs b) s = .next t ∧ t.readGr r = 0 ∧ t.lrValid = false ∧ Stored s t pa .word (s.readGr r) ∧
          Ends (fun p => isGr r p ∨ p = .reservation ∨ (∃ a, inStore pa.toNat .word a ∧ p = .mem a) ∨ p = .instrCache ∨
            p = .dataCache) s t))

/-- The traps of a data access, in their order: alignment 17, TLB miss 12, access rights 14, protection id 15, page reference 16, each
with the instruction word, the segment id and the offset, and nothing done (20_memory.md R100, R101, R73, R102: decision D11 of the
spec, log 7). -/
def Obligations.DataAccessTraps : Prop :=
  ∀ (i : Instr) (s : State) (write : Bool) (seg : SegId) (ofs : Word) (n : Size), accessOf s i = some (write, seg, ofs, n) →
    (ofs.toNat % n.bytes ≠ 0 → Traps (exec i s) s 17 (some (encode i)) (some (seg.setWidth 32)) (some ofs)) ∧
    (ofs.toNat % n.bytes = 0 → s.pswD = true → tlbLookup s.dtlb seg (pageOf ofs) = none →
      Traps (exec i s) s 12 (some (encode i)) (some (seg.setWidth 32)) (some ofs)) ∧
    (∀ e, ofs.toNat % n.bytes = 0 → s.pswD = true → tlbLookup s.dtlb seg (pageOf ofs) = some e →
      ((if write then writeAllowed e.rights s.pswX else readAllowed e.rights s.pswX) = false →
        Traps (exec i s) s 14 (some (encode i)) (some (seg.setWidth 32)) (some ofs)) ∧
      ((if write then writeAllowed e.rights s.pswX else readAllowed e.rights s.pswX) = true → s.pidRefuses e seg = true →
        Traps (exec i s) s 15 (some (encode i)) (some (seg.setWidth 32)) (some ofs)) ∧
      ((if write then writeAllowed e.rights s.pswX else readAllowed e.rights s.pswX) = true → s.pidRefuses e seg = false →
        e.refTrap = true → Traps (exec i s) s 16 (some (encode i)) (some (seg.setWidth 32)) (some ofs)))

/-- The reserved access width takes trap 5 (20_memory.md R76: decision D8 of the spec, log 5). -/
def Obligations.ReservedWidthTraps : Prop :=
  ∀ (i : Instr) (s : State), namesReservedWidth i = true → Traps (exec i s) s 5 (some (encode i)) none none

/-- A misaligned LDA or STA takes trap 17 with segment 0 and the physical address (40_memory_reference.md R210, R213, R214). -/
def Obligations.AbsoluteAlignmentTraps : Prop :=
  ∀ (s : State) (r b : BitVec 4) (optM : Bool) (disp : Disp), s.pswX = false → (s.memOffset optM disp b).toNat % 4 ≠ 0 →
    Traps (exec (.lda r optM disp b) s) s 17 (some (encode (.lda r optM disp b))) (some 0) (some (s.memOffset optM disp b)) ∧
    Traps (exec (.sta r optM disp b) s) s 17 (some (encode (.sta r optM disp b))) (some 0) (some (s.memOffset optM disp b))

/-- A data access that passes its checks stops by name in the I/O space, which has no defined device, that of STC if its word is the
reserved one; a read of memory stops at a byte that nothing has written. LDA and STA in privileged mode, aligned, stop in the same
places (20_memory.md R85, 70_reset_and_hazards.md R503: the model's choices, logs 30 and 31; STC by decision D23 of the spec, log 20). -/
def Obligations.AccessesThatStop : Prop :=
  (∀ (i : Instr) (s : State) (write : Bool) (seg : SegId) (ofs : Word) (n : Size) (pa : PAddr),
    accessOf s i = some (write, seg, ofs, n) → Reaches s write seg ofs n pa →
    (region pa = .ioSpace → ((∃ r sel d b, i = .stc r sel d b) → pa = s.lrAddr) → exec i s = .refused .ioSpace) ∧
    (write = false → region pa = .memory → (∃ k < n.bytes, memByte s.mem (pa.toNat + k) = none) →
      exec i s = .fault .unwrittenMemory)) ∧
  (∀ (s : State) (r b : BitVec 4) (optM : Bool) (disp : Disp) (pa : PAddr), s.pswX = false →
    pa = (s.memOffset optM disp b).setWidth 34 → pa.toNat % 4 = 0 →
    (region pa = .ioSpace →
      exec (.lda r optM disp b) s = .refused .ioSpace ∧ exec (.sta r optM disp b) s = .refused .ioSpace) ∧
    (region pa = .memory → (∃ k < 4, memByte s.mem (pa.toNat + k) = none) →
      exec (.lda r optM disp b) s = .fault .unwrittenMemory))

/-! ### System control -/

/-- LDA, STA, MST, LDPA, ITLB, PTLB, PCA, DIAG and RFI take trap 6 in user mode, before anything else (45_system_control.md R360, R386:
PCA by decision D33 of the spec, log 28). -/
def Obligations.PrivilegedOperationTraps : Prop :=
  ∀ (i : Instr) (s : State), alwaysPrivileged i = true → s.pswX = true → Traps (exec i s) s 6 (some (encode i)) none none

/-- MR: reads of any register that is not reserved, writes of those the level allows, trap 7 for the others, and the reserved control
registers refused (45_system_control.md R361, R362: decision D14 of the spec, log 10; R56 and R49, log 32). -/
def Obligations.MoveRegisterResult : Prop :=
  ∀ (s : State) (r : BitVec 4) (n : BitVec 5) (m : BitVec 3),
    ((n = 3 ∨ (8 ≤ n.toNat ∧ n.toNat ≤ 15) ∨ n = 23) → ∀ optD,
      exec (.mr r optD true (n.setWidth 6)) s = .refused .reservedControlRegister) ∧
    (¬ (n = 3 ∨ (8 ≤ n.toNat ∧ n.toNat ≤ 15) ∨ n = 23) →
      (∃ t, exec (.mr r false true (n.setWidth 6)) s = .next t ∧ t.readGr r = written r (s.readCr n) ∧ Ends (isGr r) s t) ∧
      (s.pswX = false ∨ n = 2 →
        ∃ t, exec (.mr r true true (n.setWidth 6)) s = .next t ∧ Ends (fun p => p = .cr n) s t ∧
          t.readCr n = if n = 2 then ((s.readGr r).setWidth 5).setWidth 32 else s.readGr r) ∧
      (s.pswX = true → n ≠ 2 →
        Traps (exec (.mr r true true (n.setWidth 6)) s) s 7 (some (encode (.mr r true true (n.setWidth 6)))) none none)) ∧
    (∃ t, exec (.mr r false false (m.setWidth 6)) s = .next t ∧ t.readGr r = written r ((s.readSr m).setWidth 32) ∧
      Ends (isGr r) s t) ∧
    (s.pswX = false ∨ m.toNat < 5 →
      ∃ t, exec (.mr r true false (m.setWidth 6)) s = .next t ∧ Ends (fun p => p = .sr m) s t ∧
        t.readSr m = (s.readGr r).setWidth 16) ∧
    (s.pswX = true → 5 ≤ m.toNat →
      Traps (exec (.mr r true false (m.setWidth 6)) s) s 7 (some (encode (.mr r true false (m.setWidth 6)))) none none)

/-- MST: the old Z, D, P, E in `GR[r]`, the new ones by mode, trap 6 in user mode and trap 5 for mode 3 (45_system_control.md R366). -/
def Obligations.MoveStatusResult : Prop :=
  (∀ (r : BitVec 4) (mode : MstMode) (b : BitVec 4), encode (.mst r mode b) = 0x0B#6 ++ r ++ mode.toBits ++ 0#16 ++ b) ∧
  [MstMode.write, .set, .clear, .undefined].map MstMode.toBits = [0, 1, 2, 3] ∧
  ∀ (s : State) (r b : BitVec 4) (mode : MstMode),
    (s.pswX = true → Traps (exec (.mst r mode b) s) s 6 (some (encode (.mst r mode b))) none none) ∧
    (s.pswX = false → mode = .undefined → Traps (exec (.mst r mode b) s) s 5 (some (encode (.mst r mode b))) none none) ∧
    (s.pswX = false → mode ≠ .undefined →
      ∃ t, exec (.mst r mode b) s = .next t ∧ Ends (fun p => isGr r p ∨ isPsw0 12 15 p) s t ∧
        t.readGr r = written r ((field s.psw0 12 4).setWidth 32) ∧
        (mode = .write → field t.psw0 12 4 = field (s.readGr b) 28 4) ∧
        (mode = .set → field t.psw0 12 4 = field s.psw0 12 4 ||| b) ∧
        (mode = .clear → field t.psw0 12 4 = field s.psw0 12 4 &&& ~~~b))

/-- LDPA in privileged mode: the offset with data translation off, else the low 32 bits of the entry's physical address, or trap 13
(45_system_control.md R370: decision D31 of the spec, log 27). -/
def Obligations.LoadPhysicalAddressResult : Prop :=
  ∀ (s : State) (r a b : BitVec 4) (seg : BitVec 2), s.pswX = false →
    (s.pswD = false →
      ∃ t, exec (.ldpa r seg a b) s = .next t ∧ t.readGr r = written r (s.readGr b + s.readGr a) ∧ Ends (isGr r) s t) ∧
    (∀ e, s.pswD = true →
      tlbLookup s.dtlb (s.readSr (segReg seg (s.readGr b + s.readGr a))) (pageOf (s.readGr b + s.readGr a)) = some e →
      ∃ t, exec (.ldpa r seg a b) s = .next t ∧ Ends (isGr r) s t ∧
        t.readGr r = written r ((e.ppn ++ field (s.readGr b + s.readGr a) 18 14).setWidth 32)) ∧
    (s.pswD = true →
      tlbLookup s.dtlb (s.readSr (segReg seg (s.readGr b + s.readGr a))) (pageOf (s.readGr b + s.readGr a)) = none →
      Traps (exec (.ldpa r seg a b) s) s 13 none none none)

/-- The rights table, the protection id check, and PRB: whether the entry allows a read or write at the given level and its protection
id passes, or trap 13 (20_memory.md R104, R106, 45_system_control.md R372, R373: decision D32 of the spec, log 27). The check refuses
when PSW.P and the entry's P are set and none of the eight halves of CR4 to CR7 is the segment id (10_state.md R50: decision D12 of the
spec, log 8). -/
def Obligations.ProbeResult : Prop :=
  (∀ (s : State) (e : TlbEntry) (seg : SegId), s.pidRefuses e seg = true ↔
    s.pswP = true ∧ e.pidCheck = true ∧
      ∀ n : BitVec 5, 4 ≤ n.toNat → n.toNat ≤ 7 →
        (s.readCr n).toNat / 2 ^ 16 ≠ seg.toNat ∧ (s.readCr n).toNat % 2 ^ 16 ≠ seg.toNat) ∧
  (∀ (ar : Rights) (pl : Bool), readAllowed ar pl = true ↔ pl.toNat ≤ ar.pl1.toNat) ∧
  (∀ (ar : Rights) (pl : Bool), writeAllowed ar pl = true ↔
    (ar.type = .readWrite ∧ pl.toNat ≤ ar.pl2.toNat) ∨ ((ar.type = .execute ∨ ar.type = .gateway) ∧ pl = false)) ∧
  ∀ (s : State) (r a b : BitVec 4) (optW optI : Bool) (seg : BitVec 2),
    (∀ e lvl, tlbLookup s.dtlb (s.readSr (segReg seg (s.readGr b))) (pageOf (s.readGr b)) = some e →
      lvl = (if optI then a.getLsbD 0 else (s.readGr a).getLsbD 0) →
      ∃ t, exec (.prb r optW optI seg a b) s = .next t ∧ Ends (isGr r) s t ∧
        t.readGr r = written r (if (if optW then writeAllowed e.rights lvl else readAllowed e.rights lvl) = true ∧
          s.pidRefuses e (s.readSr (segReg seg (s.readGr b))) = false then 1 else 0)) ∧
    (tlbLookup s.dtlb (s.readSr (segReg seg (s.readGr b))) (pageOf (s.readGr b)) = none →
      Traps (exec (.prb r optW optI seg a b) s) s 13 none none none)

/-- The TLB that the option T of ITLB and PTLB names. -/
def namedTlb (s : State) (optT : Bool) : List TlbEntry := if optT then s.dtlb else s.itlb

/-- ITLB in privileged mode: the page is mapped as the argument word says; every other page is mapped as before, but that a full TLB
may lose one of them (45_system_control.md R375, 20_memory.md R114: decisions D13, D24 and D33 of the spec, logs 9, 21 and 28). -/
def Obligations.InsertTlbResult : Prop :=
  ∀ (s : State) (r a b : BitVec 4) (optT : Bool) (seg : SegId) (page : Page) (w : Word), s.pswX = false → a.toNat < 8 →
    seg = s.readSr (a.setWidth 3) → page = field (s.readGr b) 0 18 → w = s.readGr r →
    (seg = 0 → field w 12 20 = page.setWidth 20) →
    ∃ t, exec (.itlb r optT a b) s = .next t ∧
      tlbLookup (namedTlb t optT) seg page = some ⟨true, flag w 1, flag w 2, flag w 3, flag w 4,
        ⟨PageType.ofBits (field w 8 2), flag w 10, flag w 11⟩, seg, page, field w 12 20⟩ ∧
      (s.Inv → ∃ lost : SegId × Page, ∀ seg' page', (seg', page') ≠ (seg, page) →
        ((seg', page') ≠ lost ∨ (namedTlb s optT).length < 256 ∨ tlbLookup (namedTlb s optT) seg page ≠ none) →
        tlbLookup (namedTlb t optT) seg' page' = tlbLookup (namedTlb s optT) seg' page') ∧
      Ends (fun p => p = (if optT then .dtlb else .itlb) ∨ p = .freeValues) s t

/-- PTLB in privileged mode: the page has no entry, every other page keeps its own, and the base is updated under M
(45_system_control.md R380: decision D33 of the spec, log 28). -/
def Obligations.PurgeTlbResult : Prop :=
  ∀ (s : State) (a b : BitVec 4) (optT optM : Bool) (seg : BitVec 2) (ofs : Word), s.pswX = false →
    ofs = (if optM = false ∨ (s.readGr a).toInt < 0 then s.readGr b + s.readGr a else s.readGr b) →
    ∃ t, exec (.ptlb optT optM seg a b) s = .next t ∧
      tlbLookup (namedTlb t optT) (s.readSr (segReg seg ofs)) (pageOf ofs) = none ∧
      (∀ seg' page', (seg', page') ≠ (s.readSr (segReg seg ofs), pageOf ofs) →
        tlbLookup (namedTlb t optT) seg' page' = tlbLookup (namedTlb s optT) seg' page') ∧
      (optM = true → t.readGr b = written b (s.readGr b + s.readGr a)) ∧
      Ends (fun p => p = (if optT then .dtlb else .itlb) ∨ (optM = true ∧ isGr b p)) s t

/-- The physical address of the line PCA names: by the entry of the TLB that T names, or the offset with that translation off
(45_system_control.md R385, R386, 20_memory.md R126). -/
def LineAddress (s : State) (optT : Bool) (seg : SegId) (ofs : Word) (pa : PAddr) : Prop :=
  if (if optT then s.pswD else s.pswC) = true then
    ∃ e, tlbLookup (namedTlb s optT) seg (pageOf ofs) = some e ∧ pa = e.physical ofs
  else pa = ofs.setWidth 34

/-- What a cache history holds of every line but that of `pa`. -/
def otherLines (pa : PAddr) (l : List OldWord) : List OldWord := l.filter (fun o => lineOf o.addr != lineOf pa.toNat)

/-- The present content of a word of the line of `pa` that has unflushed stores (20_memory.md R123 c). -/
def Unflushed (s : State) (pa : PAddr) (o : OldWord) : Prop :=
  lineOf o.addr = lineOf pa.toNat ∧ (∃ x ∈ s.dOld, x.addr = o.addr) ∧ o = oldWordAt s.mem o.addr

/-- PCA in privileged mode acts on one cache line and no other (45_system_control.md R385, R386, 20_memory.md R121, R123, R126:
decisions D15 and D33 of the spec, logs 11 and 28). With T = 0 no byte of memory changes, and of the line the instruction cache keeps
what the data cache has not flushed. With T = 1 and F = 1 no byte of memory and nothing of the instruction cache changes, and the line
has no unflushed stores left. With T = 1 and F = 0, in a state that meets the invariant, each byte of the line's words with unflushed
stores stays or takes a value it held since its last flush, every other byte stays, and both caches keep what they had and remember what
those words held. What the caches hold of another line is the same in every case, and under M the base is updated. Without the TLB
entry it needs PCA takes trap 10 or 13. -/
def Obligations.PurgeCacheResult : Prop :=
  ∀ (s : State) (a b : BitVec 4) (optT optM optF : Bool) (seg : BitVec 2) (ofs : Word), s.pswX = false →
    ofs = (if optM = false ∨ (s.readGr a).toInt < 0 then s.readGr b + s.readGr a else s.readGr b) →
    (∀ pa, LineAddress s optT (s.readSr (segReg seg ofs)) ofs pa →
      ∃ t, exec (.pca optT optM seg optF a b) s = .next t ∧
        (optM = true → t.readGr b = written b (s.readGr b + s.readGr a)) ∧
        Ends (fun p => (optM = true ∧ isGr b p) ∨ ((optT = false ∨ optF = false) ∧ p = .instrCache) ∨
          (optT = true ∧ p = .dataCache) ∨
          (optT = true ∧ optF = false ∧ ((∃ x, p = .mem x) ∨ p = .freeValues))) s t ∧
        otherLines pa t.iOld = otherLines pa s.iOld ∧ otherLines pa t.dOld = otherLines pa s.dOld ∧
        (optT = false → ∀ o, lineOf o.addr = lineOf pa.toNat → (o ∈ t.iOld ↔ o ∈ s.dOld)) ∧
        (optT = true → optF = true → ∀ o ∈ t.dOld, lineOf o.addr ≠ lineOf pa.toNat) ∧
        (optT = true → optF = false → s.Inv →
          (∀ o, o ∈ t.iOld ↔ o ∈ s.iOld ∨ Unflushed s pa o) ∧ (∀ o, o ∈ t.dOld ↔ o ∈ s.dOld ∨ Unflushed s pa o) ∧
          (∀ x, lineOf x ≠ lineOf pa.toNat → memByte t.mem x = memByte s.mem x) ∧
          ∀ x, memByte t.mem x = memByte s.mem x ∨
            (∃ o ∈ s.dOld, lineOf o.addr = lineOf pa.toNat ∧
              ((x = o.addr ∧ memByte t.mem x = o.b0) ∨ (x = o.addr + 1 ∧ memByte t.mem x = o.b1) ∨
               (x = o.addr + 2 ∧ memByte t.mem x = o.b2) ∨ (x = o.addr + 3 ∧ memByte t.mem x = o.b3))))) ∧
    (optT = false → s.pswC = true → tlbLookup s.itlb (s.readSr (segReg seg ofs)) (pageOf ofs) = none →
      Traps (exec (.pca optT optM seg optF a b) s) s 10 none none none) ∧
    (optT = true → s.pswD = true → tlbLookup s.dtlb (s.readSr (segReg seg ofs)) (pageOf ofs) = none →
      Traps (exec (.pca optT optM seg optF a b) s) s 13 none none none)

/-- DIAG in privileged mode: `GR[r]` receives the implementation's function of `info`, `GR[a]` and `GR[b]`, whatever it is
(45_system_control.md R396: decision D30 of the spec; the function is free, log 26). -/
def Obligations.DiagnoseResult : Prop :=
  ∀ (s : State) (r info a b : BitVec 4), s.pswX = false →
    ∃ t, exec (.diag r info a b) s = .next t ∧ t.readGr r = written r (Config.diagFn info (s.readGr a) (s.readGr b)) ∧
      Ends (isGr r) s t

/-- RFI: the status word and the instruction address from CR17 and CR18, nothing else; trap 6 in user mode (45_system_control.md
R398). -/
def Obligations.ReturnFromInterruptResult : Prop :=
  encode .rfi = 0xFC000000#32 ∧
  ∀ s : State,
    (s.pswX = true → Traps (exec .rfi s) s 6 (some 0xFC000000#32) none none) ∧
    (s.pswX = false → ∃ t, exec .rfi s = .next t ∧ t.psw0 = s.readCr 17 ∧ t.psw1 = alignOfs (s.readCr 18) ∧
      Keeps (isPsw0 0 31) s t)

/-- BRK: a no-operation with both fields zero, else trap 18 with the instruction word (45_system_control.md R400, R401: decision D44 of
the spec, log 33). -/
def Obligations.BreakResult : Prop :=
  ∀ (s : State) (info1 : BitVec 4) (info2 : BitVec 16),
    (info1 = 0 → info2 = 0 → ∃ t, exec (.brk info1 info2) s = .next t ∧ Ends (fun _ => False) s t) ∧
    (¬ (info1 = 0 ∧ info2 = 0) → Traps (exec (.brk info1 info2) s) s 18 (some (encode (.brk info1 info2))) none none)

/-- The forms the spec calls undefined stop by name: a bit field out of range (44_computational_bitfield.md R331, R333: D25, log 22), a
field `a` that names no segment register (R263, R375: D28 and D33, logs 24 and 28), a mapping of segment 0 that is not the identity
(R98: D24, log 21), a TLB entry whose D or B trap has no number (R108: D17, log 13). -/
def Obligations.UndefinedFormsAreRefused : Prop :=
  (∀ (s : State) (r b : BitVec 4) (optS optA : Bool) (len pos : BitVec 5),
    (len = 0 ∨ positionOf s optA pos + 1 < len.toNat) → exec (.extr r optS optA len pos b) s = .refused .bitFieldRange) ∧
  (∀ (s : State) (r b : BitVec 4) (optZ optA optI : Bool) (len pos : BitVec 5),
    (len = 0 ∨ positionOf s optA pos + 1 < len.toNat) → exec (.dep r optZ optA optI len pos b) s = .refused .bitFieldRange) ∧
  (∀ (s : State) (r a b : BitVec 4) (ofs : BitVec 14), s.pswC = true → 8 ≤ a.toNat →
    exec (.be r ofs a b) s = .refused .noSegmentRegister) ∧
  (∀ (s : State) (r a b : BitVec 4) (optT : Bool), s.pswX = false →
    (8 ≤ a.toNat → exec (.itlb r optT a b) s = .refused .noSegmentRegister) ∧
    (a.toNat < 8 → s.readSr (a.setWidth 3) = 0 → field (s.readGr r) 12 20 ≠ (field (s.readGr b) 0 18).setWidth 20 →
      exec (.itlb r optT a b) s = .refused .segmentZeroMapping)) ∧
  (∀ (i : Instr) (s : State) (write : Bool) (seg : SegId) (ofs : Word) (n : Size) (e : TlbEntry),
    accessOf s i = some (write, seg, ofs, n) → ofs.toNat % n.bytes = 0 → s.pswD = true →
    tlbLookup s.dtlb seg (pageOf ofs) = some e →
    (if write then writeAllowed e.rights s.pswX else readAllowed e.rights s.pswX) = true → s.pidRefuses e seg = false →
    e.refTrap = false →
    (write = true → e.dirtyTrap = true → exec i s = .refused .dirtyFlag) ∧
    ((write = true → e.dirtyTrap = false) → e.dataTrap = true → exec i s = .refused .dataReferenceFlag))
end

