-- ==== Sys2Proof/Laws/Memory.lean ====
section
/-! SUPPORT. Bytes of memory: what a read gives after each operation, and that every operation keeps the canonical form. -/

namespace Sys2Proof.Machine

/-- Every address of the memory is above `a`. -/
def memAbove (a : Nat) (m : Memory) : Prop := ∀ c ∈ m, a < c.1

/-- The canonical form, by the head: the other addresses are above it. -/
theorem Memory.wf_cons (c : Host.Cell) (m : Memory) : Memory.wf (c :: m) = true ↔ memAbove c.1 m ∧ Memory.wf m = true := by
  induction m generalizing c with
  | nil => simp [Memory.wf, memAbove]
  | cons d m ih =>
    simp only [Memory.wf, Bool.and_eq_true, decide_eq_true_eq, ih]
    simp only [memAbove, List.mem_cons]
    constructor
    · rintro ⟨h1, h2, h3⟩
      refine ⟨?_, h2, h3⟩
      rintro x (rfl | hx)
      · exact h1
      · exact lt_trans h1 (h2 x hx)
    · rintro ⟨h1, h2, h3⟩
      exact ⟨h1 d (Or.inl rfl), h2, h3⟩

theorem memAbove_memSet {k a : Nat} {m : Memory} {v : Byte} (hk : k < a) (h : memAbove k m) : memAbove k (memSet m a v) := by
  induction m with
  | nil => intro c hc; simp [memSet] at hc; subst hc; exact hk
  | cons d m ih =>
    have hm : memAbove k m := fun c hc => h c (List.mem_cons_of_mem _ hc)
    have hd : k < d.1 := h d List.mem_cons_self
    intro c hc
    simp only [memSet] at hc
    split at hc
    · rcases List.mem_cons.1 hc with rfl | hc
      · exact hk
      · exact hm c hc
    · split at hc
      · rcases List.mem_cons.1 hc with rfl | hc
        · exact hk
        · rcases List.mem_cons.1 hc with rfl | hc
          · exact hd
          · exact hm c hc
      · rcases List.mem_cons.1 hc with rfl | hc
        · exact hd
        · exact ih hm c hc

/-- Writing a byte keeps the canonical form. -/
theorem memSet_wf {m : Memory} (a : Nat) (v : Byte) (h : Memory.wf m = true) : Memory.wf (memSet m a v) = true := by
  induction m with
  | nil => rfl
  | cons d m ih =>
    obtain ⟨h1, h2⟩ := (Memory.wf_cons _ _).1 h
    simp only [memSet]
    split
    · next he => exact (Memory.wf_cons _ _).2 ⟨he ▸ h1, h2⟩
    · split
      · next hlt =>
        refine (Memory.wf_cons _ _).2 ⟨?_, h⟩
        intro c hc
        rcases List.mem_cons.1 hc with rfl | hc
        · exact hlt
        · exact lt_trans hlt (h1 c hc)
      · next hne hge => exact (Memory.wf_cons _ _).2 ⟨memAbove_memSet (by omega) h1, ih h2⟩

theorem mem_of_mem_memClear {m : Memory} {a : Nat} {c : Host.Cell} (h : c ∈ memClear m a) : c ∈ m := by
  induction m with
  | nil => exact h
  | cons d m ih =>
    simp only [memClear] at h
    split at h
    · exact List.mem_cons_of_mem _ h
    · rcases List.mem_cons.1 h with rfl | h
      · exact List.mem_cons_self
      · exact List.mem_cons_of_mem _ (ih h)

/-- Removing a byte keeps the canonical form. -/
theorem memClear_wf {m : Memory} (a : Nat) (h : Memory.wf m = true) : Memory.wf (memClear m a) = true := by
  induction m with
  | nil => rfl
  | cons d m ih =>
    obtain ⟨h1, h2⟩ := (Memory.wf_cons _ _).1 h
    simp only [memClear]
    split
    · exact h2
    · exact (Memory.wf_cons _ _).2 ⟨fun c hc => h1 c (mem_of_mem_memClear hc), ih h2⟩

theorem memPut_wf {m : Memory} (a : Nat) (v : Option Byte) (h : Memory.wf m = true) : Memory.wf (memPut m a v) = true := by
  cases v with
  | none => exact memClear_wf a h
  | some b => exact memSet_wf a b h

theorem memSetAll_wf {m : Memory} (a : Nat) (bs : List Byte) (h : Memory.wf m = true) : Memory.wf (memSetAll m a bs) = true := by
  induction bs generalizing m a with
  | nil => exact h
  | cons b bs ih => exact ih _ (memSet_wf a b h)

/-- The memory after reset is in canonical form. -/
theorem reset_memory_wf : Memory.wf State.reset.mem = true := rfl

/-- A byte reads as written. -/
@[simp] theorem memByte_memSet_same (m : Memory) (a : Nat) (v : Byte) : memByte (memSet m a v) a = some v := by
  induction m with
  | nil => simp [memSet, memByte]
  | cons d m ih =>
    simp only [memSet]
    split
    · simp [memByte]
    · split
      · simp [memByte]
      · next hne _ => simp [memByte, hne, ih]

/-- Writing a byte leaves every other byte alone. -/
theorem memByte_memSet_other (m : Memory) {a x : Nat} (v : Byte) (h : x ≠ a) : memByte (memSet m a v) x = memByte m x := by
  induction m with
  | nil => simp [memSet, memByte, Ne.symm h]
  | cons d m ih =>
    simp only [memSet]
    split
    · next he => simp [memByte, he, Ne.symm h]
    · split
      · simp [memByte, Ne.symm h]
      · simp [memByte, ih]

theorem memByte_eq_none_of_above {m : Memory} {a : Nat} (h : memAbove a m) : memByte m a = none := by
  induction m with
  | nil => rfl
  | cons d m ih =>
    have hd : a < d.1 := h d List.mem_cons_self
    have : d.1 ≠ a := by omega
    simp [memByte, this, ih (fun c hc => h c (List.mem_cons_of_mem _ hc))]

/-- A removed byte has no value, in a memory in canonical form. -/
theorem memByte_memClear_same {m : Memory} (a : Nat) (h : Memory.wf m = true) : memByte (memClear m a) a = none := by
  induction m with
  | nil => rfl
  | cons d m ih =>
    obtain ⟨h1, h2⟩ := (Memory.wf_cons _ _).1 h
    simp only [memClear]
    split
    · next he => exact memByte_eq_none_of_above (he ▸ h1)
    · next hne => simp [memByte, hne, ih h2]

/-- Removing a byte leaves every other byte alone. -/
theorem memByte_memClear_other (m : Memory) {a x : Nat} (h : x ≠ a) : memByte (memClear m a) x = memByte m x := by
  induction m with
  | nil => rfl
  | cons d m ih =>
    simp only [memClear]
    split
    · next he => simp [memByte, he, Ne.symm h]
    · simp [memByte, ih]

/-- Storing bytes leaves every byte outside them alone. -/
theorem memByte_memSetAll_other (m : Memory) (a : Nat) (bs : List Byte) {x : Nat} (h : ¬ (a ≤ x ∧ x < a + bs.length)) :
    memByte (memSetAll m a bs) x = memByte m x := by
  induction bs generalizing m a with
  | nil => rfl
  | cons b bs ih =>
    simp only [memSetAll, List.length_cons] at h ⊢
    rw [ih _ _ (by omega), memByte_memSet_other _ _ (by omega)]

/-- Stored bytes read as stored. -/
theorem memByte_memSetAll_same (m : Memory) (a : Nat) (bs : List Byte) {k : Nat} (h : k < bs.length) :
    memByte (memSetAll m a bs) (a + k) = some bs[k] := by
  induction bs generalizing m a k with
  | nil => simp at h
  | cons b bs ih =>
    cases k with
    | zero =>
      simp only [memSetAll, Nat.add_zero, List.getElem_cons_zero]
      rw [memByte_memSetAll_other _ _ _ (by omega)]
      simp
    | succ k =>
      have := ih (memSet m a b) (a + 1) (k := k) (by simpa using h)
      simpa [memSetAll, Nat.add_assoc, Nat.add_comm 1 k] using this

end Sys2Proof.Machine
end

