-- ==== Sys2Proof/Laws/Ops.lean ====
section
/-! SUPPORT. How an instruction ends: every outcome of `conclude`, of the tests that begin an instruction, and of the traps after
completion, none of which is set in this configuration. -/

namespace Sys2Proof.Machine

@[simp] theorem afterTrap_none (instr : Word) (s t : State) : afterTrap instr s ⟨t, none, none⟩ = none := by
  unfold afterTrap Config.trapSingleStep; simp

@[simp] theorem takenBranchTrap_none (s : State) (instr : Word) : s.takenBranchTrap instr = none := rfl

/-- A completed instruction gives its state. -/
@[simp] theorem conclude_ok (instr : Word) (s t : State) : conclude instr s (.ok ⟨t, none, none⟩) = .next t := by
  simp [conclude]

@[simp] theorem conclude_done (instr : Word) (s t : State) : conclude instr s (done t) = .next t := conclude_ok instr s t

@[simp] theorem conclude_trap (instr : Word) (s : State) (t : Trap) :
    conclude instr s (.error (.trap t)) = .next (s.takeTrap t) := rfl

@[simp] theorem conclude_fault (instr : Word) (s : State) (f : Fault) : conclude instr s (.error (.fault f)) = .fault f := rfl

@[simp] theorem conclude_refuse (instr : Word) (s : State) (r : Refusal) :
    conclude instr s (.error (.refuse r)) = .refused r := rfl

/-- Everything an instruction's end can do, where no trap after completion is set: a next state is the instruction's own, or trap entry
from the state the instruction began in. -/
theorem conclude_next {instr : Word} {s t : State} {r : Except Stop Done} (h : conclude instr s r = .next t)
    (hd : ∀ d, r = .ok d → d.dataRef = none ∧ d.takenBranch = none) :
    (∃ d, r = .ok d ∧ t = d.state) ∨ (∃ tr, r = .error (.trap tr) ∧ t = s.takeTrap tr) := by
  match r, h, hd with
  | .ok d, h, hd =>
    obtain ⟨u, dr, tb⟩ := d
    obtain ⟨rfl, rfl⟩ := hd _ rfl
    rw [conclude_ok] at h
    exact .inl ⟨_, rfl, by cases h; rfl⟩
  | .error (.trap tr), h, _ => exact .inr ⟨tr, rfl, by cases h; rfl⟩
  | .error (.fault f), h, _ => cases h
  | .error (.refuse f), h, _ => cases h

@[simp] theorem needPrivilege_privileged {instr : Word} {s : State} (h : s.pswX = false) : needPrivilege instr s = .ok () := by
  simp [needPrivilege, h]

@[simp] theorem needPrivilege_user {instr : Word} {s : State} (h : s.pswX = true) :
    needPrivilege instr s = .error (.trap (instrTrap .privilegedOperation instr)) := by
  simp [needPrivilege, h]

@[simp] theorem needOrRefuse_true (r : Refusal) : needOrRefuse true r = .ok () := rfl
@[simp] theorem needOrRefuse_false (r : Refusal) : needOrRefuse false r = .error (.refuse r) := rfl
@[simp] theorem trapIf_false (t : Trap) : trapIf false t = .ok () := rfl
@[simp] theorem trapIf_true (t : Trap) : trapIf true t = .error (.trap t) := rfl

/-- A sequence of two steps of an instruction succeeds only if both do. -/
theorem bind_eq_ok {α β : Type} {x : Except Stop α} {f : α → Except Stop β} {b : β} :
    (x >>= f) = .ok b ↔ ∃ a, x = .ok a ∧ f a = .ok b := by
  cases x with
  | ok a => exact ⟨fun h => ⟨a, rfl, h⟩, by rintro ⟨a', ha, hb⟩; cases ha; exact hb⟩
  | error e =>
    constructor
    · intro h; cases h
    · rintro ⟨a', ha, _⟩; cases ha

@[simp] theorem ok_bind {α β : Type} (a : α) (f : α → Except Stop β) : ((.ok a : Except Stop α) >>= f) = f a := rfl
@[simp] theorem error_bind {α β : Type} (e : Stop) (f : α → Except Stop β) : ((.error e : Except Stop α) >>= f) = .error e := rfl

theorem needPrivilege_ok {instr : Word} {s : State} {u : Unit} (h : needPrivilege instr s = .ok u) : s.pswX = false := by
  unfold needPrivilege at h; split at h
  · cases h
  · next hx => simpa using hx

theorem needOrRefuse_ok {ok : Bool} {r : Refusal} {u : Unit} (h : needOrRefuse ok r = .ok u) : ok = true := by
  cases ok
  · cases h
  · rfl

theorem trapIf_ok {bad : Bool} {t : Trap} {u : Unit} (h : trapIf bad t = .ok u) : bad = false := by
  cases bad
  · rfl
  · cases h

end Sys2Proof.Machine
end

