-- ==== Sys2Proof/Laws/State.lean ====
section
/-! SUPPORT. Every field of State after every named update, so that no proof unfolds a record update. -/

namespace Sys2Proof.Machine

@[simp] theorem State.writeGr_gr (s : State) (r : BitVec 4) (v : Word) :
    (s.writeGr r v).gr = if r = 0 then s.gr else s.gr.set r.toNat v (r.isLt) := rfl
@[simp] theorem State.writeGr_sr (s : State) (r : BitVec 4) (v : Word) :
    (s.writeGr r v).sr = s.sr := rfl
@[simp] theorem State.writeGr_psw0 (s : State) (r : BitVec 4) (v : Word) :
    (s.writeGr r v).psw0 = s.psw0 := rfl
@[simp] theorem State.writeGr_psw1 (s : State) (r : BitVec 4) (v : Word) :
    (s.writeGr r v).psw1 = s.psw1 := rfl
@[simp] theorem State.writeGr_cr (s : State) (r : BitVec 4) (v : Word) :
    (s.writeGr r v).cr = s.cr := rfl
@[simp] theorem State.writeGr_itlb (s : State) (r : BitVec 4) (v : Word) :
    (s.writeGr r v).itlb = s.itlb := rfl
@[simp] theorem State.writeGr_dtlb (s : State) (r : BitVec 4) (v : Word) :
    (s.writeGr r v).dtlb = s.dtlb := rfl
@[simp] theorem State.writeGr_mem (s : State) (r : BitVec 4) (v : Word) :
    (s.writeGr r v).mem = s.mem := rfl
@[simp] theorem State.writeGr_iOld (s : State) (r : BitVec 4) (v : Word) :
    (s.writeGr r v).iOld = s.iOld := rfl
@[simp] theorem State.writeGr_dOld (s : State) (r : BitVec 4) (v : Word) :
    (s.writeGr r v).dOld = s.dOld := rfl
@[simp] theorem State.writeGr_lrValid (s : State) (r : BitVec 4) (v : Word) :
    (s.writeGr r v).lrValid = s.lrValid := rfl
@[simp] theorem State.writeGr_lrAddr (s : State) (r : BitVec 4) (v : Word) :
    (s.writeGr r v).lrAddr = s.lrAddr := rfl
@[simp] theorem State.writeGr_machineCheck (s : State) (r : BitVec 4) (v : Word) :
    (s.writeGr r v).machineCheck = s.machineCheck := rfl
@[simp] theorem State.writeGr_powerFail (s : State) (r : BitVec 4) (v : Word) :
    (s.writeGr r v).powerFail = s.powerFail := rfl
@[simp] theorem State.writeGr_extPending (s : State) (r : BitVec 4) (v : Word) :
    (s.writeGr r v).extPending = s.extPending := rfl
@[simp] theorem State.writeGr_freeCount (s : State) (r : BitVec 4) (v : Word) :
    (s.writeGr r v).freeCount = s.freeCount := rfl

@[simp] theorem State.writeSr_gr (s : State) (n : BitVec 3) (v : SegId) :
    (s.writeSr n v).gr = s.gr := rfl
@[simp] theorem State.writeSr_sr (s : State) (n : BitVec 3) (v : SegId) :
    (s.writeSr n v).sr = s.sr.set n.toNat v (n.isLt) := rfl
@[simp] theorem State.writeSr_psw0 (s : State) (n : BitVec 3) (v : SegId) :
    (s.writeSr n v).psw0 = s.psw0 := rfl
@[simp] theorem State.writeSr_psw1 (s : State) (n : BitVec 3) (v : SegId) :
    (s.writeSr n v).psw1 = s.psw1 := rfl
@[simp] theorem State.writeSr_cr (s : State) (n : BitVec 3) (v : SegId) :
    (s.writeSr n v).cr = s.cr := rfl
@[simp] theorem State.writeSr_itlb (s : State) (n : BitVec 3) (v : SegId) :
    (s.writeSr n v).itlb = s.itlb := rfl
@[simp] theorem State.writeSr_dtlb (s : State) (n : BitVec 3) (v : SegId) :
    (s.writeSr n v).dtlb = s.dtlb := rfl
@[simp] theorem State.writeSr_mem (s : State) (n : BitVec 3) (v : SegId) :
    (s.writeSr n v).mem = s.mem := rfl
@[simp] theorem State.writeSr_iOld (s : State) (n : BitVec 3) (v : SegId) :
    (s.writeSr n v).iOld = s.iOld := rfl
@[simp] theorem State.writeSr_dOld (s : State) (n : BitVec 3) (v : SegId) :
    (s.writeSr n v).dOld = s.dOld := rfl
@[simp] theorem State.writeSr_lrValid (s : State) (n : BitVec 3) (v : SegId) :
    (s.writeSr n v).lrValid = s.lrValid := rfl
@[simp] theorem State.writeSr_lrAddr (s : State) (n : BitVec 3) (v : SegId) :
    (s.writeSr n v).lrAddr = s.lrAddr := rfl
@[simp] theorem State.writeSr_machineCheck (s : State) (n : BitVec 3) (v : SegId) :
    (s.writeSr n v).machineCheck = s.machineCheck := rfl
@[simp] theorem State.writeSr_powerFail (s : State) (n : BitVec 3) (v : SegId) :
    (s.writeSr n v).powerFail = s.powerFail := rfl
@[simp] theorem State.writeSr_extPending (s : State) (n : BitVec 3) (v : SegId) :
    (s.writeSr n v).extPending = s.extPending := rfl
@[simp] theorem State.writeSr_freeCount (s : State) (n : BitVec 3) (v : SegId) :
    (s.writeSr n v).freeCount = s.freeCount := rfl

@[simp] theorem State.writeCr_gr (s : State) (n : BitVec 5) (v : Word) :
    (s.writeCr n v).gr = s.gr := rfl
@[simp] theorem State.writeCr_sr (s : State) (n : BitVec 5) (v : Word) :
    (s.writeCr n v).sr = s.sr := rfl
@[simp] theorem State.writeCr_psw0 (s : State) (n : BitVec 5) (v : Word) :
    (s.writeCr n v).psw0 = s.psw0 := rfl
@[simp] theorem State.writeCr_psw1 (s : State) (n : BitVec 5) (v : Word) :
    (s.writeCr n v).psw1 = s.psw1 := rfl
@[simp] theorem State.writeCr_cr (s : State) (n : BitVec 5) (v : Word) :
    (s.writeCr n v).cr = s.cr.set n.toNat (if n = 2 then v &&& 0x1F#32 else v) (n.isLt) := rfl
@[simp] theorem State.writeCr_itlb (s : State) (n : BitVec 5) (v : Word) :
    (s.writeCr n v).itlb = s.itlb := rfl
@[simp] theorem State.writeCr_dtlb (s : State) (n : BitVec 5) (v : Word) :
    (s.writeCr n v).dtlb = s.dtlb := rfl
@[simp] theorem State.writeCr_mem (s : State) (n : BitVec 5) (v : Word) :
    (s.writeCr n v).mem = s.mem := rfl
@[simp] theorem State.writeCr_iOld (s : State) (n : BitVec 5) (v : Word) :
    (s.writeCr n v).iOld = s.iOld := rfl
@[simp] theorem State.writeCr_dOld (s : State) (n : BitVec 5) (v : Word) :
    (s.writeCr n v).dOld = s.dOld := rfl
@[simp] theorem State.writeCr_lrValid (s : State) (n : BitVec 5) (v : Word) :
    (s.writeCr n v).lrValid = s.lrValid := rfl
@[simp] theorem State.writeCr_lrAddr (s : State) (n : BitVec 5) (v : Word) :
    (s.writeCr n v).lrAddr = s.lrAddr := rfl
@[simp] theorem State.writeCr_machineCheck (s : State) (n : BitVec 5) (v : Word) :
    (s.writeCr n v).machineCheck = s.machineCheck := rfl
@[simp] theorem State.writeCr_powerFail (s : State) (n : BitVec 5) (v : Word) :
    (s.writeCr n v).powerFail = s.powerFail := rfl
@[simp] theorem State.writeCr_extPending (s : State) (n : BitVec 5) (v : Word) :
    (s.writeCr n v).extPending = s.extPending := rfl
@[simp] theorem State.writeCr_freeCount (s : State) (n : BitVec 5) (v : Word) :
    (s.writeCr n v).freeCount = s.freeCount := rfl

@[simp] theorem State.setX_gr (s : State) (v : Bool) :
    (s.setX v).gr = s.gr := rfl
@[simp] theorem State.setX_sr (s : State) (v : Bool) :
    (s.setX v).sr = s.sr := rfl
@[simp] theorem State.setX_psw0 (s : State) (v : Bool) :
    (s.setX v).psw0 = setFlag s.psw0 1 v := rfl
@[simp] theorem State.setX_psw1 (s : State) (v : Bool) :
    (s.setX v).psw1 = s.psw1 := rfl
@[simp] theorem State.setX_cr (s : State) (v : Bool) :
    (s.setX v).cr = s.cr := rfl
@[simp] theorem State.setX_itlb (s : State) (v : Bool) :
    (s.setX v).itlb = s.itlb := rfl
@[simp] theorem State.setX_dtlb (s : State) (v : Bool) :
    (s.setX v).dtlb = s.dtlb := rfl
@[simp] theorem State.setX_mem (s : State) (v : Bool) :
    (s.setX v).mem = s.mem := rfl
@[simp] theorem State.setX_iOld (s : State) (v : Bool) :
    (s.setX v).iOld = s.iOld := rfl
@[simp] theorem State.setX_dOld (s : State) (v : Bool) :
    (s.setX v).dOld = s.dOld := rfl
@[simp] theorem State.setX_lrValid (s : State) (v : Bool) :
    (s.setX v).lrValid = s.lrValid := rfl
@[simp] theorem State.setX_lrAddr (s : State) (v : Bool) :
    (s.setX v).lrAddr = s.lrAddr := rfl
@[simp] theorem State.setX_machineCheck (s : State) (v : Bool) :
    (s.setX v).machineCheck = s.machineCheck := rfl
@[simp] theorem State.setX_powerFail (s : State) (v : Bool) :
    (s.setX v).powerFail = s.powerFail := rfl
@[simp] theorem State.setX_extPending (s : State) (v : Bool) :
    (s.setX v).extPending = s.extPending := rfl
@[simp] theorem State.setX_freeCount (s : State) (v : Bool) :
    (s.setX v).freeCount = s.freeCount := rfl

@[simp] theorem State.setCB_gr (s : State) (v : Bool) :
    (s.setCB v).gr = s.gr := rfl
@[simp] theorem State.setCB_sr (s : State) (v : Bool) :
    (s.setCB v).sr = s.sr := rfl
@[simp] theorem State.setCB_psw0 (s : State) (v : Bool) :
    (s.setCB v).psw0 = setFlag s.psw0 5 v := rfl
@[simp] theorem State.setCB_psw1 (s : State) (v : Bool) :
    (s.setCB v).psw1 = s.psw1 := rfl
@[simp] theorem State.setCB_cr (s : State) (v : Bool) :
    (s.setCB v).cr = s.cr := rfl
@[simp] theorem State.setCB_itlb (s : State) (v : Bool) :
    (s.setCB v).itlb = s.itlb := rfl
@[simp] theorem State.setCB_dtlb (s : State) (v : Bool) :
    (s.setCB v).dtlb = s.dtlb := rfl
@[simp] theorem State.setCB_mem (s : State) (v : Bool) :
    (s.setCB v).mem = s.mem := rfl
@[simp] theorem State.setCB_iOld (s : State) (v : Bool) :
    (s.setCB v).iOld = s.iOld := rfl
@[simp] theorem State.setCB_dOld (s : State) (v : Bool) :
    (s.setCB v).dOld = s.dOld := rfl
@[simp] theorem State.setCB_lrValid (s : State) (v : Bool) :
    (s.setCB v).lrValid = s.lrValid := rfl
@[simp] theorem State.setCB_lrAddr (s : State) (v : Bool) :
    (s.setCB v).lrAddr = s.lrAddr := rfl
@[simp] theorem State.setCB_machineCheck (s : State) (v : Bool) :
    (s.setCB v).machineCheck = s.machineCheck := rfl
@[simp] theorem State.setCB_powerFail (s : State) (v : Bool) :
    (s.setCB v).powerFail = s.powerFail := rfl
@[simp] theorem State.setCB_extPending (s : State) (v : Bool) :
    (s.setCB v).extPending = s.extPending := rfl
@[simp] theorem State.setCB_freeCount (s : State) (v : Bool) :
    (s.setCB v).freeCount = s.freeCount := rfl

@[simp] theorem State.setSeg_gr (s : State) (v : SegId) :
    (s.setSeg v).gr = s.gr := rfl
@[simp] theorem State.setSeg_sr (s : State) (v : SegId) :
    (s.setSeg v).sr = s.sr := rfl
@[simp] theorem State.setSeg_psw0 (s : State) (v : SegId) :
    (s.setSeg v).psw0 = field s.psw0 0 16 ++ v := rfl
@[simp] theorem State.setSeg_psw1 (s : State) (v : SegId) :
    (s.setSeg v).psw1 = s.psw1 := rfl
@[simp] theorem State.setSeg_cr (s : State) (v : SegId) :
    (s.setSeg v).cr = s.cr := rfl
@[simp] theorem State.setSeg_itlb (s : State) (v : SegId) :
    (s.setSeg v).itlb = s.itlb := rfl
@[simp] theorem State.setSeg_dtlb (s : State) (v : SegId) :
    (s.setSeg v).dtlb = s.dtlb := rfl
@[simp] theorem State.setSeg_mem (s : State) (v : SegId) :
    (s.setSeg v).mem = s.mem := rfl
@[simp] theorem State.setSeg_iOld (s : State) (v : SegId) :
    (s.setSeg v).iOld = s.iOld := rfl
@[simp] theorem State.setSeg_dOld (s : State) (v : SegId) :
    (s.setSeg v).dOld = s.dOld := rfl
@[simp] theorem State.setSeg_lrValid (s : State) (v : SegId) :
    (s.setSeg v).lrValid = s.lrValid := rfl
@[simp] theorem State.setSeg_lrAddr (s : State) (v : SegId) :
    (s.setSeg v).lrAddr = s.lrAddr := rfl
@[simp] theorem State.setSeg_machineCheck (s : State) (v : SegId) :
    (s.setSeg v).machineCheck = s.machineCheck := rfl
@[simp] theorem State.setSeg_powerFail (s : State) (v : SegId) :
    (s.setSeg v).powerFail = s.powerFail := rfl
@[simp] theorem State.setSeg_extPending (s : State) (v : SegId) :
    (s.setSeg v).extPending = s.extPending := rfl
@[simp] theorem State.setSeg_freeCount (s : State) (v : SegId) :
    (s.setSeg v).freeCount = s.freeCount := rfl

@[simp] theorem State.setMask_gr (s : State) (v : BitVec 4) :
    (s.setMask v).gr = s.gr := rfl
@[simp] theorem State.setMask_sr (s : State) (v : BitVec 4) :
    (s.setMask v).sr = s.sr := rfl
@[simp] theorem State.setMask_psw0 (s : State) (v : BitVec 4) :
    (s.setMask v).psw0 = field s.psw0 0 12 ++ v ++ field s.psw0 16 16 := rfl
@[simp] theorem State.setMask_psw1 (s : State) (v : BitVec 4) :
    (s.setMask v).psw1 = s.psw1 := rfl
@[simp] theorem State.setMask_cr (s : State) (v : BitVec 4) :
    (s.setMask v).cr = s.cr := rfl
@[simp] theorem State.setMask_itlb (s : State) (v : BitVec 4) :
    (s.setMask v).itlb = s.itlb := rfl
@[simp] theorem State.setMask_dtlb (s : State) (v : BitVec 4) :
    (s.setMask v).dtlb = s.dtlb := rfl
@[simp] theorem State.setMask_mem (s : State) (v : BitVec 4) :
    (s.setMask v).mem = s.mem := rfl
@[simp] theorem State.setMask_iOld (s : State) (v : BitVec 4) :
    (s.setMask v).iOld = s.iOld := rfl
@[simp] theorem State.setMask_dOld (s : State) (v : BitVec 4) :
    (s.setMask v).dOld = s.dOld := rfl
@[simp] theorem State.setMask_lrValid (s : State) (v : BitVec 4) :
    (s.setMask v).lrValid = s.lrValid := rfl
@[simp] theorem State.setMask_lrAddr (s : State) (v : BitVec 4) :
    (s.setMask v).lrAddr = s.lrAddr := rfl
@[simp] theorem State.setMask_machineCheck (s : State) (v : BitVec 4) :
    (s.setMask v).machineCheck = s.machineCheck := rfl
@[simp] theorem State.setMask_powerFail (s : State) (v : BitVec 4) :
    (s.setMask v).powerFail = s.powerFail := rfl
@[simp] theorem State.setMask_extPending (s : State) (v : BitVec 4) :
    (s.setMask v).extPending = s.extPending := rfl
@[simp] theorem State.setMask_freeCount (s : State) (v : BitVec 4) :
    (s.setMask v).freeCount = s.freeCount := rfl

@[simp] theorem State.setPc_gr (s : State) (t : Word) :
    (s.setPc t).gr = s.gr := rfl
@[simp] theorem State.setPc_sr (s : State) (t : Word) :
    (s.setPc t).sr = s.sr := rfl
@[simp] theorem State.setPc_psw0 (s : State) (t : Word) :
    (s.setPc t).psw0 = s.psw0 := rfl
@[simp] theorem State.setPc_psw1 (s : State) (t : Word) :
    (s.setPc t).psw1 = alignOfs t := rfl
@[simp] theorem State.setPc_cr (s : State) (t : Word) :
    (s.setPc t).cr = s.cr := rfl
@[simp] theorem State.setPc_itlb (s : State) (t : Word) :
    (s.setPc t).itlb = s.itlb := rfl
@[simp] theorem State.setPc_dtlb (s : State) (t : Word) :
    (s.setPc t).dtlb = s.dtlb := rfl
@[simp] theorem State.setPc_mem (s : State) (t : Word) :
    (s.setPc t).mem = s.mem := rfl
@[simp] theorem State.setPc_iOld (s : State) (t : Word) :
    (s.setPc t).iOld = s.iOld := rfl
@[simp] theorem State.setPc_dOld (s : State) (t : Word) :
    (s.setPc t).dOld = s.dOld := rfl
@[simp] theorem State.setPc_lrValid (s : State) (t : Word) :
    (s.setPc t).lrValid = s.lrValid := rfl
@[simp] theorem State.setPc_lrAddr (s : State) (t : Word) :
    (s.setPc t).lrAddr = s.lrAddr := rfl
@[simp] theorem State.setPc_machineCheck (s : State) (t : Word) :
    (s.setPc t).machineCheck = s.machineCheck := rfl
@[simp] theorem State.setPc_powerFail (s : State) (t : Word) :
    (s.setPc t).powerFail = s.powerFail := rfl
@[simp] theorem State.setPc_extPending (s : State) (t : Word) :
    (s.setPc t).extPending = s.extPending := rfl
@[simp] theorem State.setPc_freeCount (s : State) (t : Word) :
    (s.setPc t).freeCount = s.freeCount := rfl

@[simp] theorem State.advance_gr (s : State) :
    (s.advance).gr = s.gr := rfl
@[simp] theorem State.advance_sr (s : State) :
    (s.advance).sr = s.sr := rfl
@[simp] theorem State.advance_psw0 (s : State) :
    (s.advance).psw0 = s.psw0 := rfl
@[simp] theorem State.advance_psw1 (s : State) :
    (s.advance).psw1 = alignOfs (s.psw1 + 4#32) := rfl
@[simp] theorem State.advance_cr (s : State) :
    (s.advance).cr = s.cr := rfl
@[simp] theorem State.advance_itlb (s : State) :
    (s.advance).itlb = s.itlb := rfl
@[simp] theorem State.advance_dtlb (s : State) :
    (s.advance).dtlb = s.dtlb := rfl
@[simp] theorem State.advance_mem (s : State) :
    (s.advance).mem = s.mem := rfl
@[simp] theorem State.advance_iOld (s : State) :
    (s.advance).iOld = s.iOld := rfl
@[simp] theorem State.advance_dOld (s : State) :
    (s.advance).dOld = s.dOld := rfl
@[simp] theorem State.advance_lrValid (s : State) :
    (s.advance).lrValid = s.lrValid := rfl
@[simp] theorem State.advance_lrAddr (s : State) :
    (s.advance).lrAddr = s.lrAddr := rfl
@[simp] theorem State.advance_machineCheck (s : State) :
    (s.advance).machineCheck = s.machineCheck := rfl
@[simp] theorem State.advance_powerFail (s : State) :
    (s.advance).powerFail = s.powerFail := rfl
@[simp] theorem State.advance_extPending (s : State) :
    (s.advance).extPending = s.extPending := rfl
@[simp] theorem State.advance_freeCount (s : State) :
    (s.advance).freeCount = s.freeCount := rfl

@[simp] theorem State.takeTrap_gr (s : State) (t : Trap) :
    (s.takeTrap t).gr = s.gr := rfl
@[simp] theorem State.takeTrap_sr (s : State) (t : Trap) :
    (s.takeTrap t).sr = s.sr := rfl
@[simp] theorem State.takeTrap_psw0 (s : State) (t : Trap) :
    (s.takeTrap t).psw0 = 0 := rfl
@[simp] theorem State.takeTrap_psw1 (s : State) (t : Trap) :
    (s.takeTrap t).psw1 = alignOfs (s.vector t.id) := rfl
@[simp] theorem State.takeTrap_itlb (s : State) (t : Trap) :
    (s.takeTrap t).itlb = s.itlb := rfl
@[simp] theorem State.takeTrap_dtlb (s : State) (t : Trap) :
    (s.takeTrap t).dtlb = s.dtlb := rfl
@[simp] theorem State.takeTrap_mem (s : State) (t : Trap) :
    (s.takeTrap t).mem = s.mem := rfl
@[simp] theorem State.takeTrap_iOld (s : State) (t : Trap) :
    (s.takeTrap t).iOld = s.iOld := rfl
@[simp] theorem State.takeTrap_dOld (s : State) (t : Trap) :
    (s.takeTrap t).dOld = s.dOld := rfl
@[simp] theorem State.takeTrap_lrValid (s : State) (t : Trap) :
    (s.takeTrap t).lrValid = s.lrValid := rfl
@[simp] theorem State.takeTrap_lrAddr (s : State) (t : Trap) :
    (s.takeTrap t).lrAddr = s.lrAddr := rfl
@[simp] theorem State.takeTrap_machineCheck (s : State) (t : Trap) :
    (s.takeTrap t).machineCheck = s.machineCheck := rfl
@[simp] theorem State.takeTrap_powerFail (s : State) (t : Trap) :
    (s.takeTrap t).powerFail = s.powerFail := rfl
@[simp] theorem State.takeTrap_extPending (s : State) (t : Trap) :
    (s.takeTrap t).extPending = s.extPending := rfl
@[simp] theorem State.takeTrap_freeCount (s : State) (t : Trap) :
    (s.takeTrap t).freeCount = s.freeCount + t.freeTaken := rfl

@[simp] theorem State.returnFromTrap_gr (s : State) :
    (s.returnFromTrap).gr = s.gr := rfl
@[simp] theorem State.returnFromTrap_sr (s : State) :
    (s.returnFromTrap).sr = s.sr := rfl
@[simp] theorem State.returnFromTrap_psw0 (s : State) :
    (s.returnFromTrap).psw0 = s.readCr 17 := rfl
@[simp] theorem State.returnFromTrap_psw1 (s : State) :
    (s.returnFromTrap).psw1 = alignOfs (s.readCr 18) := rfl
@[simp] theorem State.returnFromTrap_cr (s : State) :
    (s.returnFromTrap).cr = s.cr := rfl
@[simp] theorem State.returnFromTrap_itlb (s : State) :
    (s.returnFromTrap).itlb = s.itlb := rfl
@[simp] theorem State.returnFromTrap_dtlb (s : State) :
    (s.returnFromTrap).dtlb = s.dtlb := rfl
@[simp] theorem State.returnFromTrap_mem (s : State) :
    (s.returnFromTrap).mem = s.mem := rfl
@[simp] theorem State.returnFromTrap_iOld (s : State) :
    (s.returnFromTrap).iOld = s.iOld := rfl
@[simp] theorem State.returnFromTrap_dOld (s : State) :
    (s.returnFromTrap).dOld = s.dOld := rfl
@[simp] theorem State.returnFromTrap_lrValid (s : State) :
    (s.returnFromTrap).lrValid = s.lrValid := rfl
@[simp] theorem State.returnFromTrap_lrAddr (s : State) :
    (s.returnFromTrap).lrAddr = s.lrAddr := rfl
@[simp] theorem State.returnFromTrap_machineCheck (s : State) :
    (s.returnFromTrap).machineCheck = s.machineCheck := rfl
@[simp] theorem State.returnFromTrap_powerFail (s : State) :
    (s.returnFromTrap).powerFail = s.powerFail := rfl
@[simp] theorem State.returnFromTrap_extPending (s : State) :
    (s.returnFromTrap).extPending = s.extPending := rfl
@[simp] theorem State.returnFromTrap_freeCount (s : State) :
    (s.returnFromTrap).freeCount = s.freeCount := rfl

@[simp] theorem State.store_gr (s : State) (pa : PAddr) (n : Size) (v : Word) :
    (s.store pa n v).gr = s.gr := rfl
@[simp] theorem State.store_sr (s : State) (pa : PAddr) (n : Size) (v : Word) :
    (s.store pa n v).sr = s.sr := rfl
@[simp] theorem State.store_psw0 (s : State) (pa : PAddr) (n : Size) (v : Word) :
    (s.store pa n v).psw0 = s.psw0 := rfl
@[simp] theorem State.store_psw1 (s : State) (pa : PAddr) (n : Size) (v : Word) :
    (s.store pa n v).psw1 = s.psw1 := rfl
@[simp] theorem State.store_cr (s : State) (pa : PAddr) (n : Size) (v : Word) :
    (s.store pa n v).cr = s.cr := rfl
@[simp] theorem State.store_itlb (s : State) (pa : PAddr) (n : Size) (v : Word) :
    (s.store pa n v).itlb = s.itlb := rfl
@[simp] theorem State.store_dtlb (s : State) (pa : PAddr) (n : Size) (v : Word) :
    (s.store pa n v).dtlb = s.dtlb := rfl
@[simp] theorem State.store_mem (s : State) (pa : PAddr) (n : Size) (v : Word) :
    (s.store pa n v).mem = memSetAll s.mem pa.toNat (storedBytes v n) := rfl
@[simp] theorem State.store_iOld (s : State) (pa : PAddr) (n : Size) (v : Word) :
    (s.store pa n v).iOld = if cached pa then oldWordAt s.mem (wordAddr pa).toNat :: s.iOld else s.iOld := rfl
@[simp] theorem State.store_dOld (s : State) (pa : PAddr) (n : Size) (v : Word) :
    (s.store pa n v).dOld = if cached pa then oldWordAt s.mem (wordAddr pa).toNat :: s.dOld else s.dOld := rfl
@[simp] theorem State.store_lrValid (s : State) (pa : PAddr) (n : Size) (v : Word) :
    (s.store pa n v).lrValid = (s.lrValid && !(wordAddr pa == s.lrAddr)) := rfl
@[simp] theorem State.store_lrAddr (s : State) (pa : PAddr) (n : Size) (v : Word) :
    (s.store pa n v).lrAddr = s.lrAddr := rfl
@[simp] theorem State.store_machineCheck (s : State) (pa : PAddr) (n : Size) (v : Word) :
    (s.store pa n v).machineCheck = s.machineCheck := rfl
@[simp] theorem State.store_powerFail (s : State) (pa : PAddr) (n : Size) (v : Word) :
    (s.store pa n v).powerFail = s.powerFail := rfl
@[simp] theorem State.store_extPending (s : State) (pa : PAddr) (n : Size) (v : Word) :
    (s.store pa n v).extPending = s.extPending := rfl
@[simp] theorem State.store_freeCount (s : State) (pa : PAddr) (n : Size) (v : Word) :
    (s.store pa n v).freeCount = s.freeCount := rfl

@[simp] theorem State.flushDataLine_gr (s : State) (pa : PAddr) :
    (s.flushDataLine pa).gr = s.gr := rfl
@[simp] theorem State.flushDataLine_sr (s : State) (pa : PAddr) :
    (s.flushDataLine pa).sr = s.sr := rfl
@[simp] theorem State.flushDataLine_psw0 (s : State) (pa : PAddr) :
    (s.flushDataLine pa).psw0 = s.psw0 := rfl
@[simp] theorem State.flushDataLine_psw1 (s : State) (pa : PAddr) :
    (s.flushDataLine pa).psw1 = s.psw1 := rfl
@[simp] theorem State.flushDataLine_cr (s : State) (pa : PAddr) :
    (s.flushDataLine pa).cr = s.cr := rfl
@[simp] theorem State.flushDataLine_itlb (s : State) (pa : PAddr) :
    (s.flushDataLine pa).itlb = s.itlb := rfl
@[simp] theorem State.flushDataLine_dtlb (s : State) (pa : PAddr) :
    (s.flushDataLine pa).dtlb = s.dtlb := rfl
@[simp] theorem State.flushDataLine_mem (s : State) (pa : PAddr) :
    (s.flushDataLine pa).mem = s.mem := rfl
@[simp] theorem State.flushDataLine_iOld (s : State) (pa : PAddr) :
    (s.flushDataLine pa).iOld = s.iOld := rfl
@[simp] theorem State.flushDataLine_dOld (s : State) (pa : PAddr) :
    (s.flushDataLine pa).dOld = s.dOld.filter (fun o => !o.inLine pa) := rfl
@[simp] theorem State.flushDataLine_lrValid (s : State) (pa : PAddr) :
    (s.flushDataLine pa).lrValid = s.lrValid := rfl
@[simp] theorem State.flushDataLine_lrAddr (s : State) (pa : PAddr) :
    (s.flushDataLine pa).lrAddr = s.lrAddr := rfl
@[simp] theorem State.flushDataLine_machineCheck (s : State) (pa : PAddr) :
    (s.flushDataLine pa).machineCheck = s.machineCheck := rfl
@[simp] theorem State.flushDataLine_powerFail (s : State) (pa : PAddr) :
    (s.flushDataLine pa).powerFail = s.powerFail := rfl
@[simp] theorem State.flushDataLine_extPending (s : State) (pa : PAddr) :
    (s.flushDataLine pa).extPending = s.extPending := rfl
@[simp] theorem State.flushDataLine_freeCount (s : State) (pa : PAddr) :
    (s.flushDataLine pa).freeCount = s.freeCount := rfl

@[simp] theorem State.purgeInstrLine_gr (s : State) (pa : PAddr) :
    (s.purgeInstrLine pa).gr = s.gr := rfl
@[simp] theorem State.purgeInstrLine_sr (s : State) (pa : PAddr) :
    (s.purgeInstrLine pa).sr = s.sr := rfl
@[simp] theorem State.purgeInstrLine_psw0 (s : State) (pa : PAddr) :
    (s.purgeInstrLine pa).psw0 = s.psw0 := rfl
@[simp] theorem State.purgeInstrLine_psw1 (s : State) (pa : PAddr) :
    (s.purgeInstrLine pa).psw1 = s.psw1 := rfl
@[simp] theorem State.purgeInstrLine_cr (s : State) (pa : PAddr) :
    (s.purgeInstrLine pa).cr = s.cr := rfl
@[simp] theorem State.purgeInstrLine_itlb (s : State) (pa : PAddr) :
    (s.purgeInstrLine pa).itlb = s.itlb := rfl
@[simp] theorem State.purgeInstrLine_dtlb (s : State) (pa : PAddr) :
    (s.purgeInstrLine pa).dtlb = s.dtlb := rfl
@[simp] theorem State.purgeInstrLine_mem (s : State) (pa : PAddr) :
    (s.purgeInstrLine pa).mem = s.mem := rfl
@[simp] theorem State.purgeInstrLine_iOld (s : State) (pa : PAddr) :
    (s.purgeInstrLine pa).iOld = s.dOld.filter (fun o => o.inLine pa) ++ s.iOld.filter (fun o => !o.inLine pa) := rfl
@[simp] theorem State.purgeInstrLine_dOld (s : State) (pa : PAddr) :
    (s.purgeInstrLine pa).dOld = s.dOld := rfl
@[simp] theorem State.purgeInstrLine_lrValid (s : State) (pa : PAddr) :
    (s.purgeInstrLine pa).lrValid = s.lrValid := rfl
@[simp] theorem State.purgeInstrLine_lrAddr (s : State) (pa : PAddr) :
    (s.purgeInstrLine pa).lrAddr = s.lrAddr := rfl
@[simp] theorem State.purgeInstrLine_machineCheck (s : State) (pa : PAddr) :
    (s.purgeInstrLine pa).machineCheck = s.machineCheck := rfl
@[simp] theorem State.purgeInstrLine_powerFail (s : State) (pa : PAddr) :
    (s.purgeInstrLine pa).powerFail = s.powerFail := rfl
@[simp] theorem State.purgeInstrLine_extPending (s : State) (pa : PAddr) :
    (s.purgeInstrLine pa).extPending = s.extPending := rfl
@[simp] theorem State.purgeInstrLine_freeCount (s : State) (pa : PAddr) :
    (s.purgeInstrLine pa).freeCount = s.freeCount := rfl

@[simp] theorem State.reserve_gr (s : State) (pa : PAddr) :
    (s.reserve pa).gr = s.gr := rfl
@[simp] theorem State.reserve_sr (s : State) (pa : PAddr) :
    (s.reserve pa).sr = s.sr := rfl
@[simp] theorem State.reserve_psw0 (s : State) (pa : PAddr) :
    (s.reserve pa).psw0 = s.psw0 := rfl
@[simp] theorem State.reserve_psw1 (s : State) (pa : PAddr) :
    (s.reserve pa).psw1 = s.psw1 := rfl
@[simp] theorem State.reserve_cr (s : State) (pa : PAddr) :
    (s.reserve pa).cr = s.cr := rfl
@[simp] theorem State.reserve_itlb (s : State) (pa : PAddr) :
    (s.reserve pa).itlb = s.itlb := rfl
@[simp] theorem State.reserve_dtlb (s : State) (pa : PAddr) :
    (s.reserve pa).dtlb = s.dtlb := rfl
@[simp] theorem State.reserve_mem (s : State) (pa : PAddr) :
    (s.reserve pa).mem = s.mem := rfl
@[simp] theorem State.reserve_iOld (s : State) (pa : PAddr) :
    (s.reserve pa).iOld = s.iOld := rfl
@[simp] theorem State.reserve_dOld (s : State) (pa : PAddr) :
    (s.reserve pa).dOld = s.dOld := rfl
@[simp] theorem State.reserve_lrValid (s : State) (pa : PAddr) :
    (s.reserve pa).lrValid = true := rfl
@[simp] theorem State.reserve_lrAddr (s : State) (pa : PAddr) :
    (s.reserve pa).lrAddr = pa := rfl
@[simp] theorem State.reserve_machineCheck (s : State) (pa : PAddr) :
    (s.reserve pa).machineCheck = s.machineCheck := rfl
@[simp] theorem State.reserve_powerFail (s : State) (pa : PAddr) :
    (s.reserve pa).powerFail = s.powerFail := rfl
@[simp] theorem State.reserve_extPending (s : State) (pa : PAddr) :
    (s.reserve pa).extPending = s.extPending := rfl
@[simp] theorem State.reserve_freeCount (s : State) (pa : PAddr) :
    (s.reserve pa).freeCount = s.freeCount := rfl

@[simp] theorem State.dropReservation_gr (s : State) :
    (s.dropReservation).gr = s.gr := rfl
@[simp] theorem State.dropReservation_sr (s : State) :
    (s.dropReservation).sr = s.sr := rfl
@[simp] theorem State.dropReservation_psw0 (s : State) :
    (s.dropReservation).psw0 = s.psw0 := rfl
@[simp] theorem State.dropReservation_psw1 (s : State) :
    (s.dropReservation).psw1 = s.psw1 := rfl
@[simp] theorem State.dropReservation_cr (s : State) :
    (s.dropReservation).cr = s.cr := rfl
@[simp] theorem State.dropReservation_itlb (s : State) :
    (s.dropReservation).itlb = s.itlb := rfl
@[simp] theorem State.dropReservation_dtlb (s : State) :
    (s.dropReservation).dtlb = s.dtlb := rfl
@[simp] theorem State.dropReservation_mem (s : State) :
    (s.dropReservation).mem = s.mem := rfl
@[simp] theorem State.dropReservation_iOld (s : State) :
    (s.dropReservation).iOld = s.iOld := rfl
@[simp] theorem State.dropReservation_dOld (s : State) :
    (s.dropReservation).dOld = s.dOld := rfl
@[simp] theorem State.dropReservation_lrValid (s : State) :
    (s.dropReservation).lrValid = false := rfl
@[simp] theorem State.dropReservation_lrAddr (s : State) :
    (s.dropReservation).lrAddr = s.lrAddr := rfl
@[simp] theorem State.dropReservation_machineCheck (s : State) :
    (s.dropReservation).machineCheck = s.machineCheck := rfl
@[simp] theorem State.dropReservation_powerFail (s : State) :
    (s.dropReservation).powerFail = s.powerFail := rfl
@[simp] theorem State.dropReservation_extPending (s : State) :
    (s.dropReservation).extPending = s.extPending := rfl
@[simp] theorem State.dropReservation_freeCount (s : State) :
    (s.dropReservation).freeCount = s.freeCount := rfl

@[simp] theorem State.placeWord_gr (s : State) (pa : PAddr) (w : Word) :
    (s.placeWord pa w).gr = s.gr := rfl
@[simp] theorem State.placeWord_sr (s : State) (pa : PAddr) (w : Word) :
    (s.placeWord pa w).sr = s.sr := rfl
@[simp] theorem State.placeWord_psw0 (s : State) (pa : PAddr) (w : Word) :
    (s.placeWord pa w).psw0 = s.psw0 := rfl
@[simp] theorem State.placeWord_psw1 (s : State) (pa : PAddr) (w : Word) :
    (s.placeWord pa w).psw1 = s.psw1 := rfl
@[simp] theorem State.placeWord_cr (s : State) (pa : PAddr) (w : Word) :
    (s.placeWord pa w).cr = s.cr := rfl
@[simp] theorem State.placeWord_itlb (s : State) (pa : PAddr) (w : Word) :
    (s.placeWord pa w).itlb = s.itlb := rfl
@[simp] theorem State.placeWord_dtlb (s : State) (pa : PAddr) (w : Word) :
    (s.placeWord pa w).dtlb = s.dtlb := rfl
@[simp] theorem State.placeWord_mem (s : State) (pa : PAddr) (w : Word) :
    (s.placeWord pa w).mem = memSetAll s.mem pa.toNat [byteOf w 0, byteOf w 1, byteOf w 2, byteOf w 3] := rfl
@[simp] theorem State.placeWord_iOld (s : State) (pa : PAddr) (w : Word) :
    (s.placeWord pa w).iOld = s.iOld.filter (fun o => o.addr != pa.toNat) := rfl
@[simp] theorem State.placeWord_dOld (s : State) (pa : PAddr) (w : Word) :
    (s.placeWord pa w).dOld = s.dOld := rfl
@[simp] theorem State.placeWord_lrValid (s : State) (pa : PAddr) (w : Word) :
    (s.placeWord pa w).lrValid = s.lrValid := rfl
@[simp] theorem State.placeWord_lrAddr (s : State) (pa : PAddr) (w : Word) :
    (s.placeWord pa w).lrAddr = s.lrAddr := rfl
@[simp] theorem State.placeWord_machineCheck (s : State) (pa : PAddr) (w : Word) :
    (s.placeWord pa w).machineCheck = s.machineCheck := rfl
@[simp] theorem State.placeWord_powerFail (s : State) (pa : PAddr) (w : Word) :
    (s.placeWord pa w).powerFail = s.powerFail := rfl
@[simp] theorem State.placeWord_extPending (s : State) (pa : PAddr) (w : Word) :
    (s.placeWord pa w).extPending = s.extPending := rfl
@[simp] theorem State.placeWord_freeCount (s : State) (pa : PAddr) (w : Word) :
    (s.placeWord pa w).freeCount = s.freeCount := rfl

/-- The control registers after trap entry. -/
theorem State.takeTrap_cr (s : State) (t : Trap) :
    (s.takeTrap t).cr = ((((s.cr.set 17 s.psw0).set 18 s.psw1).set 19 (paramValue t.p0 s.freeCount)).set 20
      (paramValue t.p1 (s.freeCount + 1))).set 21 (paramValue t.p2 (s.freeCount + 2)) := rfl

@[simp] theorem State.insertTlbData_gr (s : State) (e : TlbEntry) :
    (s.insertTlb true e).gr = s.gr := rfl
@[simp] theorem State.insertTlbData_sr (s : State) (e : TlbEntry) :
    (s.insertTlb true e).sr = s.sr := rfl
@[simp] theorem State.insertTlbData_psw0 (s : State) (e : TlbEntry) :
    (s.insertTlb true e).psw0 = s.psw0 := rfl
@[simp] theorem State.insertTlbData_psw1 (s : State) (e : TlbEntry) :
    (s.insertTlb true e).psw1 = s.psw1 := rfl
@[simp] theorem State.insertTlbData_cr (s : State) (e : TlbEntry) :
    (s.insertTlb true e).cr = s.cr := rfl
@[simp] theorem State.insertTlbData_itlb (s : State) (e : TlbEntry) :
    (s.insertTlb true e).itlb = s.itlb := rfl
@[simp] theorem State.insertTlbData_dtlb (s : State) (e : TlbEntry) :
    (s.insertTlb true e).dtlb = tlbInsert Config.dtlbEntries s.freeCount s.dtlb e := rfl
@[simp] theorem State.insertTlbData_mem (s : State) (e : TlbEntry) :
    (s.insertTlb true e).mem = s.mem := rfl
@[simp] theorem State.insertTlbData_iOld (s : State) (e : TlbEntry) :
    (s.insertTlb true e).iOld = s.iOld := rfl
@[simp] theorem State.insertTlbData_dOld (s : State) (e : TlbEntry) :
    (s.insertTlb true e).dOld = s.dOld := rfl
@[simp] theorem State.insertTlbData_lrValid (s : State) (e : TlbEntry) :
    (s.insertTlb true e).lrValid = s.lrValid := rfl
@[simp] theorem State.insertTlbData_lrAddr (s : State) (e : TlbEntry) :
    (s.insertTlb true e).lrAddr = s.lrAddr := rfl
@[simp] theorem State.insertTlbData_machineCheck (s : State) (e : TlbEntry) :
    (s.insertTlb true e).machineCheck = s.machineCheck := rfl
@[simp] theorem State.insertTlbData_powerFail (s : State) (e : TlbEntry) :
    (s.insertTlb true e).powerFail = s.powerFail := rfl
@[simp] theorem State.insertTlbData_extPending (s : State) (e : TlbEntry) :
    (s.insertTlb true e).extPending = s.extPending := rfl
@[simp] theorem State.insertTlbData_freeCount (s : State) (e : TlbEntry) :
    (s.insertTlb true e).freeCount = s.freeCount + tlbInsertTakes Config.dtlbEntries s.dtlb e := rfl
@[simp] theorem State.purgeTlbData_gr (s : State) (seg : SegId) (page : Page) :
    (s.purgeTlb true seg page).gr = s.gr := rfl
@[simp] theorem State.purgeTlbData_sr (s : State) (seg : SegId) (page : Page) :
    (s.purgeTlb true seg page).sr = s.sr := rfl
@[simp] theorem State.purgeTlbData_psw0 (s : State) (seg : SegId) (page : Page) :
    (s.purgeTlb true seg page).psw0 = s.psw0 := rfl
@[simp] theorem State.purgeTlbData_psw1 (s : State) (seg : SegId) (page : Page) :
    (s.purgeTlb true seg page).psw1 = s.psw1 := rfl
@[simp] theorem State.purgeTlbData_cr (s : State) (seg : SegId) (page : Page) :
    (s.purgeTlb true seg page).cr = s.cr := rfl
@[simp] theorem State.purgeTlbData_itlb (s : State) (seg : SegId) (page : Page) :
    (s.purgeTlb true seg page).itlb = s.itlb := rfl
@[simp] theorem State.purgeTlbData_dtlb (s : State) (seg : SegId) (page : Page) :
    (s.purgeTlb true seg page).dtlb = tlbPurge s.dtlb seg page := rfl
@[simp] theorem State.purgeTlbData_mem (s : State) (seg : SegId) (page : Page) :
    (s.purgeTlb true seg page).mem = s.mem := rfl
@[simp] theorem State.purgeTlbData_iOld (s : State) (seg : SegId) (page : Page) :
    (s.purgeTlb true seg page).iOld = s.iOld := rfl
@[simp] theorem State.purgeTlbData_dOld (s : State) (seg : SegId) (page : Page) :
    (s.purgeTlb true seg page).dOld = s.dOld := rfl
@[simp] theorem State.purgeTlbData_lrValid (s : State) (seg : SegId) (page : Page) :
    (s.purgeTlb true seg page).lrValid = s.lrValid := rfl
@[simp] theorem State.purgeTlbData_lrAddr (s : State) (seg : SegId) (page : Page) :
    (s.purgeTlb true seg page).lrAddr = s.lrAddr := rfl
@[simp] theorem State.purgeTlbData_machineCheck (s : State) (seg : SegId) (page : Page) :
    (s.purgeTlb true seg page).machineCheck = s.machineCheck := rfl
@[simp] theorem State.purgeTlbData_powerFail (s : State) (seg : SegId) (page : Page) :
    (s.purgeTlb true seg page).powerFail = s.powerFail := rfl
@[simp] theorem State.purgeTlbData_extPending (s : State) (seg : SegId) (page : Page) :
    (s.purgeTlb true seg page).extPending = s.extPending := rfl
@[simp] theorem State.purgeTlbData_freeCount (s : State) (seg : SegId) (page : Page) :
    (s.purgeTlb true seg page).freeCount = s.freeCount := rfl

@[simp] theorem State.insertTlbInstr_gr (s : State) (e : TlbEntry) :
    (s.insertTlb false e).gr = s.gr := rfl
@[simp] theorem State.insertTlbInstr_sr (s : State) (e : TlbEntry) :
    (s.insertTlb false e).sr = s.sr := rfl
@[simp] theorem State.insertTlbInstr_psw0 (s : State) (e : TlbEntry) :
    (s.insertTlb false e).psw0 = s.psw0 := rfl
@[simp] theorem State.insertTlbInstr_psw1 (s : State) (e : TlbEntry) :
    (s.insertTlb false e).psw1 = s.psw1 := rfl
@[simp] theorem State.insertTlbInstr_cr (s : State) (e : TlbEntry) :
    (s.insertTlb false e).cr = s.cr := rfl
@[simp] theorem State.insertTlbInstr_itlb (s : State) (e : TlbEntry) :
    (s.insertTlb false e).itlb = tlbInsert Config.itlbEntries s.freeCount s.itlb e := rfl
@[simp] theorem State.insertTlbInstr_dtlb (s : State) (e : TlbEntry) :
    (s.insertTlb false e).dtlb = s.dtlb := rfl
@[simp] theorem State.insertTlbInstr_mem (s : State) (e : TlbEntry) :
    (s.insertTlb false e).mem = s.mem := rfl
@[simp] theorem State.insertTlbInstr_iOld (s : State) (e : TlbEntry) :
    (s.insertTlb false e).iOld = s.iOld := rfl
@[simp] theorem State.insertTlbInstr_dOld (s : State) (e : TlbEntry) :
    (s.insertTlb false e).dOld = s.dOld := rfl
@[simp] theorem State.insertTlbInstr_lrValid (s : State) (e : TlbEntry) :
    (s.insertTlb false e).lrValid = s.lrValid := rfl
@[simp] theorem State.insertTlbInstr_lrAddr (s : State) (e : TlbEntry) :
    (s.insertTlb false e).lrAddr = s.lrAddr := rfl
@[simp] theorem State.insertTlbInstr_machineCheck (s : State) (e : TlbEntry) :
    (s.insertTlb false e).machineCheck = s.machineCheck := rfl
@[simp] theorem State.insertTlbInstr_powerFail (s : State) (e : TlbEntry) :
    (s.insertTlb false e).powerFail = s.powerFail := rfl
@[simp] theorem State.insertTlbInstr_extPending (s : State) (e : TlbEntry) :
    (s.insertTlb false e).extPending = s.extPending := rfl
@[simp] theorem State.insertTlbInstr_freeCount (s : State) (e : TlbEntry) :
    (s.insertTlb false e).freeCount = s.freeCount + tlbInsertTakes Config.itlbEntries s.itlb e := rfl
@[simp] theorem State.purgeTlbInstr_gr (s : State) (seg : SegId) (page : Page) :
    (s.purgeTlb false seg page).gr = s.gr := rfl
@[simp] theorem State.purgeTlbInstr_sr (s : State) (seg : SegId) (page : Page) :
    (s.purgeTlb false seg page).sr = s.sr := rfl
@[simp] theorem State.purgeTlbInstr_psw0 (s : State) (seg : SegId) (page : Page) :
    (s.purgeTlb false seg page).psw0 = s.psw0 := rfl
@[simp] theorem State.purgeTlbInstr_psw1 (s : State) (seg : SegId) (page : Page) :
    (s.purgeTlb false seg page).psw1 = s.psw1 := rfl
@[simp] theorem State.purgeTlbInstr_cr (s : State) (seg : SegId) (page : Page) :
    (s.purgeTlb false seg page).cr = s.cr := rfl
@[simp] theorem State.purgeTlbInstr_itlb (s : State) (seg : SegId) (page : Page) :
    (s.purgeTlb false seg page).itlb = tlbPurge s.itlb seg page := rfl
@[simp] theorem State.purgeTlbInstr_dtlb (s : State) (seg : SegId) (page : Page) :
    (s.purgeTlb false seg page).dtlb = s.dtlb := rfl
@[simp] theorem State.purgeTlbInstr_mem (s : State) (seg : SegId) (page : Page) :
    (s.purgeTlb false seg page).mem = s.mem := rfl
@[simp] theorem State.purgeTlbInstr_iOld (s : State) (seg : SegId) (page : Page) :
    (s.purgeTlb false seg page).iOld = s.iOld := rfl
@[simp] theorem State.purgeTlbInstr_dOld (s : State) (seg : SegId) (page : Page) :
    (s.purgeTlb false seg page).dOld = s.dOld := rfl
@[simp] theorem State.purgeTlbInstr_lrValid (s : State) (seg : SegId) (page : Page) :
    (s.purgeTlb false seg page).lrValid = s.lrValid := rfl
@[simp] theorem State.purgeTlbInstr_lrAddr (s : State) (seg : SegId) (page : Page) :
    (s.purgeTlb false seg page).lrAddr = s.lrAddr := rfl
@[simp] theorem State.purgeTlbInstr_machineCheck (s : State) (seg : SegId) (page : Page) :
    (s.purgeTlb false seg page).machineCheck = s.machineCheck := rfl
@[simp] theorem State.purgeTlbInstr_powerFail (s : State) (seg : SegId) (page : Page) :
    (s.purgeTlb false seg page).powerFail = s.powerFail := rfl
@[simp] theorem State.purgeTlbInstr_extPending (s : State) (seg : SegId) (page : Page) :
    (s.purgeTlb false seg page).extPending = s.extPending := rfl
@[simp] theorem State.purgeTlbInstr_freeCount (s : State) (seg : SegId) (page : Page) :
    (s.purgeTlb false seg page).freeCount = s.freeCount := rfl

end Sys2Proof.Machine
end

