-- ==== Sys2Proof/Laws/Registers.lean ====
section
/-! SUPPORT. What a register, a status bit or a field of the status word reads after each operation on registers. -/

namespace Sys2Proof.Machine

/-! ### Reads depend on one field -/

theorem readGr_congr {s t : State} (h : t.gr = s.gr) (r : BitVec 4) : t.readGr r = s.readGr r := by simp [State.readGr, h]
theorem readSr_congr {s t : State} (h : t.sr = s.sr) (n : BitVec 3) : t.readSr n = s.readSr n := by simp [State.readSr, h]
theorem readCr_congr {s t : State} (h : t.cr = s.cr) (n : BitVec 5) : t.readCr n = s.readCr n := by simp [State.readCr, h]

/-! ### Registers after a write -/

@[simp] theorem readGr_zero (s : State) : s.readGr 0#4 = 0 := by simp [State.readGr]

/-- A general register after a write: the value, unless it is register zero; every other register as before. -/
theorem readGr_writeGr (s : State) (r q : BitVec 4) (v : Word) :
    (s.writeGr r v).readGr q = if q = r then (if r = 0#4 then 0 else v) else s.readGr q := by
  unfold State.readGr State.writeGr
  by_cases hq : q = 0#4
  · by_cases h : q = r
    · subst h; simp [hq]
    · have h0 : ¬ 0#4 = r := fun e => h (hq.trans e)
      simp [hq, h0]
  · by_cases h : q = r
    · subst h; simp [hq]
    · have h' : r.toNat ≠ q.toNat := fun e => h (BitVec.eq_of_toNat_eq e.symm)
      by_cases hr : r = 0#4
      · subst hr; simp [hq]
      · simp [hq, hr, h, Vector.getElem_set_ne _ _ h']

theorem readGr_writeGr_same (s : State) {r : BitVec 4} (v : Word) (h : r ≠ 0#4) : (s.writeGr r v).readGr r = v := by
  rw [readGr_writeGr, if_pos rfl, if_neg h]

theorem readGr_writeGr_other (s : State) {r q : BitVec 4} (v : Word) (h : q ≠ r) : (s.writeGr r v).readGr q = s.readGr q := by
  rw [readGr_writeGr, if_neg h]

/-- A segment register after a write. -/
theorem readSr_writeSr (s : State) (n m : BitVec 3) (v : SegId) :
    (s.writeSr n v).readSr m = if m = n then v else s.readSr m := by
  by_cases h : m = n
  · subst h; simp [State.readSr]
  · have h' : n.toNat ≠ m.toNat := fun e => h (BitVec.eq_of_toNat_eq e.symm)
    simp [State.readSr, h, Vector.getElem_set_ne _ _ h']

/-- A control register after a write; CR2 keeps five bits. -/
theorem readCr_writeCr (s : State) (n m : BitVec 5) (v : Word) :
    (s.writeCr n v).readCr m = if m = n then (if n = 2 then v &&& 0x1F#32 else v) else s.readCr m := by
  by_cases h : m = n
  · subst h; simp [State.readCr]
  · have h' : n.toNat ≠ m.toNat := fun e => h (BitVec.eq_of_toNat_eq e.symm)
    simp [State.readCr, h, Vector.getElem_set_ne _ _ h']

/-! ### Operations that leave a register file alone -/

@[simp] theorem readGr_writeSr (s : State) (n : BitVec 3) (v : SegId) (q : BitVec 4) : (s.writeSr n v).readGr q = s.readGr q := rfl
@[simp] theorem readGr_writeCr (s : State) (n : BitVec 5) (v : Word) (q : BitVec 4) : (s.writeCr n v).readGr q = s.readGr q := rfl
@[simp] theorem readGr_setX (s : State) (v : Bool) (q : BitVec 4) : (s.setX v).readGr q = s.readGr q := rfl
@[simp] theorem readGr_setCB (s : State) (v : Bool) (q : BitVec 4) : (s.setCB v).readGr q = s.readGr q := rfl
@[simp] theorem readGr_setSeg (s : State) (v : SegId) (q : BitVec 4) : (s.setSeg v).readGr q = s.readGr q := rfl
@[simp] theorem readGr_setMask (s : State) (v : BitVec 4) (q : BitVec 4) : (s.setMask v).readGr q = s.readGr q := rfl
@[simp] theorem readGr_setPc (s : State) (t : Word) (q : BitVec 4) : (s.setPc t).readGr q = s.readGr q := rfl
@[simp] theorem readGr_advance (s : State) (q : BitVec 4) : s.advance.readGr q = s.readGr q := rfl
@[simp] theorem readGr_store (s : State) (pa : PAddr) (n : Size) (v : Word) (q : BitVec 4) : (s.store pa n v).readGr q = s.readGr q := rfl
@[simp] theorem readGr_takeTrap (s : State) (t : Trap) (q : BitVec 4) : (s.takeTrap t).readGr q = s.readGr q := rfl
@[simp] theorem readGr_returnFromTrap (s : State) (q : BitVec 4) : s.returnFromTrap.readGr q = s.readGr q := rfl
@[simp] theorem readGr_reserve (s : State) (pa : PAddr) (q : BitVec 4) : (s.reserve pa).readGr q = s.readGr q := rfl
@[simp] theorem readGr_dropReservation (s : State) (q : BitVec 4) : s.dropReservation.readGr q = s.readGr q := rfl

@[simp] theorem readSr_writeGr (s : State) (r : BitVec 4) (v : Word) (n : BitVec 3) : (s.writeGr r v).readSr n = s.readSr n := rfl
@[simp] theorem readSr_writeCr (s : State) (m : BitVec 5) (v : Word) (n : BitVec 3) : (s.writeCr m v).readSr n = s.readSr n := rfl
@[simp] theorem readSr_setX (s : State) (v : Bool) (n : BitVec 3) : (s.setX v).readSr n = s.readSr n := rfl
@[simp] theorem readSr_setCB (s : State) (v : Bool) (n : BitVec 3) : (s.setCB v).readSr n = s.readSr n := rfl
@[simp] theorem readSr_setSeg (s : State) (v : SegId) (n : BitVec 3) : (s.setSeg v).readSr n = s.readSr n := rfl
@[simp] theorem readSr_setMask (s : State) (v : BitVec 4) (n : BitVec 3) : (s.setMask v).readSr n = s.readSr n := rfl
@[simp] theorem readSr_setPc (s : State) (t : Word) (n : BitVec 3) : (s.setPc t).readSr n = s.readSr n := rfl
@[simp] theorem readSr_advance (s : State) (n : BitVec 3) : s.advance.readSr n = s.readSr n := rfl
@[simp] theorem readSr_store (s : State) (pa : PAddr) (k : Size) (v : Word) (n : BitVec 3) : (s.store pa k v).readSr n = s.readSr n := rfl
@[simp] theorem readSr_takeTrap (s : State) (t : Trap) (n : BitVec 3) : (s.takeTrap t).readSr n = s.readSr n := rfl
@[simp] theorem readSr_returnFromTrap (s : State) (n : BitVec 3) : s.returnFromTrap.readSr n = s.readSr n := rfl
@[simp] theorem readSr_reserve (s : State) (pa : PAddr) (n : BitVec 3) : (s.reserve pa).readSr n = s.readSr n := rfl
@[simp] theorem readSr_dropReservation (s : State) (n : BitVec 3) : s.dropReservation.readSr n = s.readSr n := rfl

@[simp] theorem readCr_writeGr (s : State) (r : BitVec 4) (v : Word) (n : BitVec 5) : (s.writeGr r v).readCr n = s.readCr n := rfl
@[simp] theorem readCr_writeSr (s : State) (m : BitVec 3) (v : SegId) (n : BitVec 5) : (s.writeSr m v).readCr n = s.readCr n := rfl
@[simp] theorem readCr_setX (s : State) (v : Bool) (n : BitVec 5) : (s.setX v).readCr n = s.readCr n := rfl
@[simp] theorem readCr_setCB (s : State) (v : Bool) (n : BitVec 5) : (s.setCB v).readCr n = s.readCr n := rfl
@[simp] theorem readCr_setSeg (s : State) (v : SegId) (n : BitVec 5) : (s.setSeg v).readCr n = s.readCr n := rfl
@[simp] theorem readCr_setMask (s : State) (v : BitVec 4) (n : BitVec 5) : (s.setMask v).readCr n = s.readCr n := rfl
@[simp] theorem readCr_setPc (s : State) (t : Word) (n : BitVec 5) : (s.setPc t).readCr n = s.readCr n := rfl
@[simp] theorem readCr_advance (s : State) (n : BitVec 5) : s.advance.readCr n = s.readCr n := rfl
@[simp] theorem readCr_store (s : State) (pa : PAddr) (k : Size) (v : Word) (n : BitVec 5) : (s.store pa k v).readCr n = s.readCr n := rfl
@[simp] theorem readCr_returnFromTrap (s : State) (n : BitVec 5) : s.returnFromTrap.readCr n = s.readCr n := rfl
@[simp] theorem readCr_reserve (s : State) (pa : PAddr) (n : BitVec 5) : (s.reserve pa).readCr n = s.readCr n := rfl
@[simp] theorem readCr_dropReservation (s : State) (n : BitVec 5) : s.dropReservation.readCr n = s.readCr n := rfl

/-! ### Control registers after trap entry -/

theorem readCr_takeTrap_status (s : State) (t : Trap) : (s.takeTrap t).readCr 17 = s.psw0 := by simp [State.readCr, State.takeTrap_cr]
theorem readCr_takeTrap_offset (s : State) (t : Trap) : (s.takeTrap t).readCr 18 = s.psw1 := by simp [State.readCr, State.takeTrap_cr]
theorem readCr_takeTrap_p0 (s : State) (t : Trap) : (s.takeTrap t).readCr 19 = paramValue t.p0 s.freeCount := by
  simp [State.readCr, State.takeTrap_cr]
theorem readCr_takeTrap_p1 (s : State) (t : Trap) : (s.takeTrap t).readCr 20 = paramValue t.p1 (s.freeCount + 1) := by
  simp [State.readCr, State.takeTrap_cr]
theorem readCr_takeTrap_p2 (s : State) (t : Trap) : (s.takeTrap t).readCr 21 = paramValue t.p2 (s.freeCount + 2) := by
  simp [State.readCr, State.takeTrap_cr]

/-- Trap entry writes no control register but CR17 to CR21. -/
theorem readCr_takeTrap_other (s : State) (t : Trap) {n : BitVec 5} (h : ¬ (17 ≤ n.toNat ∧ n.toNat ≤ 21)) :
    (s.takeTrap t).readCr n = s.readCr n := by
  have h17 : (17 : Nat) ≠ n.toNat := by omega
  have h18 : (18 : Nat) ≠ n.toNat := by omega
  have h19 : (19 : Nat) ≠ n.toNat := by omega
  have h20 : (20 : Nat) ≠ n.toNat := by omega
  have h21 : (21 : Nat) ≠ n.toNat := by omega
  simp [State.readCr, State.takeTrap_cr, Vector.getElem_set_ne, h17, h18, h19, h20, h21]

/-! ### Bits of words -/

/-- A flag is one bit, numbered from the left. -/
theorem flag_eq (w : Word) (i : Nat) : flag w i = w.getLsbD (31 - i) := by
  unfold flag field
  have : 32 - i - 1 = 31 - i := by omega
  rw [this]
  cases h : w.getLsbD (31 - i)
  · simp only [beq_eq_false_iff_ne, ne_eq]
    intro e
    have := congrArg (fun x => x.getLsbD 0) e
    simp [h] at this
  · rw [beq_iff_eq]
    ext j hj
    have : j = 0 := by omega
    subst this
    simpa using h

/-- The bit that was set reads as set. -/
theorem flag_setFlag_same (w : Word) {i : Nat} (v : Bool) (h : i < 32) : flag (setFlag w i v) i = v := by
  rw [flag_eq]
  unfold setFlag
  cases v <;> simp [show 31 - i < 32 by omega]

/-- Setting one bit leaves every other bit alone. -/
theorem flag_setFlag_other (w : Word) {i j : Nat} (v : Bool) (hi : i < 32) (hj : j < 32) (h : j ≠ i) :
    flag (setFlag w i v) j = flag w j := by
  rw [flag_eq, flag_eq]
  unfold setFlag
  have h1 : 31 - j < 32 := by omega
  by_cases hlt : 31 - j < 31 - i
  · cases v <;> simp [h1, hlt]
  · have h2 : 31 - j - (31 - i) ≠ 0 := by omega
    cases v <;> simp [h1, hlt, h2]

/-- Two words with the same flags are the same word. -/
theorem word_ext_flag {v w : Word} (h : ∀ i < 32, flag v i = flag w i) : v = w := by
  apply BitVec.eq_of_getLsbD_eq
  intro j hj
  have := h (31 - j) (by omega)
  rw [flag_eq, flag_eq] at this
  rwa [show 31 - (31 - j) = j by omega] at this

/-- A bit of a field. -/
theorem getLsbD_field (w : Word) (i n j : Nat) : (field w i n).getLsbD j = (decide (j < n) && w.getLsbD (32 - i - n + j)) := by
  simp [field, BitVec.getLsbD_extractLsb']

/-- Clearing the low two bits twice is clearing them once. -/
@[simp] theorem alignOfs_alignOfs (w : Word) : alignOfs (alignOfs w) = alignOfs w := by
  unfold alignOfs; rw [BitVec.and_assoc]; rfl

/-- The low two bits of an instruction offset are zero. -/
theorem alignOfs_toNat (w : Word) : (alignOfs w).toNat = w.toNat - w.toNat % 4 := by
  have h : alignOfs w = (w >>> 2) <<< 2 := by
    apply BitVec.eq_of_getLsbD_eq
    intro j hj
    have e : (0xFFFFFFFC#32).getLsbD j = decide (2 ≤ j) := by
      have : ∀ j : Fin 32, (0xFFFFFFFC#32).getLsbD j.val = decide (2 ≤ j.val) := by decide
      exact this ⟨j, hj⟩
    simp only [alignOfs, BitVec.getLsbD_and, e, BitVec.getLsbD_shiftLeft, BitVec.getLsbD_ushiftRight, hj, decide_true, Bool.true_and]
    by_cases h2 : 2 ≤ j
    · simp [h2, show ¬ j < 2 by omega]
    · simp [h2, show j < 2 by omega]
  rw [h, BitVec.toNat_shiftLeft, BitVec.toNat_ushiftRight, Nat.shiftRight_eq_div_pow, Nat.shiftLeft_eq]
  have := w.isLt
  omega

end Sys2Proof.Machine
end

