-- ==== Sys2Proof/Laws/Tlb.lean ====
section
/-! SUPPORT. The TLB operations: what a lookup gives after an insertion or a purge, and that both keep a TLB well formed. -/

namespace Sys2Proof.Machine

theorem isFor_iff {e : TlbEntry} {seg : SegId} {page : Page} : e.isFor seg page = true ↔ e.seg = seg ∧ e.page = page := by
  simp [TlbEntry.isFor]

/-- A lookup's answer is a valid entry of the TLB for that page. -/
theorem tlbLookup_some {tlb : List TlbEntry} {seg : SegId} {page : Page} {e : TlbEntry} (h : tlbLookup tlb seg page = some e) :
    e ∈ tlb ∧ e.valid = true ∧ e.seg = seg ∧ e.page = page := by
  have h1 := List.mem_of_find?_eq_some h
  have h2 := List.find?_some h
  simp only [Bool.and_eq_true, isFor_iff] at h2
  exact ⟨h1, h2.1, h2.2.1, h2.2.2⟩

theorem tlbLookup_eq_none {tlb : List TlbEntry} {seg : SegId} {page : Page} :
    tlbLookup tlb seg page = none ↔ ∀ e ∈ tlb, e.valid = true → ¬ (e.seg = seg ∧ e.page = page) := by
  simp [tlbLookup, List.find?_eq_none, isFor_iff]

/-- An invalid TLB content: no entry. -/
@[simp] theorem tlbLookup_nil (seg : SegId) (page : Page) : tlbLookup [] seg page = none := rfl

/-- A lookup looks at the first entry, then at the others. -/
theorem tlbLookup_cons (e : TlbEntry) (tlb : List TlbEntry) (seg : SegId) (page : Page) :
    tlbLookup (e :: tlb) seg page = if e.valid && e.isFor seg page then some e else tlbLookup tlb seg page := by
  unfold tlbLookup
  rw [List.find?_cons]
  cases e.valid && e.isFor seg page <;> rfl

/-- The purged page has no entry. -/
theorem tlbLookup_purge_same (tlb : List TlbEntry) (seg : SegId) (page : Page) : tlbLookup (tlbPurge tlb seg page) seg page = none := by
  rw [tlbLookup_eq_none]
  intro e he _ h
  simp only [tlbPurge, List.mem_filter, Bool.not_eq_true'] at he
  rw [isFor_iff.2 h] at he
  exact absurd he.2 (by simp)

/-- A purge leaves every other page's entry alone. -/
theorem tlbLookup_purge_other (tlb : List TlbEntry) {seg seg' : SegId} {page page' : Page} (h : (seg', page') ≠ (seg, page)) :
    tlbLookup (tlbPurge tlb seg page) seg' page' = tlbLookup tlb seg' page' := by
  induction tlb with
  | nil => rfl
  | cons e tlb ih =>
    unfold tlbPurge at ih ⊢
    by_cases he : e.isFor seg page = true
    · have h' : e.isFor seg' page' = false := by
        obtain ⟨h1, h2⟩ := isFor_iff.1 he
        rw [← Bool.not_eq_true, isFor_iff]
        rintro ⟨h3, h4⟩
        exact h (by rw [← h3, ← h4, h1, h2])
      rw [List.filter_cons_of_neg (by simp [he]), tlbLookup_cons, h', ih]; simp
    · rw [List.filter_cons_of_pos (by simpa using he), tlbLookup_cons, tlbLookup_cons, ih]

/-- The inserted page's entry is the one inserted. -/
theorem tlbLookup_insert_same (capacity k : Nat) (tlb : List TlbEntry) (e : TlbEntry) (hv : e.valid = true) :
    tlbLookup (tlbInsert capacity k tlb e) e.seg e.page = some e := by
  have hc : ∀ l : List TlbEntry, tlbLookup (e :: l) e.seg e.page = some e := by
    intro l; rw [tlbLookup_cons, if_pos (by simp [hv, isFor_iff])]
  unfold tlbInsert
  split
  · next hh =>
    unfold tlbHolds at hh
    induction tlb with
    | nil => simp at hh
    | cons x tlb ih =>
      rw [List.map_cons]
      by_cases hx : x.isFor e.seg e.page = true
      · rw [if_pos hx]; exact hc _
      · rw [if_neg hx, tlbLookup_cons, if_neg (by simp [hx])]
        refine ih ?_
        simpa [hx] using hh
  · split <;> exact hc _

/-- An overwriting or roomy insertion leaves every other page's entry alone. -/
theorem tlbLookup_insert_other (capacity k : Nat) (tlb : List TlbEntry) (e : TlbEntry) {seg : SegId} {page : Page}
    (h : (seg, page) ≠ (e.seg, e.page)) (hr : tlbHolds tlb e = true ∨ tlb.length < capacity) :
    tlbLookup (tlbInsert capacity k tlb e) seg page = tlbLookup tlb seg page := by
  have he : e.isFor seg page = false := by
    rw [← Bool.not_eq_true, isFor_iff]; rintro ⟨h1, h2⟩; exact h (by rw [h1, h2])
  unfold tlbInsert
  split
  · clear hr
    rename_i hh
    clear hh
    induction tlb with
    | nil => rfl
    | cons x tlb ih =>
      rw [List.map_cons, tlbLookup_cons, tlbLookup_cons, ih]
      by_cases hx : x.isFor e.seg e.page = true
      · have hx' : x.isFor seg page = false := by
          obtain ⟨h1, h2⟩ := isFor_iff.1 hx
          rw [← Bool.not_eq_true, isFor_iff, h1, h2]; rintro ⟨h3, h4⟩; exact h (by rw [h3, h4])
        simp [hx, he, hx']
      · rw [if_neg hx]
  · next hh =>
    rcases hr with hr | hr
    · exact absurd hr hh
    · rw [if_pos hr, tlbLookup_cons, he]; simp

/-- An insertion into a full TLB leaves alone every page but the inserted one and the victim's. -/
theorem tlbLookup_insert_full (capacity k : Nat) (tlb : List TlbEntry) (e : TlbEntry) {seg : SegId} {page : Page}
    (h : (seg, page) ≠ (e.seg, e.page)) (hh : tlbHolds tlb e = false) (hf : ¬ tlb.length < capacity)
    (hn : Config.freeIndex k % tlb.length < tlb.length)
    (hv : (seg, page) ≠ (tlb[Config.freeIndex k % tlb.length].seg, tlb[Config.freeIndex k % tlb.length].page)) :
    tlbLookup (tlbInsert capacity k tlb e) seg page = tlbLookup tlb seg page := by
  have he : e.isFor seg page = false := by
    rw [← Bool.not_eq_true, isFor_iff]; rintro ⟨h1, h2⟩; exact h (by rw [h1, h2])
  have key : ∀ (l : List TlbEntry) (n : Nat) (hn : n < l.length), (seg, page) ≠ (l[n].seg, l[n].page) →
      tlbLookup (l.eraseIdx n) seg page = tlbLookup l seg page := by
    intro l
    induction l with
    | nil => intro n hn; simp at hn
    | cons x l ih =>
      intro n hn hx
      cases n with
      | zero =>
        have hx' : x.isFor seg page = false := by
          rw [← Bool.not_eq_true, isFor_iff]; rintro ⟨h3, h4⟩; exact hx (by simp [h3, h4])
        rw [List.eraseIdx_cons_zero, tlbLookup_cons, hx']; simp
      | succ n => rw [List.eraseIdx_cons_succ, tlbLookup_cons, tlbLookup_cons, ih n (by simpa using hn) (by simpa using hx)]
  unfold tlbInsert
  rw [hh, if_neg (by simp), if_neg hf, tlbLookup_cons, he, key _ _ hn hv]; simp

/-- A purge keeps a TLB well formed. -/
theorem TlbWf.purge {capacity : Nat} {tlb : List TlbEntry} (h : TlbWf capacity tlb) (seg : SegId) (page : Page) :
    TlbWf capacity (tlbPurge tlb seg page) where
  size := le_trans (List.length_filter_le _ _) h.size
  valid := fun e he => h.valid e (List.mem_of_mem_filter he)
  unique := h.unique.sublist (List.Sublist.map _ List.filter_sublist)
  segmentZero := fun e he => h.segmentZero e (List.mem_of_mem_filter he)

theorem mem_tlbInsert {capacity k : Nat} {tlb : List TlbEntry} {e x : TlbEntry} (h : x ∈ tlbInsert capacity k tlb e) :
    x = e ∨ x ∈ tlb := by
  unfold tlbInsert at h
  split at h
  · obtain ⟨y, hy, rfl⟩ := List.mem_map.1 h
    split
    · exact .inl rfl
    · exact .inr hy
  · split at h
    · rcases List.mem_cons.1 h with rfl | h
      · exact .inl rfl
      · exact .inr h
    · rcases List.mem_cons.1 h with rfl | h
      · exact .inl rfl
      · exact .inr (List.mem_of_mem_eraseIdx h)

/-- An insertion of a valid entry that keeps the identity of segment 0 keeps a TLB well formed. -/
theorem TlbWf.insert {capacity : Nat} {tlb : List TlbEntry} (h : TlbWf capacity tlb) (hc : 0 < capacity) (k : Nat) {e : TlbEntry}
    (hv : e.valid = true) (hz : e.seg = 0 → effectivePpn e.ppn = e.page.setWidth 20) : TlbWf capacity (tlbInsert capacity k tlb e) where
  size := by
    have hs := h.size
    unfold tlbInsert
    split
    · simpa using hs
    · split
      · next hlt => simpa using hlt
      · next hge =>
        have hlen : tlb.length = capacity := by omega
        have hlt : Config.freeIndex k % tlb.length < tlb.length := Nat.mod_lt _ (by omega)
        simp only [List.length_cons, List.length_eraseIdx, hlt, if_true]
        omega
  valid := fun x hx => (mem_tlbInsert hx).elim (fun he => he ▸ hv) (h.valid x)
  unique := by
    unfold tlbInsert
    split
    · rw [List.map_map]
      have : ((fun e => (e.seg, e.page)) ∘ fun x : TlbEntry => if x.isFor e.seg e.page = true then e else x) =
          fun x : TlbEntry => (x.seg, x.page) := by
        funext x
        simp only [Function.comp]
        split
        · next hx => obtain ⟨h1, h2⟩ := isFor_iff.1 hx; rw [h1, h2]
        · rfl
      rw [this]; exact h.unique
    · next hh =>
      have hn : ∀ x ∈ tlb, (x.seg, x.page) ≠ (e.seg, e.page) := by
        intro x hx hxe
        apply hh
        unfold tlbHolds
        rw [List.any_eq_true]
        exact ⟨x, hx, isFor_iff.2 ⟨congrArg Prod.fst hxe, congrArg Prod.snd hxe⟩⟩
      split
      · rw [List.map_cons, List.nodup_cons]
        refine ⟨?_, h.unique⟩
        intro hm
        obtain ⟨x, hx, hxe⟩ := List.mem_map.1 hm
        exact hn x hx hxe
      · rw [List.map_cons, List.nodup_cons]
        refine ⟨?_, h.unique.sublist (List.Sublist.map _ (List.eraseIdx_sublist _ _))⟩
        intro hm
        obtain ⟨x, hx, hxe⟩ := List.mem_map.1 hm
        exact hn x (List.mem_of_mem_eraseIdx hx) hxe
  segmentZero := fun x hx => (mem_tlbInsert hx).elim (fun he => he ▸ hz) (h.segmentZero x)

/-- All 20 bits of the page number are used, with PA_BITS = 34. -/
@[simp] theorem effectivePpn_eq (ppn : BitVec 20) : effectivePpn ppn = ppn := by
  unfold effectivePpn Config.paBits
  have : BitVec.ofNat 20 (2 ^ (34 - 14) - 1) = BitVec.allOnes 20 := by decide
  rw [this, BitVec.and_allOnes]

end Sys2Proof.Machine
end

