-- ==== Sys2Proof/Laws/Access.lean ====
section
/-! SUPPORT. Data accesses: when an address is formed, a value read or stored, an operand fetched, each said once, in the terms of
Safety.lean, in both directions. -/

namespace Sys2Proof.Machine

/-! ### Bytes of a word -/

theorem getLsbD_byteOf (w : Word) (k j : Nat) : (byteOf w k).getLsbD j = (decide (j < 8) && w.getLsbD (24 - 8 * k + j)) := by
  unfold byteOf
  rw [getLsbD_field, show 32 - 8 * k - 8 = 24 - 8 * k by omega]

/-- The bytes of a word, put together, are the word. -/
theorem ofBytes_byteOf (w : Word) : ofBytes (byteOf w 0) (byteOf w 1) (byteOf w 2) (byteOf w 3) = w := by
  apply BitVec.eq_of_getLsbD_eq
  intro j hj
  simp only [ofBytes, BitVec.getLsbD_append, getLsbD_byteOf]
  by_cases h1 : j < 8
  · simp [h1]
  · by_cases h2 : j - 8 < 8
    · simp [h1, h2]; congr 1; omega
    · by_cases h3 : j - 8 - 8 < 8
      · simp [h1, h2, h3]; congr 1; omega
      · have h4 : j - 8 - 8 - 8 < 8 := by omega
        simp [h1, h2, h3, h4]; congr 1; omega

/-- A byte of a word made of bytes. -/
theorem byteOf_ofBytes (b0 b1 b2 b3 : Byte) : byteOf (ofBytes b0 b1 b2 b3) 0 = b0 ∧ byteOf (ofBytes b0 b1 b2 b3) 1 = b1 ∧
    byteOf (ofBytes b0 b1 b2 b3) 2 = b2 ∧ byteOf (ofBytes b0 b1 b2 b3) 3 = b3 := by
  refine ⟨?_, ?_, ?_, ?_⟩ <;> apply BitVec.eq_of_getLsbD_eq <;> intro j hj <;>
    simp only [ofBytes, BitVec.getLsbD_append, getLsbD_byteOf, hj, decide_true, Bool.true_and]
  · rw [if_neg (by omega), if_neg (by omega), if_neg (by omega), show 24 - 8 * 0 + j - 8 - 8 - 8 = j by omega]
  · rw [if_neg (by omega), if_neg (by omega), if_pos (by omega), show 24 - 8 * 1 + j - 8 - 8 = j by omega]
  · rw [if_neg (by omega), if_pos (by omega), show 24 - 8 * 2 + j - 8 = j by omega]
  · rw [if_pos (by omega), show 24 - 8 * 3 + j = j by omega]

/-- The last byte of a zero-extended byte. -/
theorem byteOf_setWidth_byte (b : Byte) : byteOf (b.setWidth 32) 3 = b := by
  apply BitVec.eq_of_getLsbD_eq
  intro j hj
  simp only [getLsbD_byteOf, BitVec.getLsbD_setWidth, hj, decide_true, Bool.true_and]
  rw [show 24 - 8 * 3 + j = j by omega, decide_eq_true (by omega : j < 32), Bool.true_and]

/-- The last two bytes of a zero-extended half-word. -/
theorem byteOf_setWidth_half (b0 b1 : Byte) : byteOf ((b0 ++ b1 : BitVec 16).setWidth 32) 2 = b0 ∧
    byteOf ((b0 ++ b1 : BitVec 16).setWidth 32) 3 = b1 := by
  constructor <;> apply BitVec.eq_of_getLsbD_eq <;> intro j hj <;>
    simp only [getLsbD_byteOf, BitVec.getLsbD_setWidth, BitVec.getLsbD_append, hj, decide_true, Bool.true_and]
  · rw [if_neg (by omega), decide_eq_true (by omega), Bool.true_and, show 24 - 8 * 2 + j - 8 = j by omega]
  · rw [if_pos (by omega), decide_eq_true (by omega), Bool.true_and, show 24 - 8 * 3 + j = j by omega]

/-- A value below 2^8 is its last byte. -/
theorem byteOf_three_setWidth {v : Word} (h : v.toNat < 2 ^ 8) : (byteOf v 3).setWidth 32 = v := by
  apply BitVec.eq_of_getLsbD_eq
  intro j hj
  simp only [BitVec.getLsbD_setWidth, getLsbD_byteOf, hj, decide_true, Bool.true_and]
  by_cases h1 : j < 8
  · simp [h1]
  · simp only [h1, decide_false, Bool.false_and]
    rw [BitVec.getLsbD, Nat.testBit_lt_two_pow (lt_of_lt_of_le h (Nat.pow_le_pow_right (by omega) (by omega)))]

/-- A value below 2^16 is its last two bytes. -/
theorem byteOf_half_setWidth {v : Word} (h : v.toNat < 2 ^ 16) : (byteOf v 2 ++ byteOf v 3 : BitVec 16).setWidth 32 = v := by
  apply BitVec.eq_of_getLsbD_eq
  intro j hj
  simp only [BitVec.getLsbD_setWidth, BitVec.getLsbD_append, getLsbD_byteOf, hj, decide_true, Bool.true_and]
  by_cases h1 : j < 8
  · simp [h1]
  · by_cases h2 : j - 8 < 8
    · simp [h1, h2]; congr 1; omega
    · simp only [h1, h2, if_false, decide_false, Bool.false_and]
      rw [BitVec.getLsbD, Nat.testBit_lt_two_pow (lt_of_lt_of_le h (Nat.pow_le_pow_right (by omega) (by omega)))]

/-! ### Physical memory -/

/-- A memory read answers the value the bytes hold. -/
theorem memRead_of_holds {m : Memory} {a : Nat} {n : Size} {v : Word} (h : Holds m a n v) : memRead m a n = .ok v := by
  obtain ⟨hb, hv⟩ := h
  cases n with
  | byte =>
    have h0 := hb 0 (by decide)
    simp only [Nat.add_zero, Size.bytes] at h0
    simp only [memRead, readByte, h0, ok_bind]
    rw [byteOf_three_setWidth (by simpa [Size.bytes] using hv)]
  | half =>
    have h0 := hb 0 (by decide)
    have h1 := hb 1 (by decide)
    simp only [Nat.add_zero, Size.bytes] at h0 h1
    simp only [memRead, readByte, h0, h1, ok_bind]
    rw [byteOf_half_setWidth (by simpa [Size.bytes] using hv)]
  | word =>
    have h0 := hb 0 (by decide)
    have h1 := hb 1 (by decide)
    have h2 := hb 2 (by decide)
    have h3 := hb 3 (by decide)
    simp only [Nat.add_zero, Size.bytes] at h0 h1 h2 h3
    simp only [memRead, readByte, h0, h1, h2, h3, ok_bind]
    exact congrArg Except.ok (ofBytes_byteOf v)

theorem readByte_ok {m : Memory} {a : Nat} {b : Byte} (h : readByte m a = .ok b) : memByte m a = some b := by
  unfold readByte at h
  split at h
  · cases h; assumption
  · cases h

/-- A memory read that answers found its bytes. -/
theorem holds_of_memRead {m : Memory} {a : Nat} {n : Size} {v : Word} (h : memRead m a n = .ok v) : Holds m a n v := by
  cases n with
  | byte =>
    obtain ⟨b0, h0, h⟩ := bind_eq_ok.1 h
    cases h
    refine ⟨?_, ?_⟩
    · intro k hk
      have : k = 0 := by simp [Size.bytes] at hk; exact hk
      subst this
      rw [Nat.add_zero, readByte_ok h0]
      exact congrArg some (byteOf_setWidth_byte b0).symm
    · have := b0.isLt
      simp only [BitVec.toNat_setWidth, Size.bytes]; omega
  | half =>
    obtain ⟨b0, h0, h⟩ := bind_eq_ok.1 h
    obtain ⟨b1, h1, h⟩ := bind_eq_ok.1 h
    cases h
    refine ⟨?_, ?_⟩
    · intro k hk
      have : k = 0 ∨ k = 1 := by simp only [Size.bytes] at hk; omega
      rcases this with rfl | rfl
      · rw [Nat.add_zero, readByte_ok h0]
        exact congrArg some (byteOf_setWidth_half b0 b1).1.symm
      · rw [readByte_ok h1]
        exact congrArg some (byteOf_setWidth_half b0 b1).2.symm
    · have := (b0 ++ b1).isLt
      simp only [BitVec.toNat_setWidth, Size.bytes]; omega
  | word =>
    obtain ⟨b0, h0, h⟩ := bind_eq_ok.1 h
    obtain ⟨b1, h1, h⟩ := bind_eq_ok.1 h
    obtain ⟨b2, h2, h⟩ := bind_eq_ok.1 h
    obtain ⟨b3, h3, h⟩ := bind_eq_ok.1 h
    cases h
    obtain ⟨e0, e1, e2, e3⟩ := byteOf_ofBytes b0 b1 b2 b3
    refine ⟨?_, ?_⟩
    · intro k hk
      have : k = 0 ∨ k = 1 ∨ k = 2 ∨ k = 3 := by simp only [Size.bytes] at hk; omega
      rcases this with rfl | rfl | rfl | rfl
      · rw [Nat.add_zero, readByte_ok h0]; simp [Size.bytes, e0]
      · rw [readByte_ok h1]; simp [Size.bytes, e1]
      · rw [readByte_ok h2]; simp [Size.bytes, e2]
      · rw [readByte_ok h3]; simp [Size.bytes, e3]
    · simpa [Size.bytes] using (ofBytes b0 b1 b2 b3).isLt

/-- A read that does not answer met a byte with no value. -/
theorem memRead_of_missing {m : Memory} {a : Nat} {n : Size} (h : ∃ k < n.bytes, memByte m (a + k) = none) :
    memRead m a n = .error (.fault .unwrittenMemory) := by
  have key : ∀ x, (∃ b, readByte m x = .ok b) ∨ (readByte m x = .error (.fault .unwrittenMemory)) := by
    intro x; unfold readByte; split
    · exact .inl ⟨_, rfl⟩
    · exact .inr rfl
  cases hr : memRead m a n with
  | ok v =>
    obtain ⟨k, hk, hn⟩ := h
    rw [(holds_of_memRead hr).1 k hk] at hn
    cases hn
  | error e =>
    congr 1
    clear h
    cases n <;> simp only [memRead] at hr <;>
      rcases key a with ⟨b0, h0⟩ | h0 <;> rw [h0] at hr <;> simp at hr <;> try (exact hr.symm)
    all_goals rcases key (a + 1) with ⟨b1, h1⟩ | h1 <;> rw [h1] at hr <;> simp at hr <;> try (exact hr.symm)
    all_goals rcases key (a + 2) with ⟨b2, h2⟩ | h2 <;> rw [h2] at hr <;> simp at hr <;> try (exact hr.symm)
    all_goals rcases key (a + 3) with ⟨b3, h3⟩ | h3 <;> rw [h3] at hr <;> simp at hr <;> exact hr.symm

theorem needMemory_ok {pa : PAddr} {u : Unit} (h : needMemory pa = .ok u) : region pa = .memory := by
  unfold needMemory at h
  split at h
  · assumption
  · cases h
  · cases h

theorem needMemory_of {pa : PAddr} (h : region pa = .memory) : needMemory pa = .ok () := by simp [needMemory, h]

theorem storedBytes_length (v : Word) (n : Size) : (storedBytes v n).length = n.bytes := by cases n <;> rfl

theorem storedBytes_getElem (v : Word) (n : Size) {k : Nat} (h : k < (storedBytes v n).length) :
    (storedBytes v n)[k] = byteOf v (4 - n.bytes + k) := by
  rw [storedBytes_length] at h
  cases n
  · have : k = 0 := by simp only [Size.bytes] at h; omega
    subst this; rfl
  · have : k = 0 ∨ k = 1 := by simp only [Size.bytes] at h; omega
    rcases this with rfl | rfl <;> rfl
  · have : k = 0 ∨ k = 1 ∨ k = 2 ∨ k = 3 := by simp only [Size.bytes] at h; omega
    rcases this with rfl | rfl | rfl | rfl <;> rfl

/-- Everything a store does to memory and to the cache histories. -/
theorem store_stored (s : State) (pa : PAddr) (n : Size) (v : Word) : Stored s (s.store pa n v) pa n v where
  bytes := by
    intro k hk
    rw [State.store_mem, memByte_memSetAll_same _ _ _ (by rw [storedBytes_length]; exact hk), storedBytes_getElem]
  others := by
    intro a ha
    rw [State.store_mem, memByte_memSetAll_other _ _ _ (by rw [storedBytes_length]; exact ha)]
  instrCache := rfl
  dataCache := rfl

/-- The word address of an aligned address is the address itself. -/
theorem wordAddr_of_aligned {pa : PAddr} (h : pa.toNat % 4 = 0) : wordAddr pa = pa := by
  apply BitVec.eq_of_getLsbD_eq
  intro j hj
  have e : ∀ j : Fin 34, (0x3FFFFFFFC#34).getLsbD j.val = decide (2 ≤ j.val) := by decide
  simp only [wordAddr, BitVec.getLsbD_and, e ⟨j, hj⟩]
  by_cases h2 : 2 ≤ j
  · simp [h2]
  · simp only [h2, decide_false, Bool.and_false]
    rw [BitVec.getLsbD]
    have h0 : pa.toNat.testBit j = (pa.toNat % 2 ^ 2).testBit j := by
      rw [Nat.testBit_mod_two_pow]; simp [show j < 2 by omega]
    rw [h0, show (2 : Nat) ^ 2 = 4 from rfl, h, Nat.zero_testBit]

/-- The word address is a multiple of four. -/
theorem wordAddr_mod (pa : PAddr) : (wordAddr pa).toNat % 4 = 0 := by
  have h0 : ∀ j, j < 2 → (wordAddr pa).toNat.testBit j = false := by
    intro j hj
    have : (wordAddr pa).getLsbD j = false := by
      simp only [wordAddr, BitVec.getLsbD_and]
      have : (0x3FFFFFFFC#34).getLsbD j = false := by
        have : j = 0 ∨ j = 1 := by omega
        rcases this with rfl | rfl <;> decide
      rw [this, Bool.and_false]
    exact this
  have e0 := h0 0 (by omega)
  have e1 := h0 1 (by omega)
  rw [Nat.testBit_zero] at e0
  rw [Nat.testBit_succ, Nat.testBit_zero] at e1
  simp at e0 e1
  omega

/-! ### Translation and checks -/

/-- A data access that passes its checks gets its physical address. -/
theorem dataAddress_of_reaches {s : State} {write : Bool} {seg : SegId} {ofs : Word} {n : Size} {pa : PAddr} (instr : Word)
    (h : Reaches s write seg ofs n pa) : dataAddress instr write seg ofs n s = .ok ⟨pa, none⟩ := by
  unfold dataAddress
  have ha : (ofs.toNat % n.bytes != 0) = false := by simp [h.aligned]
  rw [ha, trapIf_false, ok_bind]
  by_cases hd : s.pswD = true
  · obtain ⟨e, he, hp, hpa⟩ := h.mapped hd
    rw [if_pos hd, he]
    have hw : dirtyCheck instr write seg ofs e = .ok () := by
      unfold dirtyCheck
      cases hwr : write
      · simp
      · simp [hp.dirtyTrap hwr]
    have hb : dataRefCheck instr write seg ofs e = .ok none := by unfold dataRefCheck; simp [hp.dataTrap]
    have hc : entryChecks instr write seg ofs s e = .ok none := by
      unfold entryChecks
      rw [hp.rights, hp.pid, hp.refTrap, Bool.not_true, trapIf_false, trapIf_false, trapIf_false]
      simp only [ok_bind, hw, hb]
    simp only [hc, ok_bind, hpa]
  · have hd' : s.pswD = false := by simpa using hd
    rw [if_neg hd, h.physical hd']

/-- Everything a data access's address can be: it passed every check, and no trap follows. -/
theorem reaches_of_dataAddress {s : State} {write : Bool} {seg : SegId} {ofs : Word} {n : Size} {t : Translated} {instr : Word}
    (h : dataAddress instr write seg ofs n s = .ok t) : Reaches s write seg ofs n t.pa ∧ t.after = none := by
  unfold dataAddress at h
  obtain ⟨u, ha, h⟩ := bind_eq_ok.1 h
  have ha := trapIf_ok ha
  have ha : ofs.toNat % n.bytes = 0 := by simpa using ha
  split at h
  · next hd =>
    split at h
    · cases h
    · next e he =>
      obtain ⟨after, hc, h⟩ := bind_eq_ok.1 h
      cases h
      unfold entryChecks at hc
      obtain ⟨_, h1, hc⟩ := bind_eq_ok.1 hc
      obtain ⟨_, h2, hc⟩ := bind_eq_ok.1 hc
      obtain ⟨_, h3, hc⟩ := bind_eq_ok.1 hc
      obtain ⟨_, h4, h5⟩ := bind_eq_ok.1 hc
      have h1 := trapIf_ok h1
      have h2 := trapIf_ok h2
      have h3 := trapIf_ok h3
      have h4' : write = true → e.dirtyTrap = false := by
        intro hw
        unfold dirtyCheck Config.trapDirty at h4
        by_contra hne
        rw [hw, Bool.true_and, if_pos (by simpa using hne)] at h4
        cases h4
      have h5' : e.dataTrap = false ∧ after = none := by
        unfold dataRefCheck Config.trapDataRef at h5
        split at h5
        · cases h5
        · next hb => exact ⟨by simpa using hb, by cases h5; rfl⟩
      refine ⟨⟨ha, fun hf => ?_, fun _ => ⟨e, he, ⟨by simpa using h1, h2, h3, h4', h5'.1⟩, rfl⟩⟩, h5'.2⟩
      rw [hd] at hf; cases hf
  · next hd =>
    cases h
    exact ⟨⟨ha, fun _ => rfl, fun hd' => absurd hd' hd⟩, rfl⟩

/-- A read that passes its checks answers the value. -/
theorem dataRead_of_reads {s : State} {seg : SegId} {ofs : Word} {n : Size} {pa : PAddr} {v : Word} (instr : Word)
    (h : Reads s seg ofs n pa v) : dataRead instr seg ofs n s = .ok ⟨v, pa, none⟩ := by
  unfold dataRead physRead
  simp only [dataAddress_of_reaches instr h.reaches, ok_bind, needMemory_of h.memory, memRead_of_holds h.holds]

/-- Everything a read can answer. -/
theorem reads_of_dataRead {s : State} {seg : SegId} {ofs : Word} {n : Size} {l : Loaded} {instr : Word}
    (h : dataRead instr seg ofs n s = .ok l) : Reads s seg ofs n l.pa l.value ∧ l.after = none := by
  unfold dataRead at h
  obtain ⟨t, ht, h⟩ := bind_eq_ok.1 h
  obtain ⟨v, hv, h⟩ := bind_eq_ok.1 h
  cases h
  obtain ⟨hr, ha⟩ := reaches_of_dataAddress ht
  unfold physRead at hv
  obtain ⟨u, hm, hv⟩ := bind_eq_ok.1 hv
  exact ⟨⟨hr, needMemory_ok hm, holds_of_memRead hv⟩, ha⟩

theorem physWrite_of_memory {s : State} {pa : PAddr} (n : Size) (v : Word) (h : region pa = .memory) :
    physWrite s pa n v = .ok (s.store pa n v) := by
  unfold physWrite; rw [needMemory_of h, ok_bind]

theorem physWrite_ok {s t : State} {pa : PAddr} {n : Size} {v : Word} (h : physWrite s pa n v = .ok t) :
    region pa = .memory ∧ t = s.store pa n v := by
  unfold physWrite at h
  obtain ⟨u, hm, h⟩ := bind_eq_ok.1 h
  cases h
  exact ⟨needMemory_ok hm, rfl⟩

/-- A store that passes its checks is done. -/
theorem dataWrite_of_writes {s : State} {seg : SegId} {ofs : Word} {n : Size} {pa : PAddr} (instr : Word) (v : Word)
    (h : Writes s seg ofs n pa) : dataWrite instr seg ofs n v s = .ok (s.store pa n v) := by
  unfold dataWrite
  rw [dataAddress_of_reaches instr h.reaches, ok_bind, physWrite_of_memory n v h.memory]

/-- Everything a store can do. -/
theorem writes_of_dataWrite {s t : State} {seg : SegId} {ofs : Word} {n : Size} {v : Word} {instr : Word}
    (h : dataWrite instr seg ofs n v s = .ok t) : ∃ pa, Writes s seg ofs n pa ∧ t = s.store pa n v := by
  unfold dataWrite at h
  obtain ⟨tr, ht, h⟩ := bind_eq_ok.1 h
  obtain ⟨hm, rfl⟩ := physWrite_ok h
  exact ⟨tr.pa, ⟨(reaches_of_dataAddress ht).1, hm⟩, rfl⟩

/-! ### Widths, segments, operands -/

theorem accessSize_of {dw : Width} {n : Size} (instr : Word) (h : widthSize dw = some n) : accessSize instr dw = .ok n := by
  cases dw <;> simp_all [widthSize, accessSize]

theorem accessSize_ok {dw : Width} {n : Size} {instr : Word} (h : accessSize instr dw = .ok n) : widthSize dw = some n := by
  cases dw <;> simp_all [widthSize, accessSize]

/-- An operand fetch whose operands are there answers them. -/
theorem operands_of {s : State} {r : BitVec 4} {op : Operand} {x y : Word} (instr : Word) (h : OperandsAre s r op x y) :
    operands instr r op s = .ok ⟨x, y, none⟩ := by
  cases op with
  | imm val => obtain ⟨rfl, rfl⟩ := h; rfl
  | reg a b => obtain ⟨rfl, rfl⟩ := h; rfl
  | indexed dw a b =>
    obtain ⟨rfl, n, pa, hn, hr⟩ := h
    simp only [operands, memOperand, accessSize_of instr hn, dataRead_of_reads instr hr, ok_bind]
  | disp dw ofs b =>
    obtain ⟨rfl, n, pa, hn, hr⟩ := h
    simp only [operands, memOperand, accessSize_of instr hn, dataRead_of_reads instr hr, ok_bind]

theorem memOperand_ok {s : State} {r : BitVec 4} {dw : Width} {ofs : Word} {o : Operands} {instr : Word}
    (h : memOperand instr r dw ofs s = .ok o) : o.a = s.readGr r ∧ MemOperandIs s dw ofs o.b ∧ o.after = none := by
  unfold memOperand at h
  obtain ⟨n, hn, h⟩ := bind_eq_ok.1 h
  obtain ⟨l, hl, h⟩ := bind_eq_ok.1 h
  cases h
  obtain ⟨hr, ha⟩ := reads_of_dataRead hl
  exact ⟨rfl, ⟨n, l.pa, accessSize_ok hn, hr⟩, ha⟩

/-- Everything an operand fetch can answer. -/
theorem operandsAre_of {s : State} {r : BitVec 4} {op : Operand} {o : Operands} {instr : Word}
    (h : operands instr r op s = .ok o) : OperandsAre s r op o.a o.b ∧ o.after = none := by
  cases op with
  | imm val => cases h; exact ⟨⟨rfl, rfl⟩, rfl⟩
  | reg a b => cases h; exact ⟨⟨rfl, rfl⟩, rfl⟩
  | indexed dw a b => obtain ⟨h1, h2, h3⟩ := memOperand_ok h; exact ⟨⟨h1, h2⟩, h3⟩
  | disp dw ofs b => obtain ⟨h1, h2, h3⟩ := memOperand_ok h; exact ⟨⟨h1, h2⟩, h3⟩

/-- The leftmost bit of a word is its sign. -/
theorem flag_zero_iff (w : Word) : flag w 0 = true ↔ w.toInt < 0 := by
  rw [flag_eq, show w.getLsbD (31 - 0) = w.msb from (BitVec.msb_eq_getLsbD_last w).symm, BitVec.msb_eq_decide,
    BitVec.toInt_neg_iff, decide_eq_true_eq]
  omega

/-- The segment register selected by an offset is SR4 to SR7, by its two leftmost bits. -/
theorem segSelect_toNat (x : Word) : (segSelect x).toNat = 4 + x.toNat / 2 ^ 30 := by
  have hx := x.isLt
  have : (field x 0 2).toNat = x.toNat / 2 ^ 30 := by
    simp only [field, BitVec.extractLsb'_toNat, Nat.shiftRight_eq_div_pow]
    norm_num
    omega
  unfold segSelect
  rw [BitVec.toNat_append, this]
  have h4 : x.toNat / 2 ^ 30 < 4 := by omega
  have : (1#1).toNat <<< 2 = 4 := rfl
  rw [this]
  have : x.toNat / 2 ^ 30 = 0 ∨ x.toNat / 2 ^ 30 = 1 ∨ x.toNat / 2 ^ 30 = 2 ∨ x.toNat / 2 ^ 30 = 3 := by omega
  rcases this with h | h | h | h <;> rw [h] <;> rfl

end Sys2Proof.Machine
end

