-- ==== Sys2Proof/Laws/Cache.lean ====
section
/-! SUPPORT. What the cache operations can do (20_memory.md R121, R123): a choice is among what there is, a purged byte is the current
one or one of the history, memory keeps its canonical form, the histories stay histories of aligned words. -/

namespace Sys2Proof.Machine

/-- A free choice is one of the things there are. -/
theorem chooseAmong_mem {α : Type} (k : Nat) (first : α) (rest : List α) : chooseAmong k first rest ∈ first :: rest := by
  unfold chooseAmong
  cases rest with
  | nil => simp
  | cons y ys =>
    dsimp only
    have hk := Nat.mod_lt (Config.freeIndex k) (show 0 < ys.length + 2 by omega)
    rw [List.getD_eq_getElem _ _ (by simp; omega)]
    exact List.getElem_mem _

@[simp] theorem chooseAmong_nil {α : Type} (k : Nat) (first : α) : chooseAmong k first [] = first := rfl

theorem memByte_memPut_same {m : Memory} (a : Nat) (v : Option Byte) (h : Memory.wf m = true) : memByte (memPut m a v) a = v := by
  cases v with
  | none => exact memByte_memClear_same a h
  | some b => exact memByte_memSet_same m a b

theorem memByte_memPut_other (m : Memory) {a x : Nat} (v : Option Byte) (h : x ≠ a) : memByte (memPut m a v) x = memByte m x := by
  cases v with
  | none => exact memByte_memClear_other m h
  | some b => exact memByte_memSet_other m b h

theorem revertByte_wf {m : Memory} (k a : Nat) (olds : List (Option Byte)) (h : Memory.wf m = true) :
    Memory.wf (revertByte k m a olds) = true := memPut_wf a _ h

theorem memByte_revertByte_other (k : Nat) (m : Memory) {a x : Nat} (olds : List (Option Byte)) (h : x ≠ a) :
    memByte (revertByte k m a olds) x = memByte m x := memByte_memPut_other m _ h

/-- A reverted byte is the current one or one it held. -/
theorem memByte_revertByte_same {m : Memory} (k a : Nat) (olds : List (Option Byte)) (h : Memory.wf m = true) :
    memByte (revertByte k m a olds) a = memByte m a ∨ memByte (revertByte k m a olds) a ∈ olds := by
  unfold revertByte
  rw [memByte_memPut_same a _ h]
  exact List.mem_cons.1 (chooseAmong_mem k (memByte m a) olds)

theorem revertWord_wf {s : State} (a : Nat) (h : Memory.wf s.mem = true) : Memory.wf (s.revertWord a).mem = true :=
  revertByte_wf _ _ _ (revertByte_wf _ _ _ (revertByte_wf _ _ _ (revertByte_wf _ _ _ h)))

theorem memByte_revertWord_other (s : State) {a x : Nat} (h : ¬ (a ≤ x ∧ x < a + 4)) :
    memByte (s.revertWord a).mem x = memByte s.mem x := by
  unfold State.revertWord
  dsimp only
  rw [memByte_revertByte_other _ _ _ (by omega), memByte_revertByte_other _ _ _ (by omega),
    memByte_revertByte_other _ _ _ (by omega), memByte_revertByte_other _ _ _ (by omega)]

/-- Byte `x` of memory under a history entry: the value that the entry kept for it. -/
def OldWord.kept (o : OldWord) (x : Nat) (v : Option Byte) : Prop :=
  (x = o.addr ∧ v = o.b0) ∨ (x = o.addr + 1 ∧ v = o.b1) ∨ (x = o.addr + 2 ∧ v = o.b2) ∨ (x = o.addr + 3 ∧ v = o.b3)

theorem mem_olds {l : List OldWord} {a : Nat} {f : OldWord → Option Byte} {v : Option Byte}
    (h : v ∈ (l.filter (fun o => o.addr == a)).map f) : ∃ o ∈ l, o.addr = a ∧ v = f o := by
  obtain ⟨o, ho, rfl⟩ := List.mem_map.1 h
  rw [List.mem_filter] at ho
  exact ⟨o, ho.1, by simpa using ho.2, rfl⟩

/-- Every byte after a word reverted: the current one, or one that a history entry of the word kept. -/
theorem memByte_revertWord {s : State} (a x : Nat) (h : Memory.wf s.mem = true) :
    memByte (s.revertWord a).mem x = memByte s.mem x ∨
      ∃ o ∈ s.dOld, o.addr = a ∧ o.kept x (memByte (s.revertWord a).mem x) := by
  by_cases hx : a ≤ x ∧ x < a + 4
  · have h0 := revertByte_wf s.freeCount a ((s.dOld.filter (fun o => o.addr == a)).map (·.b0)) h
    have h1 := revertByte_wf (s.freeCount + 1) (a + 1) ((s.dOld.filter (fun o => o.addr == a)).map (·.b1)) h0
    have h2 := revertByte_wf (s.freeCount + 2) (a + 2) ((s.dOld.filter (fun o => o.addr == a)).map (·.b2)) h1
    unfold State.revertWord
    dsimp only
    obtain rfl | rfl | rfl | rfl : x = a ∨ x = a + 1 ∨ x = a + 2 ∨ x = a + 3 := by omega
    · rw [memByte_revertByte_other _ _ _ (by omega), memByte_revertByte_other _ _ _ (by omega),
        memByte_revertByte_other _ _ _ (by omega)]
      rcases memByte_revertByte_same s.freeCount x ((s.dOld.filter (fun o => o.addr == x)).map (·.b0)) h with e | e
      · exact .inl e
      · obtain ⟨o, ho, ha, hv⟩ := mem_olds e
        exact .inr ⟨o, ho, ha, .inl ⟨ha.symm, hv⟩⟩
    · rw [memByte_revertByte_other _ _ _ (by omega), memByte_revertByte_other _ _ _ (by omega)]
      rcases memByte_revertByte_same (s.freeCount + 1) (a + 1) ((s.dOld.filter (fun o => o.addr == a)).map (·.b1)) h0 with e | e
      · rw [e]; exact .inl (memByte_revertByte_other _ _ _ (by omega))
      · obtain ⟨o, ho, ha, hv⟩ := mem_olds e
        exact .inr ⟨o, ho, ha, .inr (.inl ⟨by omega, hv⟩)⟩
    · rw [memByte_revertByte_other _ _ _ (by omega)]
      rcases memByte_revertByte_same (s.freeCount + 2) (a + 2) ((s.dOld.filter (fun o => o.addr == a)).map (·.b2)) h1 with e | e
      · rw [e]; exact .inl ((memByte_revertByte_other _ _ _ (by omega)).trans (memByte_revertByte_other _ _ _ (by omega)))
      · obtain ⟨o, ho, ha, hv⟩ := mem_olds e
        exact .inr ⟨o, ho, ha, .inr (.inr (.inl ⟨by omega, hv⟩))⟩
    · rcases memByte_revertByte_same (s.freeCount + 3) (a + 3) ((s.dOld.filter (fun o => o.addr == a)).map (·.b3)) h2 with e | e
      · rw [e]
        exact .inl ((memByte_revertByte_other _ _ _ (by omega)).trans
          ((memByte_revertByte_other _ _ _ (by omega)).trans (memByte_revertByte_other _ _ _ (by omega))))
      · obtain ⟨o, ho, ha, hv⟩ := mem_olds e
        exact .inr ⟨o, ho, ha, .inr (.inr (.inr ⟨by omega, hv⟩))⟩
  · exact .inl (memByte_revertWord_other s hx)

/-- Everything that reverting distinct words one after the other does: memory stays canonical, a byte is the one before or one
that a history entry of its word kept, the histories only grow by entries for these words, nothing else but the count of free
values changes. -/
theorem revertWords (l : List Nat) (s : State) (hn : l.Nodup) (h : Memory.wf s.mem = true) :
    Memory.wf (l.foldl State.revertWord s).mem = true ∧
    (∀ x, memByte (l.foldl State.revertWord s).mem x = memByte s.mem x ∨
      ∃ o ∈ s.dOld, o.addr ∈ l ∧ o.kept x (memByte (l.foldl State.revertWord s).mem x)) ∧
    (∀ o ∈ (l.foldl State.revertWord s).iOld, o ∈ s.iOld ∨ o.addr ∈ l) ∧
    (∀ o ∈ (l.foldl State.revertWord s).dOld, o ∈ s.dOld ∨ o.addr ∈ l) := by
  induction l generalizing s with
  | nil => exact ⟨h, fun _ => .inl rfl, fun _ h => .inl h, fun _ h => .inl h⟩
  | cons a l ih =>
    rw [List.foldl_cons]
    have hw := revertWord_wf a h
    obtain ⟨i1, i2, i3, i4⟩ := ih (s.revertWord a) (List.nodup_cons.1 hn).2 hw
    have hna := (List.nodup_cons.1 hn).1
    refine ⟨i1, fun x => ?_, fun o ho => ?_, fun o ho => ?_⟩
    · rcases i2 x with e | ⟨o, ho, hol, hk⟩
      · rw [e]
        rcases memByte_revertWord a x h with e' | ⟨o, ho, hoa, hk⟩
        · exact .inl e'
        · exact .inr ⟨o, ho, by rw [hoa]; exact List.mem_cons_self .., hk⟩
      · have ho' : o = oldWordAt s.mem a ∨ o ∈ s.dOld := List.mem_cons.1 ho
        rcases ho' with rfl | ho'
        · exact absurd hol hna
        · exact .inr ⟨o, ho', List.mem_cons_of_mem _ hol, hk⟩
    · rcases i3 o ho with e | e
      · have e' : o = oldWordAt s.mem a ∨ o ∈ s.iOld := List.mem_cons.1 e
        rcases e' with rfl | e'
        · exact .inr (List.mem_cons_self ..)
        · exact .inl e'
      · exact .inr (List.mem_cons_of_mem _ e)
    · rcases i4 o ho with e | e
      · have e' : o = oldWordAt s.mem a ∨ o ∈ s.dOld := List.mem_cons.1 e
        rcases e' with rfl | e'
        · exact .inr (List.mem_cons_self ..)
        · exact .inl e'
      · exact .inr (List.mem_cons_of_mem _ e)

/-- Reverting words of one line leaves what both histories hold of the other lines as it was. -/
theorem revertWords_otherLines (l : List Nat) (s : State) (line : Nat) (hl : ∀ a ∈ l, lineOf a = line) :
    (l.foldl State.revertWord s).iOld.filter (fun o => lineOf o.addr != line) = s.iOld.filter (fun o => lineOf o.addr != line) ∧
    (l.foldl State.revertWord s).dOld.filter (fun o => lineOf o.addr != line) = s.dOld.filter (fun o => lineOf o.addr != line) := by
  induction l generalizing s with
  | nil => exact ⟨rfl, rfl⟩
  | cons a l ih =>
    have ha : (lineOf (oldWordAt s.mem a).addr != line) = false := by simpa [oldWordAt] using hl a (List.mem_cons_self ..)
    obtain ⟨h1, h2⟩ := ih (s.revertWord a) (fun x hx => hl x (List.mem_cons_of_mem _ hx))
    exact ⟨h1.trans (List.filter_cons_of_neg (by simp [ha])), h2.trans (List.filter_cons_of_neg (by simp [ha]))⟩

/-- Another aligned word holds what it held before a word reverted. -/
theorem oldWordAt_revertWord_other (s : State) {a x : Nat} (ha : a % 4 = 0) (hx : x % 4 = 0) (h : x ≠ a) :
    oldWordAt (s.revertWord a).mem x = oldWordAt s.mem x := by
  unfold oldWordAt
  rw [memByte_revertWord_other s (by omega), memByte_revertWord_other s (by omega), memByte_revertWord_other s (by omega),
    memByte_revertWord_other s (by omega)]

/-- The histories after distinct aligned words reverted: what they were, and what these words held before. -/
theorem revertWords_histories (l : List Nat) (s : State) (hn : l.Nodup) (hl : ∀ a ∈ l, a % 4 = 0) (o : OldWord) :
    (o ∈ (l.foldl State.revertWord s).iOld ↔ o ∈ s.iOld ∨ (o.addr ∈ l ∧ o = oldWordAt s.mem o.addr)) ∧
    (o ∈ (l.foldl State.revertWord s).dOld ↔ o ∈ s.dOld ∨ (o.addr ∈ l ∧ o = oldWordAt s.mem o.addr)) := by
  induction l generalizing s with
  | nil => simp
  | cons a l ih =>
    obtain ⟨hna, hn⟩ := List.nodup_cons.1 hn
    have ha := hl a (List.mem_cons_self ..)
    have hl' : ∀ x ∈ l, x % 4 = 0 := fun x hx => hl x (List.mem_cons_of_mem _ hx)
    have hd : o = oldWordAt s.mem a ↔ o.addr = a ∧ o = oldWordAt s.mem o.addr :=
      ⟨fun h => by subst h; exact ⟨rfl, rfl⟩, fun ⟨h1, h2⟩ => by rw [h1] at h2; exact h2⟩
    have hr : (o.addr ∈ l ∧ o = oldWordAt (s.revertWord a).mem o.addr) ↔ (o.addr ∈ l ∧ o = oldWordAt s.mem o.addr) := by
      refine and_congr_right fun h => ?_
      rw [oldWordAt_revertWord_other s ha (hl' _ h) (fun e => hna (e ▸ h))]
    have hi : o ∈ (s.revertWord a).iOld ↔ o = oldWordAt s.mem a ∨ o ∈ s.iOld := List.mem_cons
    have hdo : o ∈ (s.revertWord a).dOld ↔ o = oldWordAt s.mem a ∨ o ∈ s.dOld := List.mem_cons
    obtain ⟨h1, h2⟩ := ih (s.revertWord a) hn hl'
    rw [List.foldl_cons, h1, h2, hr, hi, hdo, List.mem_cons, hd]
    have key (A B I E : Prop) : ((A ∧ E) ∨ I) ∨ (B ∧ E) ↔ I ∨ ((A ∨ B) ∧ E) := by
      rw [or_comm (a := A ∧ E), or_assoc, or_and_right]
    exact ⟨key .., key ..⟩

/-- The other fields are as before the reverts. -/
theorem revertWords_frame (l : List Nat) (s : State) :
    ∃ (m : Memory) (i d : List OldWord) (k : Nat),
      l.foldl State.revertWord s = { s with mem := m, iOld := i, dOld := d, freeCount := k } := by
  induction l generalizing s with
  | nil => exact ⟨s.mem, s.iOld, s.dOld, s.freeCount, rfl⟩
  | cons a l ih =>
    obtain ⟨m, i, d, k, e⟩ := ih (s.revertWord a)
    exact ⟨m, i, d, k, e⟩

theorem mem_dirtyWords_iff {s : State} {pa : PAddr} {a : Nat} :
    a ∈ s.dirtyWords pa ↔ lineOf a = lineOf pa.toNat ∧ ∃ o ∈ s.dOld, o.addr = a := by
  unfold State.dirtyWords
  rw [List.mem_dedup, List.mem_map]
  constructor
  · rintro ⟨o, ho, rfl⟩
    rw [List.mem_filter] at ho
    exact ⟨by simpa [OldWord.inLine] using ho.2, o, ho.1, rfl⟩
  · rintro ⟨hl, o, ho, rfl⟩
    exact ⟨o, List.mem_filter.2 ⟨ho, by simpa [OldWord.inLine] using hl⟩, rfl⟩

theorem mem_dirtyWords {s : State} {pa : PAddr} {a : Nat} (h : a ∈ s.dirtyWords pa) :
    lineOf a = lineOf pa.toNat ∧ ∃ o ∈ s.dOld, o.addr = a := mem_dirtyWords_iff.1 h

theorem dirtyWords_nodup (s : State) (pa : PAddr) : (s.dirtyWords pa).Nodup := List.nodup_dedup _

/-- Everything a purge without flush does to memory. -/
theorem purgeDataLine_memory {s : State} (pa : PAddr) (h : Memory.wf s.mem = true) :
    Memory.wf (s.purgeDataLine pa).mem = true ∧
    ∀ x, memByte (s.purgeDataLine pa).mem x = memByte s.mem x ∨
      ∃ o ∈ s.dOld, lineOf o.addr = lineOf pa.toNat ∧ o.kept x (memByte (s.purgeDataLine pa).mem x) := by
  obtain ⟨h1, h2, _, _⟩ := revertWords (s.dirtyWords pa) s (dirtyWords_nodup s pa) h
  refine ⟨h1, fun x => ?_⟩
  rcases h2 x with e | ⟨o, ho, hl, hk⟩
  · exact .inl e
  · exact .inr ⟨o, ho, (mem_dirtyWords hl).1, hk⟩

/-- A purge without flush keeps both histories histories of aligned words. -/
theorem purgeDataLine_aligned {s : State} (pa : PAddr) (h : Memory.wf s.mem = true) (hi : ∀ o ∈ s.iOld, o.addr % 4 = 0)
    (hd : ∀ o ∈ s.dOld, o.addr % 4 = 0) :
    (∀ o ∈ (s.purgeDataLine pa).iOld, o.addr % 4 = 0) ∧ ∀ o ∈ (s.purgeDataLine pa).dOld, o.addr % 4 = 0 := by
  have ha : ∀ a ∈ s.dirtyWords pa, a % 4 = 0 := by
    intro a ha
    obtain ⟨_, o, ho, rfl⟩ := mem_dirtyWords ha
    exact hd o ho
  obtain ⟨_, _, h3, h4⟩ := revertWords (s.dirtyWords pa) s (dirtyWords_nodup s pa) h
  exact ⟨fun o ho => (h3 o ho).elim (hi o) (ha _), fun o ho => (h4 o ho).elim (hd o) (ha _)⟩

/-- A purge without flush leaves what both histories hold of the other lines as it was. -/
theorem purgeDataLine_otherLines (s : State) (pa : PAddr) :
    (s.purgeDataLine pa).iOld.filter (fun o => lineOf o.addr != lineOf pa.toNat) =
      s.iOld.filter (fun o => lineOf o.addr != lineOf pa.toNat) ∧
    (s.purgeDataLine pa).dOld.filter (fun o => lineOf o.addr != lineOf pa.toNat) =
      s.dOld.filter (fun o => lineOf o.addr != lineOf pa.toNat) :=
  revertWords_otherLines _ s _ fun _ h => (mem_dirtyWords h).1

/-- The histories after a purge without flush: what they were, and what the line's words with unflushed stores held before. -/
theorem purgeDataLine_histories {s : State} (pa : PAddr) (hd : ∀ o ∈ s.dOld, o.addr % 4 = 0) (o : OldWord) :
    (o ∈ (s.purgeDataLine pa).iOld ↔ o ∈ s.iOld ∨ (o.addr ∈ s.dirtyWords pa ∧ o = oldWordAt s.mem o.addr)) ∧
    (o ∈ (s.purgeDataLine pa).dOld ↔ o ∈ s.dOld ∨ (o.addr ∈ s.dirtyWords pa ∧ o = oldWordAt s.mem o.addr)) := by
  refine revertWords_histories _ s (dirtyWords_nodup s pa) (fun a ha => ?_) o
  obtain ⟨_, x, hx, rfl⟩ := mem_dirtyWords ha
  exact hd x hx

/-- A flush leaves the history of the other lines as it was. -/
theorem flushDataLine_otherLines (s : State) (pa : PAddr) :
    (s.flushDataLine pa).dOld.filter (fun o => lineOf o.addr != lineOf pa.toNat) =
      s.dOld.filter (fun o => lineOf o.addr != lineOf pa.toNat) := by
  simp [State.flushDataLine, OldWord.inLine, List.filter_filter, bne]

/-- A purge of an instruction line leaves the history of the other lines as it was. -/
theorem purgeInstrLine_otherLines (s : State) (pa : PAddr) :
    (s.purgeInstrLine pa).iOld.filter (fun o => lineOf o.addr != lineOf pa.toNat) =
      s.iOld.filter (fun o => lineOf o.addr != lineOf pa.toNat) := by
  simp [State.purgeInstrLine, OldWord.inLine, List.filter_filter, bne]

/-- A flushed line has no history left. -/
theorem flushDataLine_dOld (s : State) (pa : PAddr) : ∀ o ∈ (s.flushDataLine pa).dOld, lineOf o.addr ≠ lineOf pa.toNat := by
  intro o ho
  have := (List.mem_filter.1 ho).2
  simpa [OldWord.inLine] using this

/-- After a purge of its line the instruction cache holds of it exactly what the data cache had not flushed. -/
theorem purgeInstrLine_line {s : State} {pa : PAddr} {o : OldWord} (h : lineOf o.addr = lineOf pa.toNat) :
    o ∈ (s.purgeInstrLine pa).iOld ↔ o ∈ s.dOld := by
  simp [State.purgeInstrLine, OldWord.inLine, h]

/-- After a purge of its line the instruction cache holds of it only what the data cache had not flushed. -/
theorem purgeInstrLine_iOld (s : State) (pa : PAddr) :
    ∀ o ∈ (s.purgeInstrLine pa).iOld, o ∈ s.dOld ∨ (o ∈ s.iOld ∧ lineOf o.addr ≠ lineOf pa.toNat) := by
  intro o ho
  rcases List.mem_append.1 ho with h | h
  · exact .inl (List.mem_filter.1 h).1
  · obtain ⟨h1, h2⟩ := List.mem_filter.1 h
    exact .inr ⟨h1, by simpa [OldWord.inLine] using h2⟩

end Sys2Proof.Machine
end

