-- ==== Sys2Proof/Laws/Encoding.lean ====
section
/-! SUPPORT. The fields of an encoded word (30_encoding.md R142, R143): each code's bits give the code back, and an operand-format or
MEM-format word gives its fields back. -/

namespace Sys2Proof

@[simp] theorem Width.ofBits_toBits (d : Width) : Width.ofBits d.toBits = d := by cases d <;> rfl
@[simp] theorem Cond.ofBits_toBits (c : Cond) : Cond.ofBits c.toBits = c := by cases c <;> rfl
@[simp] theorem MstMode.ofBits_toBits (m : MstMode) : MstMode.ofBits m.toBits = m := by cases m <;> rfl
@[simp] theorem MoveCond.ofBits_toBits (c : MoveCond) : MoveCond.ofBits c.toBits = c := by
  cases c with
  | undefined c => revert c; decide
  | _ => rfl
@[simp] theorem Width.toBits_ofBits (x : BitVec 2) : (Width.ofBits x).toBits = x := by revert x; decide
@[simp] theorem Cond.toBits_ofBits (x : BitVec 2) : (Cond.ofBits x).toBits = x := by revert x; decide
@[simp] theorem MstMode.toBits_ofBits (x : BitVec 2) : (MstMode.ofBits x).toBits = x := by revert x; decide
@[simp] theorem MoveCond.toBits_ofBits (x : BitVec 4) : (MoveCond.ofBits x).toBits = x := by revert x; decide

theorem ofBool_beq_one (b : Bool) : (BitVec.ofBool b == 1#1) = b := by cases b <;> rfl

theorem ofBool_flag (w : Word) (i : Nat) : BitVec.ofBool (flag w i) = field w i 1 := by
  unfold flag; generalize field w i 1 = x; revert x; decide

theorem checked_ok {ok : Bool} {i j : Instr} : checked ok i = .ok j ↔ ok = true ∧ i = j := by cases ok <;> simp [checked]

/-- An encoded operand decodes to itself, whatever stands before it. -/
theorem decodeOperand_encodeOperand (x : BitVec 12) (op : Operand) : decodeOperand (x ++ encodeOperand op) = (op, true) := by
  cases op <;>
  simp (disch := decide) only [decodeOperand, encodeOperand, field, BitVec.extractLsb'_append_eq_of_le,
    BitVec.extractLsb'_append_eq_of_add_le, Nat.reduceSub, BitVec.extractLsb'_eq_self, Width.ofBits_toBits] <;> rfl

/-- The fields of an operand-format word. -/
theorem encodeOpr_fields (opcode : BitVec 6) (r : BitVec 4) (opt : BitVec 2) (op : Operand) :
    field (encodeOpr opcode r opt op) 0 6 = opcode ∧ field (encodeOpr opcode r opt op) 6 4 = r ∧
    field (encodeOpr opcode r opt op) 10 2 = opt ∧ decodeOperand (encodeOpr opcode r opt op) = (op, true) := by
  refine ⟨?_, ?_, ?_, decodeOperand_encodeOperand _ _⟩ <;>
  simp (disch := decide) only [encodeOpr, field, BitVec.extractLsb'_append_eq_of_le, BitVec.extractLsb'_append_eq_of_add_le,
    Nat.reduceSub, BitVec.extractLsb'_eq_self]

/-- The option letters of an operand-format word. -/
theorem encodeOpr_flags (opcode : BitVec 6) (r : BitVec 4) (x y : Bool) (op : Operand) :
    flag (encodeOpr opcode r (optBits x y) op) 10 = x ∧ flag (encodeOpr opcode r (optBits x y) op) 11 = y := by
  constructor <;>
  simp (disch := decide) only [flag, optBits, encodeOpr, field, BitVec.extractLsb'_append_eq_of_le,
    BitVec.extractLsb'_append_eq_of_add_le, Nat.reduceSub, BitVec.extractLsb'_eq_self, ofBool_beq_one]

/-- The fields of a MEM-format word. -/
theorem encodeMem_fields (opcode : BitVec 6) (r : BitVec 4) (optM : Bool) (seg dw : BitVec 2) (disp : Disp) (b : BitVec 4) :
    field (encodeMem opcode r optM seg dw disp b) 0 6 = opcode ∧ field (encodeMem opcode r optM seg dw disp b) 6 4 = r ∧
    flag (encodeMem opcode r optM seg dw disp b) 11 = optM ∧ field (encodeMem opcode r optM seg dw disp b) 12 2 = seg ∧
    field (encodeMem opcode r optM seg dw disp b) 14 2 = dw ∧ field (encodeMem opcode r optM seg dw disp b) 28 4 = b := by
  refine ⟨?_, ?_, ?_, ?_, ?_, ?_⟩ <;>
  simp (disch := decide) only [encodeMem, flag, field, BitVec.extractLsb'_append_eq_of_le, BitVec.extractLsb'_append_eq_of_add_le,
    Nat.reduceSub, BitVec.extractLsb'_eq_self, ofBool_beq_one]

/-- The displacement of a MEM-format word. -/
theorem decodeDisp_encodeMem (opcode : BitVec 6) (r : BitVec 4) (optM : Bool) (seg dw : BitVec 2) (disp : Disp) (b : BitVec 4) :
    decodeDisp (encodeMem opcode r optM seg dw disp b) = (disp, true) := by
  cases disp <;>
  simp (disch := decide) only [decodeDisp, Disp.bits, Disp.indexBit, encodeMem, flag, field, BitVec.extractLsb'_append_eq_of_le,
    BitVec.extractLsb'_append_eq_of_add_le, Nat.reduceSub, BitVec.extractLsb'_eq_self] <;> rfl

/-- Bits 12 to 15 of a word are `seg` and `dw`. -/
theorem field_seg_dw (w : Word) : field w 12 4 = field w 12 2 ++ field w 14 2 := by
  unfold field
  apply BitVec.eq_of_getLsbD_eq
  intro j hj
  simp only [BitVec.getLsbD_append, BitVec.getLsbD_extractLsb']
  by_cases h : j < 2
  · simp [h, show j < 4 by omega]
  · simp [h, hj, show j - 2 < 2 by omega, show 18 + (j - 2) = 16 + j by omega]

end Sys2Proof
end

