-- ==== Sys2Proof/Laws/Exec.lean ====
section
/-! SUPPORT. `exec` on each constructor is that instruction's meaning, and what GATE is in this configuration. -/

namespace Sys2Proof.Machine

@[simp] theorem exec_brk (info1 : BitVec 4) (info2 : BitVec 16) (s : State) :
    exec (.brk info1 info2) s = execBrk info1 info2 s := rfl
@[simp] theorem exec_ldil (r : BitVec 4) (val : BitVec 22) (s : State) :
    exec (.ldil r val) s = execLdil r val s := rfl
@[simp] theorem exec_addil (r : BitVec 4) (val : BitVec 22) (s : State) :
    exec (.addil r val) s = execAddil r val s := rfl
@[simp] theorem exec_ldo (r : BitVec 4) (ofs : BitVec 18) (b : BitVec 4) (s : State) :
    exec (.ldo r ofs b) s = execLdo r ofs b s := rfl
@[simp] theorem exec_lsid (r b : BitVec 4) (s : State) :
    exec (.lsid r b) s = execLsid r b s := rfl
@[simp] theorem exec_extr (r : BitVec 4) (optS optA : Bool) (len pos : BitVec 5) (b : BitVec 4) (s : State) :
    exec (.extr r optS optA len pos b) s = execExtr r optS optA len pos b s := rfl
@[simp] theorem exec_dep (r : BitVec 4) (optZ optA optI : Bool) (len pos : BitVec 5) (b : BitVec 4) (s : State) :
    exec (.dep r optZ optA optI len pos b) s = execDep r optZ optA optI len pos b s := rfl
@[simp] theorem exec_dsr (r : BitVec 4) (optA : Bool) (shamt : BitVec 5) (a b : BitVec 4) (s : State) :
    exec (.dsr r optA shamt a b) s = execDsr r optA shamt a b s := rfl
@[simp] theorem exec_shla (r : BitVec 4) (optL optO : Bool) (sa : BitVec 2) (a b : BitVec 4) (s : State) :
    exec (.shla r optL optO sa a b) s = execShla r optL optO sa a b s := rfl
@[simp] theorem exec_cmr (r : BitVec 4) (cond : MoveCond) (a b : BitVec 4) (s : State) :
    exec (.cmr r cond a b) s = execCmr r cond a b s := rfl
@[simp] theorem exec_mr (r : BitVec 4) (optD optM : Bool) (num : BitVec 6) (s : State) :
    exec (.mr r optD optM num) s = execMr r optD optM num s := rfl
@[simp] theorem exec_mst (r : BitVec 4) (mode : MstMode) (b : BitVec 4) (s : State) :
    exec (.mst r mode b) s = execMst r mode b s := rfl
@[simp] theorem exec_ds (r a b : BitVec 4) (s : State) :
    exec (.ds r a b) s = execDs r a b s := rfl
@[simp] theorem exec_add (r : BitVec 4) (optL optO : Bool) (op : Operand) (s : State) :
    exec (.add r optL optO op) s = execAdd r optL optO op s := rfl
@[simp] theorem exec_adc (r : BitVec 4) (optL optO : Bool) (op : Operand) (s : State) :
    exec (.adc r optL optO op) s = execAdc r optL optO op s := rfl
@[simp] theorem exec_sub (r : BitVec 4) (optL optO : Bool) (op : Operand) (s : State) :
    exec (.sub r optL optO op) s = execSub r optL optO op s := rfl
@[simp] theorem exec_sbc (r : BitVec 4) (optL optO : Bool) (op : Operand) (s : State) :
    exec (.sbc r optL optO op) s = execSbc r optL optO op s := rfl
@[simp] theorem exec_and (r : BitVec 4) (optN optC : Bool) (op : Operand) (s : State) :
    exec (.and r optN optC op) s = execAnd r optN optC op s := rfl
@[simp] theorem exec_or (r : BitVec 4) (optN optC : Bool) (op : Operand) (s : State) :
    exec (.or r optN optC op) s = execOr r optN optC op s := rfl
@[simp] theorem exec_xor (r : BitVec 4) (optN : Bool) (op : Operand) (s : State) :
    exec (.xor r optN op) s = execXor r optN op s := rfl
@[simp] theorem exec_cmp (r : BitVec 4) (cond : Cond) (op : Operand) (s : State) :
    exec (.cmp r cond op) s = execCmp r cond op s := rfl
@[simp] theorem exec_cmpu (r : BitVec 4) (cond : Cond) (op : Operand) (s : State) :
    exec (.cmpu r cond op) s = execCmpu r cond op s := rfl
@[simp] theorem exec_b (r : BitVec 4) (ofs : BitVec 22) (s : State) :
    exec (.b r ofs) s = execB r ofs s := rfl
@[simp] theorem exec_gate (r : BitVec 4) (ofs : BitVec 22) (s : State) :
    exec (.gate r ofs) s = execGate r ofs s := rfl
@[simp] theorem exec_br (r b : BitVec 4) (s : State) :
    exec (.br r b) s = execBr r b s := rfl
@[simp] theorem exec_bv (r b : BitVec 4) (s : State) :
    exec (.bv r b) s = execBv r b s := rfl
@[simp] theorem exec_be (r : BitVec 4) (ofs : BitVec 14) (a b : BitVec 4) (s : State) :
    exec (.be r ofs a b) s = execBe r ofs a b s := rfl
@[simp] theorem exec_bve (r a b : BitVec 4) (s : State) :
    exec (.bve r a b) s = execBve r a b s := rfl
@[simp] theorem exec_cbr (cond : Cond) (ofs : BitVec 16) (a b : BitVec 4) (s : State) :
    exec (.cbr cond ofs a b) s = execCbr cond ofs a b s := rfl
@[simp] theorem exec_cbru (cond : Cond) (ofs : BitVec 16) (a b : BitVec 4) (s : State) :
    exec (.cbru cond ofs a b) s = execCbru cond ofs a b s := rfl
@[simp] theorem exec_ld (r : BitVec 4) (optM : Bool) (seg : BitVec 2) (dw : Width) (disp : Disp) (b : BitVec 4) (s : State) :
    exec (.ld r optM seg dw disp b) s = execLd r optM seg dw disp b s := rfl
@[simp] theorem exec_st (r : BitVec 4) (optM : Bool) (seg : BitVec 2) (dw : Width) (disp : Disp) (b : BitVec 4) (s : State) :
    exec (.st r optM seg dw disp b) s = execSt r optM seg dw disp b s := rfl
@[simp] theorem exec_lda (r : BitVec 4) (optM : Bool) (disp : Disp) (b : BitVec 4) (s : State) :
    exec (.lda r optM disp b) s = execLda r optM disp b s := rfl
@[simp] theorem exec_sta (r : BitVec 4) (optM : Bool) (disp : Disp) (b : BitVec 4) (s : State) :
    exec (.sta r optM disp b) s = execSta r optM disp b s := rfl
@[simp] theorem exec_ldr (r : BitVec 4) (seg : BitVec 2) (ofs : BitVec 12) (b : BitVec 4) (s : State) :
    exec (.ldr r seg ofs b) s = execLdr r seg ofs b s := rfl
@[simp] theorem exec_stc (r : BitVec 4) (seg : BitVec 2) (ofs : BitVec 12) (b : BitVec 4) (s : State) :
    exec (.stc r seg ofs b) s = execStc r seg ofs b s := rfl
@[simp] theorem exec_ldpa (r : BitVec 4) (seg : BitVec 2) (a b : BitVec 4) (s : State) :
    exec (.ldpa r seg a b) s = execLdpa r seg a b s := rfl
@[simp] theorem exec_prb (r : BitVec 4) (optW optI : Bool) (seg : BitVec 2) (a b : BitVec 4) (s : State) :
    exec (.prb r optW optI seg a b) s = execPrb r optW optI seg a b s := rfl
@[simp] theorem exec_itlb (r : BitVec 4) (optT : Bool) (a b : BitVec 4) (s : State) :
    exec (.itlb r optT a b) s = execItlb r optT a b s := rfl
@[simp] theorem exec_ptlb (optT optM : Bool) (seg : BitVec 2) (a b : BitVec 4) (s : State) :
    exec (.ptlb optT optM seg a b) s = execPtlb optT optM seg a b s := rfl
@[simp] theorem exec_pca (optT optM : Bool) (seg : BitVec 2) (optF : Bool) (a b : BitVec 4) (s : State) :
    exec (.pca optT optM seg optF a b) s = execPca optT optM seg optF a b s := rfl
@[simp] theorem exec_diag (r info a b : BitVec 4) (s : State) :
    exec (.diag r info a b) s = execDiag r info a b s := rfl
@[simp] theorem exec_rfi (s : State) :
    exec (.rfi) s = execRfi s := rfl

/-- GATE's own execution raises nothing (42_branch.md R254): `Config.gateTrap` is unset. -/
@[simp] theorem needGateway_unset (s : State) : needGateway s = .ok () := rfl

/-- GATE always completes: the level, the old level in `GR[r]`, the target. -/
theorem execGate_next (r : BitVec 4) (ofs : BitVec 22) (s : State) :
    execGate r ofs s = .next ((s.setX s.gateLevel).branchTo r (truthWord s.pswX) (s.psw1 + immTimes4 ofs)) := by
  unfold execGate
  rw [needGateway_unset]
  exact conclude_done _ _ _

end Sys2Proof.Machine
end

