-- ==== Sys2Proof/Laws/Fetch.lean ====
section
/-! SUPPORT. What the events before an instruction and its fetch can do (60_exceptions.md R453, 20_memory.md R96, R97, R123). -/

namespace Sys2Proof.Machine

/-- No setting of EXT_IRQ_MODEL: nothing holds a request back, taking it leaves it, and none is raised. -/
@[simp] theorem requestMasked_unset (s : State) : s.requestMasked = false := rfl
@[simp] theorem requestTaken_unset (s : State) : s.requestTaken = s := rfl
@[simp] theorem deliver_externalRaise (s : State) : s.deliver .externalRaise = s := rfl

/-- No HALT_CONDITION: the host ends no run. -/
@[simp] theorem hostHalts_unset (s : State) : s.hostHalts = false := rfl

/-- What an event changes: one pending field. -/
theorem deliver_frame (s : State) (e : Event) :
    ∃ c p x, s.deliver e = { s with machineCheck := c, powerFail := p, extPending := x } := by
  cases e <;> exact ⟨_, _, _, rfl⟩

theorem noMeaning_of_ready {s : State} (h : Ready s) : s.noMeaning = none := by
  simp [State.noMeaning, h.notNullified, h.noCounter, h.noSingleStep]

theorem sampleEvent_of_ready {s : State} (h : Ready s) : s.sampleEvent = none := by
  have h1 : (if s.pswM then none else s.machineCheck) = none := by rcases h.noMachineCheck with h | h <;> simp [h]
  have h2 : (s.pswE && s.extPending) = false := by rcases h.noInterrupt with h | h <;> simp [h]
  simp [State.sampleEvent, h1, h.noPowerFailure, h2]

/-- A ready machine fetches and executes. -/
theorem step_of_ready {s : State} (h : Ready s) : step s = runNext s := by
  simp [step, runStep, noMeaning_of_ready h, sampleEvent_of_ready h]

/-- The state a sampled event leaves: at most the event it consumed. -/
theorem sampleEvent_some {s u : State} {t : Trap} (h : s.sampleEvent = some (t, u)) :
    u = s ∨ u = { s with machineCheck := none } ∨ u = { s with powerFail := false } := by
  unfold State.sampleEvent at h
  split at h
  · cases h; exact .inr (.inl rfl)
  · split at h
    · cases h; exact .inr (.inr rfl)
    · split at h
      · cases h; exact .inl rfl
      · cases h

/-- The word that four written bytes make. -/
theorem word_of_holds {m : Memory} {a : Nat} {w : Word} (h : Holds m a .word w) : (oldWordAt m a).word = .ok w := by
  obtain ⟨h, _⟩ := h
  have h0 := h 0 (by decide)
  have h1 := h 1 (by decide)
  have h2 := h 2 (by decide)
  have h3 := h 3 (by decide)
  simp only [Size.bytes, Nat.reduceSub, Nat.reduceAdd, Nat.add_zero] at h0 h1 h2 h3
  simp only [oldWordAt, OldWord.word, h0, h1, h2, h3, ofBytes_byteOf]

/-- Everything the reading of an instruction word can answer: the current word or a stale one; only the count of free values moves. -/
theorem fetchWord_ok {s u : State} {pa : PAddr} {w : Word} (h : fetchWord s pa = .ok (w, u)) :
    region pa = .memory ∧ (∃ o ∈ oldWordAt s.mem pa.toNat :: s.staleAt pa, o.word = .ok w) ∧
    u = (if (s.staleAt pa).isEmpty then s else { s with freeCount := s.freeCount + 1 }) := by
  unfold fetchWord at h
  obtain ⟨_, hm, h⟩ := bind_eq_ok.1 h
  obtain ⟨w', hw, h⟩ := bind_eq_ok.1 h
  injection h with h
  injection h with h1 h2
  subst h1
  exact ⟨needMemory_ok hm, ⟨_, chooseAmong_mem _ _ _, hw⟩, h2.symm⟩

/-- A fetch that passes its checks reads at its physical address, in the state demotion leaves. -/
theorem fetch_of_fetches {s t : State} {pa : PAddr} (h : Fetches s pa t) : fetch s = fetchWord t pa := by
  cases hc : s.pswC with
  | false =>
    obtain ⟨rfl, rfl⟩ := h.plain hc
    simp [fetch, hc]
  | true =>
    obtain ⟨e, he, hty, hpid, hx, rfl, rfl⟩ := h.mapped hc
    unfold fetch
    rw [if_pos hc, he]
    have h1 : executable e.rights = true := by rcases hty with h | h <;> simp [executable, h]
    have h2 : levelLe s.pswX e.rights.pl1 = true := by
      cases hl : s.pswX with
      | false => rfl
      | true => simp [levelLe, hx hl]
    simp only [h1, h2, hpid, Bool.not_true, trapIf_false, ok_bind]
    congr 1
    unfold State.demote
    by_cases c : e.rights.type = .execute ∧ s.pswX = false ∧ e.rights.pl2 = true
    · rw [if_pos c, if_pos (by simp [c])]
    · rw [if_neg c, if_neg]
      intro hh
      apply c
      simpa [and_assoc] using hh

/-- Demotion changes the status word only. -/
theorem fetches_frame {s t : State} {pa : PAddr} (h : Fetches s pa t) : t = { s with psw0 := t.psw0 } := by
  cases hc : s.pswC with
  | false => obtain ⟨_, rfl⟩ := h.plain hc; rfl
  | true =>
    obtain ⟨e, _, _, _, _, _, rfl⟩ := h.mapped hc
    split <;> rfl

/-- What deliveries and steps keep holds of the final state of a run. -/
theorem runFrom_keeps {P : State → Prop} (hd : ∀ s e, P s → P (s.deliver e)) (hs : ∀ s t, P s → step s = .next t → P t)
    (events : List (List Event)) : ∀ s, P s → P (runFrom events s).2 := by
  have hall : ∀ (es : List Event) s, P s → P (es.foldl State.deliver s) := fun es => by
    induction es with
    | nil => exact fun _ h => h
    | cons e es ih => exact fun s h => ih _ (hd s e h)
  induction events with
  | nil => exact fun _ h => h
  | cons es later ih =>
    intro s h
    have ht := hall es s h
    unfold runFrom
    dsimp only
    rw [hostHalts_unset, if_neg (by decide)]
    split
    · next u hu =>
      split
      · exact ht
      · exact ih u (hs _ u ht hu)
    · exact ht
    · exact ht

end Sys2Proof.Machine
end

