-- ==== Sys2Proof/Laws/Frame.lean ====
section
/-! SUPPORT. What each named update leaves unchanged, part by part. -/

namespace Sys2Proof.Machine

theorem samePart_refl (s : State) (p : Part) : samePart s s p := by cases p <;> simp [samePart]

theorem samePart_trans {s t u : State} {p : Part} (h1 : samePart s t p) (h2 : samePart t u p) : samePart s u p := by
  cases p <;> simp only [samePart] at * <;> simp_all

theorem Keeps.refl (changed : Part → Prop) (s : State) : Keeps changed s s := fun p _ _ => samePart_refl s p

theorem Keeps.trans {changed : Part → Prop} {s t u : State} (h1 : Keeps changed s t) (h2 : Keeps changed t u) : Keeps changed s u :=
  fun p hc hp => samePart_trans (h1 p hc hp) (h2 p hc hp)

/-- A frame that allows more holds as well. -/
theorem Keeps.mono {c d : Part → Prop} {s t : State} (h : Keeps c s t) (hcd : ∀ p, c p → d p) : Keeps d s t :=
  fun p hd hp => h p (fun hc => hd (hcd p hc)) hp

theorem Ends.mono {c d : Part → Prop} {s t : State} (h : Ends c s t) (hcd : ∀ p, c p → d p) : Ends d s t := ⟨h.1.mono hcd, h.2⟩

theorem keeps_writeGr (s : State) (r : BitVec 4) (v : Word) : Keeps (isGr r) s (s.writeGr r v) := by
  intro p hc _
  cases p with
  | gr q =>
    have : q ≠ r := fun e => hc (by rw [isGr, e])
    simpa [samePart] using readGr_writeGr_other s v this
  | _ => simp [samePart]

theorem keeps_writeSr (s : State) (n : BitVec 3) (v : SegId) : Keeps (fun p => p = .sr n) s (s.writeSr n v) := by
  intro p hc _
  cases p with
  | sr m =>
    have : m ≠ n := fun e => hc (by rw [e])
    simp [samePart, readSr_writeSr, this]
  | _ => simp [samePart]

theorem keeps_writeCr (s : State) (n : BitVec 5) (v : Word) : Keeps (fun p => p = .cr n) s (s.writeCr n v) := by
  intro p hc _
  cases p with
  | cr m =>
    have : m ≠ n := fun e => hc (by rw [e])
    simp [samePart, readCr_writeCr, this]
  | _ => simp [samePart]

theorem keeps_setPc (s : State) (w : Word) : Keeps (fun _ => False) s (s.setPc w) := by
  intro p _ hp
  cases p <;> simp [samePart] at *

theorem keeps_advance (s : State) : Keeps (fun _ => False) s s.advance := keeps_setPc s _

/-- An update that only writes PSW-0, and there only the bits `c` names. -/
theorem keeps_psw0 {s t : State} {c : Fin 32 → Prop} (ht : t = { s with psw0 := t.psw0 })
    (hf : ∀ n : Fin 32, ¬ c n → flag t.psw0 n.val = flag s.psw0 n.val) : Keeps (fun p => ∃ n, c n ∧ p = .psw0 n) s t := by
  intro p hc _
  cases p with
  | psw0 n => exact hf n (fun h => hc ⟨n, h, rfl⟩)
  | _ => rw [ht]; simp [samePart, State.readGr, State.readSr, State.readCr]

theorem keeps_setX (s : State) (v : Bool) : Keeps (fun p => p = .psw0 1) s (s.setX v) :=
  (keeps_psw0 (c := fun n => n = 1) rfl (fun n hn => flag_setFlag_other _ _ (by omega) n.isLt
    (fun e => hn (Fin.ext e)))).mono (by rintro p ⟨n, rfl, rfl⟩; rfl)

theorem keeps_setCB (s : State) (v : Bool) : Keeps (fun p => p = .psw0 5) s (s.setCB v) :=
  (keeps_psw0 (c := fun n => n = 5) rfl (fun n hn => flag_setFlag_other _ _ (by omega) n.isLt
    (fun e => hn (Fin.ext e)))).mono (by rintro p ⟨n, rfl, rfl⟩; rfl)

/-- The status half of PSW-0 is unchanged by a new segment. -/
theorem flag_setSeg (s : State) (v : SegId) {i : Nat} (h : i < 16) : flag (s.setSeg v).psw0 i = flag s.psw0 i := by
  rw [State.setSeg_psw0, flag_eq, flag_eq, BitVec.getLsbD_append, if_neg (by omega), getLsbD_field,
    decide_eq_true (by omega), Bool.true_and]
  congr 1; omega

@[simp] theorem pswSeg_setSeg (s : State) (v : SegId) : (s.setSeg v).pswSeg = v := by
  unfold State.pswSeg
  apply BitVec.eq_of_getLsbD_eq
  intro j hj
  rw [State.setSeg_psw0, getLsbD_field, BitVec.getLsbD_append, if_pos (by omega), decide_eq_true hj, Bool.true_and]
  congr 1; omega

theorem keeps_setSeg (s : State) (v : SegId) : Keeps (isPsw0 16 31) s (s.setSeg v) :=
  (keeps_psw0 (c := fun n => 16 ≤ n.val) rfl (fun _ hn => flag_setSeg s v (by omega))).mono
    (by rintro p ⟨n, hn, rfl⟩; exact ⟨n, hn, by omega, rfl⟩)

theorem flag_setMask_other (s : State) (v : BitVec 4) {i : Nat} (hi : i < 32) (h : i < 12 ∨ 15 < i) :
    flag (s.setMask v).psw0 i = flag s.psw0 i := by
  rw [State.setMask_psw0, flag_eq, flag_eq, BitVec.getLsbD_append]
  by_cases h1 : 31 - i < 16
  · rw [if_pos h1, getLsbD_field, decide_eq_true h1, Bool.true_and]; congr 1; omega
  · rw [if_neg h1, BitVec.getLsbD_append, if_neg (by omega), getLsbD_field, decide_eq_true (by omega), Bool.true_and]
    congr 1; omega

@[simp] theorem mask_setMask (s : State) (v : BitVec 4) : field (s.setMask v).psw0 12 4 = v := by
  apply BitVec.eq_of_getLsbD_eq
  intro j hj
  rw [State.setMask_psw0, getLsbD_field, BitVec.getLsbD_append, if_neg (by omega), BitVec.getLsbD_append, if_pos (by omega),
    decide_eq_true hj, Bool.true_and]
  congr 1; omega

theorem keeps_setMask (s : State) (v : BitVec 4) : Keeps (isPsw0 12 15) s (s.setMask v) :=
  (keeps_psw0 (c := fun n => 12 ≤ n.val ∧ n.val ≤ 15) rfl (fun n hn => flag_setMask_other s v n.isLt (by omega))).mono
    (by rintro p ⟨n, hn, rfl⟩; exact ⟨n, hn.1, hn.2, rfl⟩)

theorem keeps_reserve (s : State) (pa : PAddr) : Keeps (fun p => p = .reservation) s (s.reserve pa) := by
  intro p hc _
  cases p <;> simp [samePart] at *

theorem keeps_dropReservation (s : State) : Keeps (fun p => p = .reservation) s s.dropReservation := by
  intro p hc _
  cases p <;> simp [samePart] at *

theorem keeps_store (s : State) (pa : PAddr) (n : Size) (v : Word) :
    Keeps (fun p => (∃ a, inStore pa.toNat n a ∧ p = .mem a) ∨ p = .instrCache ∨ p = .dataCache ∨ p = .reservation) s
      (s.store pa n v) := by
  intro p hc _
  cases p with
  | mem a => exact (store_stored s pa n v).others a (fun h => hc (.inl ⟨a, h, rfl⟩))
  | instrCache => exact absurd (.inr (.inl rfl)) hc
  | dataCache => exact absurd (.inr (.inr (.inl rfl))) hc
  | reservation => exact absurd (.inr (.inr (.inr rfl))) hc
  | _ => simp [samePart]

/-- PSW-0 as a whole, from its bits. -/
theorem psw0_of_keeps {changed : Part → Prop} {s t : State} (h : Keeps changed s t) (hc : ∀ n, ¬ changed (.psw0 n)) :
    t.psw0 = s.psw0 :=
  word_ext_flag (fun i hi => h (.psw0 ⟨i, hi⟩) (hc _) (by simp))

/-- An instruction that writes one general register and goes to the next instruction. -/
theorem ends_writeGr (s : State) (r : BitVec 4) (v : Word) : Ends (isGr r) s (s.writeGr r v).advance :=
  ⟨(keeps_writeGr s r v).trans ((keeps_advance _).mono (fun _ h => h.elim)), rfl⟩

/-- What the register it wrote reads after it. -/
theorem readGr_written (s : State) (r : BitVec 4) (v : Word) : (s.writeGr r v).readGr r = written r v := by
  rw [readGr_writeGr, if_pos rfl]; rfl

end Sys2Proof.Machine
end

