-- ==== Sys2Proof/Laws/Inversion.lean ====
section
/-! SUPPORT. What an instruction can do to the state, said once: a next state is trap entry from the state the instruction began in, or
has the form `Completed` gives for the instruction. The values written are left open; a statement about them unfolds the meaning. -/

namespace Sys2Proof.Machine

/-- The form of the state a completed instruction leaves. -/
def Completed (s t : State) : Instr → Prop
  | .brk _ _ => t = s.advance
  | .ldil r _ | .ldo r _ _ | .lsid r _ | .extr r _ _ _ _ _ | .dep r _ _ _ _ _ _ | .dsr r _ _ _ _ | .shla r _ _ _ _ _
  | .and r _ _ _ | .or r _ _ _ | .xor r _ _ | .cmp r _ _ | .cmpu r _ _ | .prb r _ _ _ _ _ =>
      ∃ v, t = (s.writeGr r v).advance
  | .ldpa r _ _ _ | .diag r _ _ _ => s.pswX = false ∧ ∃ v, t = (s.writeGr r v).advance
  | .addil _ _ => ∃ v, t = (s.writeGr 1 v).advance
  | .cmr r _ _ _ => t = s.advance ∨ ∃ v, t = (s.writeGr r v).advance
  | .mr r optD optM num =>
      if optD then (mrPrivileged optM num && s.pswX) = false ∧ t = (s.moveTo r optM num).advance
      else t = (s.moveFrom r optM num).advance
  | .mst r _ _ => s.pswX = false ∧ ∃ m, t = ((s.writeGr r (s.mask.setWidth 32)).setMask m).advance
  | .ds _ _ _ => False
  | .add r optL _ _ | .adc r optL _ _ => ∃ v c, t = (if optL then s.writeGr r v else (s.writeGr r v).setCB c).advance
  | .sub r _ _ _ | .sbc r _ _ _ => ∃ v c, t = ((s.writeGr r v).setCB c).advance
  | .b r _ | .br r _ | .bv r _ => ∃ link target, t = s.branchTo r link target
  | .gate r _ => ∃ link target, t = (s.setX s.gateLevel).branchTo r link target
  | .be r _ _ _ | .bve r _ _ => ∃ link seg target, t = s.branchExternal r link seg target
  | .cbr _ _ _ _ | .cbru _ _ _ _ => ∃ target, t = s.setPc target
  | .ld r optM _ _ disp b => ∃ v, t = s.finishLoad r optM disp b v
  | .lda r optM disp b => s.pswX = false ∧ ∃ v, t = s.finishLoad r optM disp b v
  | .st _ optM _ _ disp b => ∃ pa n v, t = s.finishStore (s.store pa n v) optM disp b
  | .sta _ optM disp b => s.pswX = false ∧ ∃ pa n v, t = s.finishStore (s.store pa n v) optM disp b
  | .ldr r _ _ _ => ∃ pa v, pa.toNat % 4 = 0 ∧ t = ((s.writeGr r v).reserve pa).advance
  | .stc r _ _ _ =>
      (∃ pa v, t = (((s.store pa .word v).writeGr r 0).dropReservation).advance) ∨ t = ((s.writeGr r 1).dropReservation).advance
  | .itlb _ optT _ _ => s.pswX = false ∧ ∃ e, e.valid = true ∧ e.breaksSegmentZero = false ∧ t = (s.insertTlb optT e).advance
  | .ptlb optT optM _ a b =>
      s.pswX = false ∧ ∃ seg page, t = ((s.purgeTlb optT seg page).updateBase s optM (.reg a) b).advance
  | .pca optT optM _ optF a b =>
      s.pswX = false ∧ ∃ pa, t = ((s.purgeCache optT optF pa).updateBase s optM (.reg a) b).advance
  | .rfi => s.pswX = false ∧ t = s.returnFromTrap

/-- The D and B traps are not set: a data address that passes its checks has no trap to follow it. -/
theorem dataAddress_after {s : State} {write : Bool} {seg : SegId} {ofs : Word} {n : Size} {instr : Word} {t : Translated}
    (h : dataAddress instr write seg ofs n s = .ok t) : t.after = none := (reaches_of_dataAddress h).2

/-- The instruction ended by `conclude` with a computation that has no trap after completion. -/
theorem completed_of {instr : Word} {s t : State} {r : Except Stop Done} {P : State → Prop} (h : conclude instr s r = .next t)
    (hd : ∀ d, r = .ok d → d.dataRef = none ∧ d.takenBranch = none ∧ P d.state) :
    (∃ tr, t = s.takeTrap tr) ∨ P t := by
  rcases conclude_next h (fun d hd' => ⟨(hd d hd').1, (hd d hd').2.1⟩) with ⟨d, hr, rfl⟩ | ⟨tr, _, rfl⟩
  · exact .inr (hd d hr).2.2
  · exact .inl ⟨tr, rfl⟩

/-- `done` answers its state, with no trap to follow. -/
theorem done_ok {u : State} {d : Done} {P : State → Prop} (h : done u = .ok d) (hu : P u) :
    d.dataRef = none ∧ d.takenBranch = none ∧ P d.state := by
  cases h; exact ⟨rfl, rfl, hu⟩

theorem plain_ok {u : State} {d : Done} {P : State → Prop} (h : (.ok ⟨u, none, none⟩ : Except Stop Done) = .ok d) (hu : P u) :
    d.dataRef = none ∧ d.takenBranch = none ∧ P d.state := by
  cases h; exact ⟨rfl, rfl, hu⟩

/-- Everything the addition of ADD and ADC can answer. -/
theorem addWith_ok {instr : Word} {r : BitVec 4} {optL optO cin : Bool} {op : Operand} {s : State} {d : Done}
    (h : addWith instr r optL optO op cin s = .ok d) :
    d.dataRef = none ∧ d.takenBranch = none ∧
      ∃ v c, d.state = (if optL then s.writeGr r v else (s.writeGr r v).setCB c).advance := by
  unfold addWith at h
  obtain ⟨o, ho, h⟩ := bind_eq_ok.1 h
  obtain ⟨u, _, h⟩ := bind_eq_ok.1 h
  cases h
  exact ⟨(operandsAre_of ho).2, rfl, _, _, rfl⟩

/-- Everything the subtraction of SUB and SBC can answer. -/
theorem subWith_ok {instr : Word} {r : BitVec 4} {optL optO bin : Bool} {op : Operand} {s : State} {d : Done}
    (h : subWith instr r optL optO op bin s = .ok d) :
    d.dataRef = none ∧ d.takenBranch = none ∧ ∃ v c, d.state = ((s.writeGr r v).setCB c).advance := by
  unfold subWith at h
  obtain ⟨o, ho, h⟩ := bind_eq_ok.1 h
  obtain ⟨u, _, h⟩ := bind_eq_ok.1 h
  cases h
  exact ⟨(operandsAre_of ho).2, rfl, _, _, rfl⟩

/-- Everything an operand-format instruction that writes no flag can answer. -/
theorem resultOf_ok {instr : Word} {r : BitVec 4} {op : Operand} {f : Word → Word → Word} {s : State} {d : Done}
    (h : resultOf instr r op f s = .ok d) :
    d.dataRef = none ∧ d.takenBranch = none ∧ ∃ v, d.state = (s.writeGr r v).advance := by
  unfold resultOf at h
  obtain ⟨o, ho, h⟩ := bind_eq_ok.1 h
  cases h
  exact ⟨(operandsAre_of ho).2, rfl, _, rfl⟩

/-- A word-aligned offset has a word-aligned physical address. -/
theorem physical_mod (e : TlbEntry) (ofs : Word) : (e.physical ofs).toNat % 4 = ofs.toNat % 4 := by
  unfold TlbEntry.physical field
  rw [BitVec.toNat_append, BitVec.extractLsb'_toNat, ← Nat.shiftLeft_add_eq_or_of_lt (Nat.mod_lt _ (by decide)), Nat.shiftLeft_eq]
  simp only [Nat.reduceSub, Nat.shiftRight_zero]
  omega

theorem reaches_word {s : State} {write : Bool} {seg : SegId} {ofs : Word} {pa : PAddr} (h : Reaches s write seg ofs .word pa) :
    pa.toNat % 4 = 0 := by
  have ha : ofs.toNat % 4 = 0 := h.aligned
  cases hd : s.pswD with
  | false =>
    rw [h.physical hd, BitVec.toNat_setWidth]
    have := ofs.isLt
    omega
  | true =>
    obtain ⟨e, _, _, rfl⟩ := h.mapped hd
    rw [physical_mod, ha]

/-- Everything an instruction can do: where it answers a next state, it took a trap or completed. -/
theorem exec_completed {i : Instr} {s t : State} (h : exec i s = .next t) : (∃ tr, t = s.takeTrap tr) ∨ Completed s t i := by
  cases i with
  | brk info1 info2 =>
    rw [exec_brk] at h; unfold execBrk at h
    refine completed_of (P := fun u => Completed s u (.brk info1 info2)) h (fun d hd => ?_)
    split at hd
    · exact done_ok (P := fun u => Completed s u (.brk info1 info2)) hd rfl
    · cases hd
  | ldil r val =>
    rw [exec_ldil] at h; unfold execLdil at h
    refine completed_of (P := fun u => Completed s u (.ldil r val)) h (fun d hd => ?_)
    exact done_ok (P := fun u => Completed s u (.ldil r val)) hd ⟨_, rfl⟩
  | addil r val =>
    rw [exec_addil] at h; unfold execAddil at h
    refine completed_of (P := fun u => Completed s u (.addil r val)) h (fun d hd => ?_)
    exact done_ok (P := fun u => Completed s u (.addil r val)) hd ⟨_, rfl⟩
  | ldo r ofs b =>
    rw [exec_ldo] at h; unfold execLdo at h
    refine completed_of (P := fun u => Completed s u (.ldo r ofs b)) h (fun d hd => ?_)
    exact done_ok (P := fun u => Completed s u (.ldo r ofs b)) hd ⟨_, rfl⟩
  | lsid r b =>
    rw [exec_lsid] at h; unfold execLsid at h
    refine completed_of (P := fun u => Completed s u (.lsid r b)) h (fun d hd => ?_)
    exact done_ok (P := fun u => Completed s u (.lsid r b)) hd ⟨_, rfl⟩
  | extr r optS optA len pos b =>
    rw [exec_extr] at h; unfold execExtr at h
    refine completed_of (P := fun u => Completed s u (.extr r optS optA len pos b)) h (fun d hd => ?_)
    obtain ⟨_, h1, hd⟩ := bind_eq_ok.1 hd
    exact done_ok (P := fun u => Completed s u (.extr r optS optA len pos b)) hd ⟨_, rfl⟩
  | dep r optZ optA optI len pos b =>
    rw [exec_dep] at h; unfold execDep at h
    refine completed_of (P := fun u => Completed s u (.dep r optZ optA optI len pos b)) h (fun d hd => ?_)
    obtain ⟨_, h1, hd⟩ := bind_eq_ok.1 hd
    exact done_ok (P := fun u => Completed s u (.dep r optZ optA optI len pos b)) hd ⟨_, rfl⟩
  | dsr r optA shamt a b =>
    rw [exec_dsr] at h; unfold execDsr at h
    refine completed_of (P := fun u => Completed s u (.dsr r optA shamt a b)) h (fun d hd => ?_)
    exact done_ok (P := fun u => Completed s u (.dsr r optA shamt a b)) hd ⟨_, rfl⟩
  | shla r optL optO sa a b =>
    rw [exec_shla] at h; unfold execShla at h
    refine completed_of (P := fun u => Completed s u (.shla r optL optO sa a b)) h (fun d hd => ?_)
    obtain ⟨_, h1, hd⟩ := bind_eq_ok.1 hd
    exact done_ok (P := fun u => Completed s u (.shla r optL optO sa a b)) hd ⟨_, rfl⟩
  | cmr r cond a b =>
    rw [exec_cmr] at h; unfold execCmr at h
    refine completed_of (P := fun u => Completed s u (.cmr r cond a b)) h (fun d hd => ?_)
    split at hd
    · cases hd
    · exact done_ok (P := fun u => Completed s u (.cmr r cond a b)) hd (.inr ⟨_, rfl⟩)
    · exact done_ok (P := fun u => Completed s u (.cmr r cond a b)) hd (.inl rfl)
  | mr r optD optM num =>
    rw [exec_mr] at h; unfold execMr at h
    refine completed_of (P := fun u => Completed s u (.mr r optD optM num)) h (fun d hd => ?_)
    obtain ⟨_, _, hd⟩ := bind_eq_ok.1 hd
    cases optD with
    | true =>
      obtain ⟨_, h1, hd⟩ := bind_eq_ok.1 hd
      exact done_ok (P := fun u => Completed s u (.mr r true optM num)) hd ⟨trapIf_ok h1, rfl⟩
    | false => exact done_ok (P := fun u => Completed s u (.mr r false optM num)) hd rfl
  | mst r mode b =>
    rw [exec_mst] at h; unfold execMst at h
    refine completed_of (P := fun u => Completed s u (.mst r mode b)) h (fun d hd => ?_)
    obtain ⟨_, h1, hd⟩ := bind_eq_ok.1 hd
    split at hd
    · cases hd
    · exact done_ok (P := fun u => Completed s u (.mst r mode b)) hd ⟨needPrivilege_ok h1, _, rfl⟩
  | ds r a b =>
    rw [exec_ds] at h; unfold execDs at h
    refine completed_of (P := fun u => Completed s u (.ds r a b)) h (fun d hd => ?_)
    cases hd
  | add r optL optO op =>
    rw [exec_add] at h; unfold execAdd at h
    refine completed_of (P := fun u => Completed s u (.add r optL optO op)) h (fun d hd => ?_)
    exact addWith_ok hd
  | adc r optL optO op =>
    rw [exec_adc] at h; unfold execAdc at h
    refine completed_of (P := fun u => Completed s u (.adc r optL optO op)) h (fun d hd => ?_)
    exact addWith_ok hd
  | sub r optL optO op =>
    rw [exec_sub] at h; unfold execSub at h
    refine completed_of (P := fun u => Completed s u (.sub r optL optO op)) h (fun d hd => ?_)
    exact subWith_ok hd
  | sbc r optL optO op =>
    rw [exec_sbc] at h; unfold execSbc at h
    refine completed_of (P := fun u => Completed s u (.sbc r optL optO op)) h (fun d hd => ?_)
    exact subWith_ok hd
  | and r optN optC op =>
    rw [exec_and] at h; unfold execAnd at h
    refine completed_of (P := fun u => Completed s u (.and r optN optC op)) h (fun d hd => ?_)
    obtain ⟨_, _, hd⟩ := bind_eq_ok.1 hd
    exact resultOf_ok hd
  | or r optN optC op =>
    rw [exec_or] at h; unfold execOr at h
    refine completed_of (P := fun u => Completed s u (.or r optN optC op)) h (fun d hd => ?_)
    obtain ⟨_, _, hd⟩ := bind_eq_ok.1 hd
    exact resultOf_ok hd
  | xor r optN op =>
    rw [exec_xor] at h; unfold execXor at h
    refine completed_of (P := fun u => Completed s u (.xor r optN op)) h (fun d hd => ?_)
    exact resultOf_ok hd
  | cmp r cond op =>
    rw [exec_cmp] at h; unfold execCmp at h
    refine completed_of (P := fun u => Completed s u (.cmp r cond op)) h (fun d hd => ?_)
    exact resultOf_ok hd
  | cmpu r cond op =>
    rw [exec_cmpu] at h; unfold execCmpu at h
    refine completed_of (P := fun u => Completed s u (.cmpu r cond op)) h (fun d hd => ?_)
    exact resultOf_ok hd
  | b r ofs =>
    rw [exec_b] at h; unfold execB at h
    refine completed_of (P := fun u => Completed s u (.b r ofs)) h (fun d hd => ?_)
    exact plain_ok (P := fun u => Completed s u (.b r ofs)) hd ⟨_, _, rfl⟩
  | gate r ofs =>
    rw [exec_gate, execGate_next] at h
    cases h
    exact .inr ⟨_, _, rfl⟩
  | br r b =>
    rw [exec_br] at h; unfold execBr at h
    refine completed_of (P := fun u => Completed s u (.br r b)) h (fun d hd => ?_)
    exact plain_ok (P := fun u => Completed s u (.br r b)) hd ⟨_, _, rfl⟩
  | bv r b =>
    rw [exec_bv] at h; unfold execBv at h
    refine completed_of (P := fun u => Completed s u (.bv r b)) h (fun d hd => ?_)
    exact plain_ok (P := fun u => Completed s u (.bv r b)) hd ⟨_, _, rfl⟩
  | be r ofs a b =>
    rw [exec_be] at h; unfold execBe at h
    refine completed_of (P := fun u => Completed s u (.be r ofs a b)) h (fun d hd => ?_)
    obtain ⟨_, _, hd⟩ := bind_eq_ok.1 hd
    exact plain_ok (P := fun u => Completed s u (.be r ofs a b)) hd ⟨_, _, _, rfl⟩
  | bve r a b =>
    rw [exec_bve] at h; unfold execBve at h
    refine completed_of (P := fun u => Completed s u (.bve r a b)) h (fun d hd => ?_)
    exact plain_ok (P := fun u => Completed s u (.bve r a b)) hd ⟨_, _, _, rfl⟩
  | cbr cond ofs a b =>
    rw [exec_cbr] at h; unfold execCbr at h
    refine completed_of (P := fun u => Completed s u (.cbr cond ofs a b)) h (fun d hd => ?_)
    exact done_ok (P := fun u => Completed s u (.cbr cond ofs a b)) hd ⟨_, rfl⟩
  | cbru cond ofs a b =>
    rw [exec_cbru] at h; unfold execCbru at h
    refine completed_of (P := fun u => Completed s u (.cbru cond ofs a b)) h (fun d hd => ?_)
    exact done_ok (P := fun u => Completed s u (.cbru cond ofs a b)) hd ⟨_, rfl⟩
  | ld r optM seg dw disp b =>
    rw [exec_ld] at h; unfold execLd at h
    refine completed_of (P := fun u => Completed s u (.ld r optM seg dw disp b)) h (fun d hd => ?_)
    obtain ⟨n, _, hd⟩ := bind_eq_ok.1 hd
    obtain ⟨l, hl, hd⟩ := bind_eq_ok.1 hd
    cases hd
    exact ⟨(reads_of_dataRead hl).2, rfl, _, rfl⟩
  | st r optM seg dw disp b =>
    rw [exec_st] at h; unfold execSt at h
    refine completed_of (P := fun u => Completed s u (.st r optM seg dw disp b)) h (fun d hd => ?_)
    obtain ⟨n, _, hd⟩ := bind_eq_ok.1 hd
    obtain ⟨u, hu, hd⟩ := bind_eq_ok.1 hd
    obtain ⟨pa, _, rfl⟩ := writes_of_dataWrite hu
    exact done_ok (P := fun u => Completed s u (.st r optM seg dw disp b)) hd ⟨_, _, _, rfl⟩
  | lda r optM disp b =>
    rw [exec_lda] at h; unfold execLda at h
    refine completed_of (P := fun u => Completed s u (.lda r optM disp b)) h (fun d hd => ?_)
    obtain ⟨_, hp, hd⟩ := bind_eq_ok.1 hd
    obtain ⟨pa, _, hd⟩ := bind_eq_ok.1 hd
    obtain ⟨v, _, hd⟩ := bind_eq_ok.1 hd
    exact done_ok (P := fun u => Completed s u (.lda r optM disp b)) hd ⟨needPrivilege_ok hp, _, rfl⟩
  | sta r optM disp b =>
    rw [exec_sta] at h; unfold execSta at h
    refine completed_of (P := fun u => Completed s u (.sta r optM disp b)) h (fun d hd => ?_)
    obtain ⟨_, hp, hd⟩ := bind_eq_ok.1 hd
    obtain ⟨pa, _, hd⟩ := bind_eq_ok.1 hd
    obtain ⟨u, hu, hd⟩ := bind_eq_ok.1 hd
    obtain ⟨_, rfl⟩ := physWrite_ok hu
    exact done_ok (P := fun u => Completed s u (.sta r optM disp b)) hd ⟨needPrivilege_ok hp, _, _, _, rfl⟩
  | ldr r seg ofs b =>
    rw [exec_ldr] at h; unfold execLdr at h
    refine completed_of (P := fun u => Completed s u (.ldr r seg ofs b)) h (fun d hd => ?_)
    obtain ⟨l, hl, hd⟩ := bind_eq_ok.1 hd
    cases hd
    obtain ⟨hr, ha⟩ := reads_of_dataRead hl
    exact ⟨ha, rfl, _, _, reaches_word hr.reaches, rfl⟩
  | stc r seg ofs b =>
    rw [exec_stc] at h; unfold execStc at h
    refine completed_of (P := fun u => Completed s u (.stc r seg ofs b)) h (fun d hd => ?_)
    split at hd
    · obtain ⟨p, _, hd⟩ := bind_eq_ok.1 hd
      split at hd
      · obtain ⟨u, hu, hd⟩ := bind_eq_ok.1 hd
        obtain ⟨_, rfl⟩ := physWrite_ok hu
        exact done_ok (P := fun u => Completed s u (.stc r seg ofs b)) hd (.inl ⟨_, _, rfl⟩)
      · exact done_ok (P := fun u => Completed s u (.stc r seg ofs b)) hd (.inr rfl)
    · exact done_ok (P := fun u => Completed s u (.stc r seg ofs b)) hd (.inr rfl)
  | ldpa r seg a b =>
    rw [exec_ldpa] at h; unfold execLdpa at h
    refine completed_of (P := fun u => Completed s u (.ldpa r seg a b)) h (fun d hd => ?_)
    obtain ⟨_, hp, hd⟩ := bind_eq_ok.1 hd
    dsimp only at hd
    split at hd
    · obtain ⟨_, _, hd⟩ := bind_eq_ok.1 hd
      exact done_ok (P := fun u => Completed s u (.ldpa r seg a b)) hd ⟨needPrivilege_ok hp, _, rfl⟩
    · exact done_ok (P := fun u => Completed s u (.ldpa r seg a b)) hd ⟨needPrivilege_ok hp, _, rfl⟩
  | prb r optW optI seg a b =>
    rw [exec_prb] at h; unfold execPrb at h
    refine completed_of (P := fun u => Completed s u (.prb r optW optI seg a b)) h (fun d hd => ?_)
    obtain ⟨_, _, hd⟩ := bind_eq_ok.1 hd
    exact done_ok (P := fun u => Completed s u (.prb r optW optI seg a b)) hd ⟨_, rfl⟩
  | itlb r optT a b =>
    rw [exec_itlb] at h; unfold execItlb at h
    refine completed_of (P := fun u => Completed s u (.itlb r optT a b)) h (fun d hd => ?_)
    obtain ⟨_, hp, hd⟩ := bind_eq_ok.1 hd
    obtain ⟨_, _, hd⟩ := bind_eq_ok.1 hd
    obtain ⟨_, hz, hd⟩ := bind_eq_ok.1 hd
    exact done_ok (P := fun u => Completed s u (.itlb r optT a b)) hd ⟨needPrivilege_ok hp, _, rfl, by simpa using needOrRefuse_ok hz, rfl⟩
  | ptlb optT optM seg a b =>
    rw [exec_ptlb] at h; unfold execPtlb at h
    refine completed_of (P := fun u => Completed s u (.ptlb optT optM seg a b)) h (fun d hd => ?_)
    obtain ⟨_, hp, hd⟩ := bind_eq_ok.1 hd
    exact done_ok (P := fun u => Completed s u (.ptlb optT optM seg a b)) hd ⟨needPrivilege_ok hp, _, _, rfl⟩
  | pca optT optM seg optF a b =>
    rw [exec_pca] at h; unfold execPca at h
    refine completed_of (P := fun u => Completed s u (.pca optT optM seg optF a b)) h (fun d hd => ?_)
    obtain ⟨_, hp, hd⟩ := bind_eq_ok.1 hd
    obtain ⟨pa, _, hd⟩ := bind_eq_ok.1 hd
    exact done_ok (P := fun u => Completed s u (.pca optT optM seg optF a b)) hd ⟨needPrivilege_ok hp, _, rfl⟩
  | diag r info a b =>
    rw [exec_diag] at h; unfold execDiag at h
    refine completed_of (P := fun u => Completed s u (.diag r info a b)) h (fun d hd => ?_)
    obtain ⟨_, hp, hd⟩ := bind_eq_ok.1 hd
    exact done_ok (P := fun u => Completed s u (.diag r info a b)) hd ⟨needPrivilege_ok hp, _, rfl⟩
  | rfi =>
    rw [exec_rfi] at h; unfold execRfi at h
    refine completed_of (P := fun u => Completed s u (.rfi)) h (fun d hd => ?_)
    obtain ⟨_, hp, hd⟩ := bind_eq_ok.1 hd
    exact done_ok (P := fun u => Completed s u (.rfi)) hd ⟨needPrivilege_ok hp, rfl⟩

end Sys2Proof.Machine
end

