-- ==== Sys2Proof/Laws/PerInstr.lean ====
section
/-! SUPPORT. Statements made per instruction, one lemma for each constructor of Instr. -/

namespace Sys2Proof.Laws.EncodeOpcode

/-- The opcode of each instruction, as the opcode table gives it (30_encoding.md R160). -/
def opcodeOf : Instr → BitVec 6
  | .brk .. => 0x00#6
  | .ldil .. => 0x01#6
  | .addil .. => 0x02#6
  | .ldo .. => 0x03#6
  | .lsid .. => 0x04#6
  | .extr .. => 0x05#6
  | .dep .. => 0x06#6
  | .dsr .. => 0x07#6
  | .shla .. => 0x08#6
  | .cmr .. => 0x09#6
  | .mr .. => 0x0A#6
  | .mst .. => 0x0B#6
  | .ds .. => 0x0C#6
  | .add .. => 0x10#6
  | .adc .. => 0x11#6
  | .sub .. => 0x12#6
  | .sbc .. => 0x13#6
  | .and .. => 0x14#6
  | .or .. => 0x15#6
  | .xor .. => 0x16#6
  | .cmp .. => 0x17#6
  | .cmpu .. => 0x18#6
  | .b .. => 0x20#6
  | .gate .. => 0x21#6
  | .br .. => 0x22#6
  | .bv .. => 0x23#6
  | .be .. => 0x24#6
  | .bve .. => 0x25#6
  | .cbr .. => 0x26#6
  | .cbru .. => 0x27#6
  | .ld .. => 0x30#6
  | .st .. => 0x31#6
  | .lda .. => 0x32#6
  | .sta .. => 0x33#6
  | .ldr .. => 0x34#6
  | .stc .. => 0x35#6
  | .ldpa .. => 0x39#6
  | .prb .. => 0x3A#6
  | .itlb .. => 0x3B#6
  | .ptlb .. => 0x3C#6
  | .pca .. => 0x3D#6
  | .diag .. => 0x3E#6
  | .rfi => 0x3F#6

/-- Bits 0 to 5 of the instruction's word are its opcode, whatever its fields are (30_encoding.md R142, R160). -/
def Statement (i : Instr) : Prop := field (encode i) 0 6 = opcodeOf i

theorem brk (info1 : BitVec 4) (info2 : BitVec 16) : Statement (.brk info1 info2) := by
  simp (disch := decide) only [Statement, opcodeOf, encode, field, BitVec.extractLsb'_append_eq_of_le, Nat.reduceSub,
    BitVec.extractLsb'_eq_self]

theorem ldil (r : BitVec 4) (val : BitVec 22) : Statement (.ldil r val) := by
  simp (disch := decide) only [Statement, opcodeOf, encode, field, BitVec.extractLsb'_append_eq_of_le, Nat.reduceSub,
    BitVec.extractLsb'_eq_self]

theorem addil (r : BitVec 4) (val : BitVec 22) : Statement (.addil r val) := by
  simp (disch := decide) only [Statement, opcodeOf, encode, field, BitVec.extractLsb'_append_eq_of_le, Nat.reduceSub,
    BitVec.extractLsb'_eq_self]

theorem ldo (r : BitVec 4) (ofs : BitVec 18) (b : BitVec 4) : Statement (.ldo r ofs b) := by
  simp (disch := decide) only [Statement, opcodeOf, encode, field, BitVec.extractLsb'_append_eq_of_le, Nat.reduceSub,
    BitVec.extractLsb'_eq_self]

theorem lsid (r b : BitVec 4) : Statement (.lsid r b) := by
  simp (disch := decide) only [Statement, opcodeOf, encode, field, BitVec.extractLsb'_append_eq_of_le, Nat.reduceSub,
    BitVec.extractLsb'_eq_self]

theorem extr (r : BitVec 4) (optS optA : Bool) (len pos : BitVec 5) (b : BitVec 4) : Statement (.extr r optS optA len pos b) := by
  simp (disch := decide) only [Statement, opcodeOf, encode, field, BitVec.extractLsb'_append_eq_of_le, Nat.reduceSub,
    BitVec.extractLsb'_eq_self]

theorem dep (r : BitVec 4) (optZ optA optI : Bool) (len pos : BitVec 5) (b : BitVec 4) : Statement (.dep r optZ optA optI len pos b) := by
  simp (disch := decide) only [Statement, opcodeOf, encode, field, BitVec.extractLsb'_append_eq_of_le, Nat.reduceSub,
    BitVec.extractLsb'_eq_self]

theorem dsr (r : BitVec 4) (optA : Bool) (shamt : BitVec 5) (a b : BitVec 4) : Statement (.dsr r optA shamt a b) := by
  simp (disch := decide) only [Statement, opcodeOf, encode, field, BitVec.extractLsb'_append_eq_of_le, Nat.reduceSub,
    BitVec.extractLsb'_eq_self]

theorem shla (r : BitVec 4) (optL optO : Bool) (sa : BitVec 2) (a b : BitVec 4) : Statement (.shla r optL optO sa a b) := by
  simp (disch := decide) only [Statement, opcodeOf, encode, field, BitVec.extractLsb'_append_eq_of_le, Nat.reduceSub,
    BitVec.extractLsb'_eq_self]

theorem cmr (r : BitVec 4) (cond : MoveCond) (a b : BitVec 4) : Statement (.cmr r cond a b) := by
  simp (disch := decide) only [Statement, opcodeOf, encode, field, BitVec.extractLsb'_append_eq_of_le, Nat.reduceSub,
    BitVec.extractLsb'_eq_self]

theorem mr (r : BitVec 4) (optD optM : Bool) (num : BitVec 6) : Statement (.mr r optD optM num) := by
  simp (disch := decide) only [Statement, opcodeOf, encode, field, BitVec.extractLsb'_append_eq_of_le, Nat.reduceSub,
    BitVec.extractLsb'_eq_self]

theorem mst (r : BitVec 4) (mode : MstMode) (b : BitVec 4) : Statement (.mst r mode b) := by
  simp (disch := decide) only [Statement, opcodeOf, encode, field, BitVec.extractLsb'_append_eq_of_le, Nat.reduceSub,
    BitVec.extractLsb'_eq_self]

theorem ds (r a b : BitVec 4) : Statement (.ds r a b) := by
  simp (disch := decide) only [Statement, opcodeOf, encode, field, BitVec.extractLsb'_append_eq_of_le, Nat.reduceSub,
    BitVec.extractLsb'_eq_self]

theorem add (r : BitVec 4) (optL optO : Bool) (op : Operand) : Statement (.add r optL optO op) := (encodeOpr_fields _ _ _ _).1

theorem adc (r : BitVec 4) (optL optO : Bool) (op : Operand) : Statement (.adc r optL optO op) := (encodeOpr_fields _ _ _ _).1

theorem sub (r : BitVec 4) (optL optO : Bool) (op : Operand) : Statement (.sub r optL optO op) := (encodeOpr_fields _ _ _ _).1

theorem sbc (r : BitVec 4) (optL optO : Bool) (op : Operand) : Statement (.sbc r optL optO op) := (encodeOpr_fields _ _ _ _).1

theorem and (r : BitVec 4) (optN optC : Bool) (op : Operand) : Statement (.and r optN optC op) := (encodeOpr_fields _ _ _ _).1

theorem or (r : BitVec 4) (optN optC : Bool) (op : Operand) : Statement (.or r optN optC op) := (encodeOpr_fields _ _ _ _).1

theorem xor (r : BitVec 4) (optN : Bool) (op : Operand) : Statement (.xor r optN op) := (encodeOpr_fields _ _ _ _).1

theorem cmp (r : BitVec 4) (cond : Cond) (op : Operand) : Statement (.cmp r cond op) := (encodeOpr_fields _ _ _ _).1

theorem cmpu (r : BitVec 4) (cond : Cond) (op : Operand) : Statement (.cmpu r cond op) := (encodeOpr_fields _ _ _ _).1

theorem b (r : BitVec 4) (ofs : BitVec 22) : Statement (.b r ofs) := by
  simp (disch := decide) only [Statement, opcodeOf, encode, field, BitVec.extractLsb'_append_eq_of_le, Nat.reduceSub,
    BitVec.extractLsb'_eq_self]

theorem gate (r : BitVec 4) (ofs : BitVec 22) : Statement (.gate r ofs) := by
  simp (disch := decide) only [Statement, opcodeOf, encode, field, BitVec.extractLsb'_append_eq_of_le, Nat.reduceSub,
    BitVec.extractLsb'_eq_self]

theorem br (r b : BitVec 4) : Statement (.br r b) := by
  simp (disch := decide) only [Statement, opcodeOf, encode, field, BitVec.extractLsb'_append_eq_of_le, Nat.reduceSub,
    BitVec.extractLsb'_eq_self]

theorem bv (r b : BitVec 4) : Statement (.bv r b) := by
  simp (disch := decide) only [Statement, opcodeOf, encode, field, BitVec.extractLsb'_append_eq_of_le, Nat.reduceSub,
    BitVec.extractLsb'_eq_self]

theorem be (r : BitVec 4) (ofs : BitVec 14) (a b : BitVec 4) : Statement (.be r ofs a b) := by
  simp (disch := decide) only [Statement, opcodeOf, encode, field, BitVec.extractLsb'_append_eq_of_le, Nat.reduceSub,
    BitVec.extractLsb'_eq_self]

theorem bve (r a b : BitVec 4) : Statement (.bve r a b) := by
  simp (disch := decide) only [Statement, opcodeOf, encode, field, BitVec.extractLsb'_append_eq_of_le, Nat.reduceSub,
    BitVec.extractLsb'_eq_self]

theorem cbr (cond : Cond) (ofs : BitVec 16) (a b : BitVec 4) : Statement (.cbr cond ofs a b) := by
  simp (disch := decide) only [Statement, opcodeOf, encode, field, BitVec.extractLsb'_append_eq_of_le, Nat.reduceSub,
    BitVec.extractLsb'_eq_self]

theorem cbru (cond : Cond) (ofs : BitVec 16) (a b : BitVec 4) : Statement (.cbru cond ofs a b) := by
  simp (disch := decide) only [Statement, opcodeOf, encode, field, BitVec.extractLsb'_append_eq_of_le, Nat.reduceSub,
    BitVec.extractLsb'_eq_self]

theorem ld (r : BitVec 4) (optM : Bool) (seg : BitVec 2) (dw : Width) (disp : Disp) (b : BitVec 4) : Statement (.ld r optM seg dw disp b) := (encodeMem_fields _ _ _ _ _ _ _).1

theorem st (r : BitVec 4) (optM : Bool) (seg : BitVec 2) (dw : Width) (disp : Disp) (b : BitVec 4) : Statement (.st r optM seg dw disp b) := (encodeMem_fields _ _ _ _ _ _ _).1

theorem lda (r : BitVec 4) (optM : Bool) (disp : Disp) (b : BitVec 4) : Statement (.lda r optM disp b) := (encodeMem_fields _ _ _ _ _ _ _).1

theorem sta (r : BitVec 4) (optM : Bool) (disp : Disp) (b : BitVec 4) : Statement (.sta r optM disp b) := (encodeMem_fields _ _ _ _ _ _ _).1

theorem ldr (r : BitVec 4) (seg : BitVec 2) (ofs : BitVec 12) (b : BitVec 4) : Statement (.ldr r seg ofs b) := by
  simp (disch := decide) only [Statement, opcodeOf, encode, field, BitVec.extractLsb'_append_eq_of_le, Nat.reduceSub,
    BitVec.extractLsb'_eq_self]

theorem stc (r : BitVec 4) (seg : BitVec 2) (ofs : BitVec 12) (b : BitVec 4) : Statement (.stc r seg ofs b) := by
  simp (disch := decide) only [Statement, opcodeOf, encode, field, BitVec.extractLsb'_append_eq_of_le, Nat.reduceSub,
    BitVec.extractLsb'_eq_self]

theorem ldpa (r : BitVec 4) (seg : BitVec 2) (a b : BitVec 4) : Statement (.ldpa r seg a b) := by
  simp (disch := decide) only [Statement, opcodeOf, encode, field, BitVec.extractLsb'_append_eq_of_le, Nat.reduceSub,
    BitVec.extractLsb'_eq_self]

theorem prb (r : BitVec 4) (optW optI : Bool) (seg : BitVec 2) (a b : BitVec 4) : Statement (.prb r optW optI seg a b) := by
  simp (disch := decide) only [Statement, opcodeOf, encode, field, BitVec.extractLsb'_append_eq_of_le, Nat.reduceSub,
    BitVec.extractLsb'_eq_self]

theorem itlb (r : BitVec 4) (optT : Bool) (a b : BitVec 4) : Statement (.itlb r optT a b) := by
  simp (disch := decide) only [Statement, opcodeOf, encode, field, BitVec.extractLsb'_append_eq_of_le, Nat.reduceSub,
    BitVec.extractLsb'_eq_self]

theorem ptlb (optT optM : Bool) (seg : BitVec 2) (a b : BitVec 4) : Statement (.ptlb optT optM seg a b) := by
  simp (disch := decide) only [Statement, opcodeOf, encode, field, BitVec.extractLsb'_append_eq_of_le, Nat.reduceSub,
    BitVec.extractLsb'_eq_self]

theorem pca (optT optM : Bool) (seg : BitVec 2) (optF : Bool) (a b : BitVec 4) : Statement (.pca optT optM seg optF a b) := by
  simp (disch := decide) only [Statement, opcodeOf, encode, field, BitVec.extractLsb'_append_eq_of_le, Nat.reduceSub,
    BitVec.extractLsb'_eq_self]

theorem diag (r info a b : BitVec 4) : Statement (.diag r info a b) := by
  simp (disch := decide) only [Statement, opcodeOf, encode, field, BitVec.extractLsb'_append_eq_of_le, Nat.reduceSub,
    BitVec.extractLsb'_eq_self]

theorem rfi : Statement .rfi := by
  simp (disch := decide) only [Statement, opcodeOf, encode, field, BitVec.extractLsb'_append_eq_of_le, Nat.reduceSub,
    BitVec.extractLsb'_eq_self]

end Sys2Proof.Laws.EncodeOpcode
end

