-- ==== Sys2Proof/Tests/Slice0.lean ====
section
/-! SUPPORT. Tests: the well-formedness check, the words of the spec (95_test_vectors.md), one step of each instruction with the result
that the spec's vectors give, and for each statement with hypotheses a state and operands that meet them. -/

namespace Sys2Proof.Tests

open Sys2Proof.Machine

/-! ### Well-formedness -/

theorem test_wf_control_register : Instr.wellFormed (.mr 1 false true 31) = true := by decide
theorem test_wf_segment_register : Instr.wellFormed (.mr 1 false false 7) = true := by decide
theorem test_ill_formed_control_register : Instr.wellFormed (.mr 1 false true 32) = false := by decide
theorem test_ill_formed_segment_register : Instr.wellFormed (.mr 1 false false 8) = false := by decide

/-! ### Decoding: words printed by the spec -/

theorem test_decode_ldil : decode 0x06848D15 = .ok (.ldil 10 0x48D15) := by decide
theorem test_decode_addil : decode 0x0AC48D15 = .ok (.addil 11 0x48D15) := by decide
theorem test_decode_ldo : decode 0x0CBFF390 = .ok (.ldo 2 0x3FF39 0) := by decide
theorem test_decode_lsid : decode 0x10400002 = .ok (.lsid 1 2) := by decide
theorem test_decode_extr : decode 0x156041F5 = .ok (.extr 5 true false 16 31 5) := by decide
theorem test_decode_dep : decode 0x18602172 = .ok (.dep 1 true false false 8 23 2) := by decide
theorem test_decode_dep_immediate : decode 0x184811FA = .ok (.dep 1 false false true 4 31 0xA) := by decide
theorem test_decode_dsr : decode 0x1C402032 = .ok (.dsr 1 false 8 3 2) := by decide
theorem test_decode_dsr_register : decode 0x1C600032 = .ok (.dsr 1 true 0 3 2) := by decide
theorem test_decode_shla : decode 0x20400823 = .ok (.shla 1 false false 2 2 3) := by decide
theorem test_decode_cmr : decode 0x24500041 = .ok (.cmr 1 .ne 4 1) := by decide
theorem test_decode_mr : decode 0x28500011 = .ok (.mr 1 false true 17) := by decide
theorem test_decode_mr_to_segment : decode 0x28E00005 = .ok (.mr 3 true false 5) := by decide
theorem test_decode_mst : decode 0x2C500004 = .ok (.mst 1 .set 4) := by decide
theorem test_decode_ds : decode 0x30400023 = .ok (.ds 1 2 3) := by decide
theorem test_decode_add : decode 0x40C40045 = .ok (.add 3 false false (.reg 4 5)) := by decide
theorem test_decode_add_immediate : decode 0x40C3FFFE = .ok (.add 3 false false (.imm 0x3FFFE)) := by decide
theorem test_decode_add_indexed : decode 0x40CA0045 = .ok (.add 3 false false (.indexed .word 4 5)) := by decide
theorem test_decode_add_displaced : decode 0x40CD0045 = .ok (.add 3 false false (.disp .half 4 5)) := by decide
theorem test_decode_adc : decode 0x44440012 = .ok (.adc 1 false false (.reg 1 2)) := by decide
theorem test_decode_sub : decode 0x48540023 = .ok (.sub 1 false true (.reg 2 3)) := by decide
theorem test_decode_sbc : decode 0x4C440012 = .ok (.sbc 1 false false (.reg 1 2)) := by decide
theorem test_decode_and : decode 0x50540023 = .ok (.and 1 false true (.reg 2 3)) := by decide
theorem test_decode_or : decode 0x54640023 = .ok (.or 1 true false (.reg 2 3)) := by decide
theorem test_decode_xor : decode 0x58640023 = .ok (.xor 1 true (.reg 2 3)) := by decide
theorem test_decode_cmp : decode 0x5C540026 = .ok (.cmp 1 .lt (.reg 2 6)) := by decide
theorem test_decode_cmpu : decode 0x60740023 = .ok (.cmpu 1 .le (.reg 2 3)) := by decide
theorem test_decode_b : decode 0x83800004 = .ok (.b 14 4) := by decide
theorem test_decode_gate : decode 0x84800010 = .ok (.gate 2 0x10) := by decide
theorem test_decode_br : decode 0x8B800002 = .ok (.br 14 2) := by decide
theorem test_decode_bv : decode 0x8CC00002 = .ok (.bv 3 2) := by decide
theorem test_decode_be : decode 0x93800851 = .ok (.be 14 8 5 1) := by decide
theorem test_decode_bve : decode 0x97800045 = .ok (.bve 14 4 5) := by decide
theorem test_decode_cbr : decode 0x99FFFD12 = .ok (.cbr .lt 0xFFFD 1 2) := by decide
theorem test_decode_cbru : decode 0x9DFFFD12 = .ok (.cbru .lt 0xFFFD 1 2) := by decide
theorem test_decode_ld : decode 0xC052FF92 = .ok (.ld 1 true 0 .word (.imm 0xFF9) 2) := by decide
theorem test_decode_ld_indexed : decode 0xC0620032 = .ok (.ld 1 false 0 .word (.reg 3) 2) := by decide
theorem test_decode_ld_segment : decode 0xC0460002 = .ok (.ld 1 false 1 .word (.imm 0) 2) := by decide
theorem test_decode_st : decode 0xC4410042 = .ok (.st 1 false 0 .half (.imm 4) 2) := by decide
theorem test_decode_lda : decode 0xC8420082 = .ok (.lda 1 false (.imm 8) 2) := by decide
theorem test_decode_sta : decode 0xCC420082 = .ok (.sta 1 false (.imm 8) 2) := by decide
theorem test_decode_ldr : decode 0xD0420082 = .ok (.ldr 1 0 8 2) := by decide
theorem test_decode_stc : decode 0xD4420082 = .ok (.stc 1 0 8 2) := by decide
theorem test_decode_ldpa : decode 0xE4400032 = .ok (.ldpa 1 0 3 2) := by decide
theorem test_decode_prb : decode 0xE8700012 = .ok (.prb 1 true true 0 1 2) := by decide
theorem test_decode_itlb : decode 0xECE00012 = .ok (.itlb 3 true 1 2) := by decide
theorem test_decode_ptlb : decode 0xF0300032 = .ok (.ptlb true true 0 3 2) := by decide
theorem test_decode_pca : decode 0xF4220002 = .ok (.pca true false 0 true 0 2) := by decide
theorem test_decode_diag : decode 0xF8540023 = .ok (.diag 1 5 2 3) := by decide
theorem test_decode_rfi : decode 0xFC000000 = .ok (.rfi) := by decide
theorem test_decode_brk : decode 0x00400002 = .ok (.brk 1 2) := by decide
theorem test_decode_unassigned : decode 0x34000000 = .error .unassignedOpcode := by decide
theorem test_decode_reserved : decode 0xFC000001 = .error .reservedField := by decide
theorem test_decode_reserved_xor : decode 0x58540023 = .error .reservedField := by decide
theorem test_table_word : decodeTableWord 32 0xFC000000 = some .rfi := by decide

/-! ### One step of each instruction, as the first after reset -/

/-- The start state of the spec's vectors: reset, the instruction at 0x1000, traps to 0x8000, two words of memory. -/
def base : State :=
  { (State.reset.setPc 0x1000).writeCr 16 0x8000 with
    mem := [(0x2000, 0x11), (0x2001, 0x22), (0x2002, 0x33), (0x2003, 0x44), (0x2004, 0x55), (0x2005, 0x66), (0x2006, 0x77), (0x2007, 0x88)] }

/-- The state with PSW-0 as given. -/
def withStatus (w : Word) (s : State) : State := { s with psw0 := w }

/-- The state with a reservation on a word. -/
def reserved (pa : PAddr) (s : State) : State := { s with lrValid := true, lrAddr := pa }

/-- `f` of the state one step after the instruction `w` is placed where the next fetch reads. -/
def after {α : Type} (f : State → α) (w : Nat) (s : State) : Option α :=
  match step (s.withFetchWord 32 w) with
  | .next t => some (f t)
  | .fault _ => none
  | .refused _ => none

/-- Why the instruction `w` is refused. -/
def refusal (w : Nat) (s : State) : Option Refusal :=
  match step (s.withFetchWord 32 w) with
  | .next _ => none
  | .fault _ => none
  | .refused r => some r

/-- A data TLB entry of segment 7. -/
def dataEntry (type : PageType) (pl1 pl2 : Bool) (page : Page) (ppn : BitVec 20) : TlbEntry :=
  ⟨true, false, false, false, false, ⟨type, pl1, pl2⟩, 7, page, ppn⟩

/-- Data translation on: SR5 is segment 7, whose pages 0x10000 and 0x10001 are mapped. -/
def mapped : State :=
  { withStatus 0x40000 (base.writeSr 5 7) with
    dtlb := [dataEntry .readWrite true true 0x10000 0, dataEntry .readOnly true false 0x10001 0x123] }

/-- Code translation on at level 1: segment 0x10 has page 0 (execute) and page 1 (gateway). -/
def coded : State :=
  { withStatus 0x60000010 base with
    itlb := [⟨true, false, false, false, false, ⟨.execute, true, true⟩, 0x10, 0, 0x20⟩,
             ⟨true, false, false, false, false, ⟨.gateway, true, false⟩, 0x10, 1, 0x21⟩] }

theorem test_ldil : after (·.readGr 1) 0x047FFFFF (base) = some (0xFFFFFC00) := by decide
theorem test_addil : after (·.readGr 1) 0x09000001 (base.writeGr 4 0x1234) = some (0x1634) := by decide
theorem test_ldo : after (·.readGr 2) 0x0CBFF390 (base) = some (0xFFFFFF9C) := by decide
theorem test_lsid : after (·.readGr 1) 0x10400002 ((base.writeSr 5 0x55).writeGr 2 0x40000000) = some (0x55) := by decide
theorem test_extr : after (·.readGr 1) 0x14602172 (base.writeGr 2 0x1234F678) = some (0xFFFFFFF6) := by decide
theorem test_extr_register : after (·.readGr 1) 0x14502002 ((base.writeCr 2 0xFFFFFFEF).writeGr 2 0x12345678) = some (0x34) := by decide
theorem test_dep : after (·.readGr 1) 0x18402172 ((base.writeGr 1 0xFFFFFFFF).writeGr 2 0x123456AB) = some (0xFFFFABFF) := by decide
theorem test_dep_immediate : after (·.readGr 1) 0x184821F1 (base) = some (0xF8) := by decide
theorem test_dsr : after (·.readGr 1) 0x1C402032 ((base.writeGr 2 0x12345678).writeGr 3 0x9ABCDEF0) = some (0x789ABCDE) := by decide
theorem test_shla : after (·.readGr 1) 0x20400823 ((base.writeGr 2 5).writeGr 3 7) = some (0x1B) := by decide
theorem test_shla_overflow : after (·.readCr 19) 0x20500423 ((base.writeGr 2 0x3FFFFFFF).writeGr 3 2) = some (0x20500423) := by decide
theorem test_cmr : after (·.readGr 1) 0x24500042 ((base.writeGr 4 0x55).writeGr 2 6) = some (0x55) := by decide
theorem test_mr : after (·.readGr 1) 0x28400005 (base.writeSr 5 0xBEEF) = some (0xBEEF) := by decide
theorem test_mr_user : after (·.psw1) 0x29300018 (withStatus 0x40000000 base) = some (0x80E0) := by decide
theorem test_mst : after (·.psw0) 0x2C400002 (withStatus 0x20000 (base.writeGr 2 0xFFFFFFF5)) = some (0x50000) := by decide
theorem test_mst_old : after (·.readGr 1) 0x2C600004 (withStatus 0x50000 base) = some (5) := by decide
theorem test_ds : refusal 0x30400023 base = some .divideStep := by decide
theorem test_add_carry : after (·.psw0) 0x40C40045 ((base.writeGr 4 0xFFFFFFFF).writeGr 5 1) = some (0x04000000) := by decide
theorem test_add_memory : after (·.readGr 3) 0x40CA0045 (((base.writeGr 3 1).writeGr 4 4).writeGr 5 0x2000) = some (0x55667789) := by decide
theorem test_adc : after (·.readGr 1) 0x44440012 (withStatus 0x4000000 ((base.writeGr 1 5).writeGr 2 6)) = some (0xC) := by decide
theorem test_sub : after (·.psw0) 0x48440023 ((base.writeGr 2 3).writeGr 3 5) = some (0x04000000) := by decide
theorem test_sub_overflow : after (·.psw1) 0x48540023 ((base.writeGr 2 0x80000000).writeGr 3 1) = some (0x8100) := by decide
theorem test_sbc : after (·.readGr 1) 0x4C440012 (withStatus 0x4000000 ((base.writeGr 1 0xA).writeGr 2 3)) = some (6) := by decide
theorem test_and : after (·.readGr 1) 0x50540023 ((base.writeGr 2 0xFF00FF00).writeGr 3 0xFF00FF0) = some (0xF000F000) := by decide
theorem test_or : after (·.readGr 1) 0x54640023 ((base.writeGr 2 0xFF00FF00).writeGr 3 0xFF00FF0) = some (0x000F000F) := by decide
theorem test_xor : after (·.readGr 1) 0x58640023 ((base.writeGr 2 0xFF00FF00).writeGr 3 0xFF00FF0) = some (0x0F0F0F0F) := by decide
theorem test_cmp : after (·.readGr 1) 0x5C540023 ((base.writeGr 2 0xFFFFFFFF).writeGr 3 1) = some (1) := by decide
theorem test_cmpu : after (·.readGr 1) 0x60540023 ((base.writeGr 2 0xFFFFFFFF).writeGr 3 1) = some (0) := by decide
theorem test_b : after (·.psw1) 0x803FF801 (base) = some (0) := by decide
theorem test_b_link : after (·.readGr 14) 0x83800004 (base) = some (0x1004) := by decide
theorem test_gate : after (·.psw0) 0x84800010 (coded.setPc 0x4000) = some (0x20000010) := by decide
/-- On a plain execute page GATE branches and keeps the level (95_test_vectors.md 2.5, row "user, plain execute page"). -/
theorem test_gate_execute_page :
    after (fun t => (t.readGr 2, t.psw0, t.psw1)) 0x84800010 coded = some (1, 0x60000010, 0x1020) := by decide
theorem test_br : after (·.psw1) 0x88000002 (base.writeGr 2 0xFFFFFFF0) = some (0xFC0) := by decide
theorem test_bv : after (·.psw1) 0x8C000002 (base.writeGr 2 0x2002) = some (0x2000) := by decide
theorem test_be : after (·.psw0) 0x93800851 ((coded.writeGr 1 0x400000).writeSr 5 0x22) = some (0x60000022) := by decide
theorem test_be_segment : after (·.readSr 0) 0x93800851 ((coded.writeGr 1 0x400000).writeSr 5 0x22) = some (0x10) := by decide
theorem test_bve : after (·.psw0) 0x97800045 (((coded.writeGr 4 0x20).writeGr 5 0x80001000).writeSr 6 0x33) = some (0x60000033) := by decide
theorem test_cbr : after (·.psw1) 0x99FFFD12 ((base.writeGr 1 0xFFFFFFFF).writeGr 2 1) = some (0xFF8) := by decide
theorem test_cbru : after (·.psw1) 0x9DFFFD12 ((base.writeGr 1 0xFFFFFFFF).writeGr 2 1) = some (0x1004) := by decide
theorem test_ld : after (·.readGr 1) 0xC0410042 (base.writeGr 2 0x2000) = some (0x3344) := by decide
theorem test_ld_base : after (·.readGr 2) 0xC052FF92 (base.writeGr 2 0x2008) = some (0x2004) := by decide
theorem test_st : after (memByte ·.mem 0x2001) 0xC4400022 ((base.writeGr 1 0xAABBCCDD).writeGr 2 0x2000) = some (some 0xDD) := by decide
theorem test_st_read_only : after (·.psw1) 0xC4420002 (mapped.writeGr 2 0x40004000) = some (0x81C0) := by decide
theorem test_lda : after (·.readGr 1) 0xC8420082 (base.writeGr 2 0x2000) = some (0x55667788) := by decide
theorem test_sta : after (memByte ·.mem 0x2007) 0xCC420082 ((base.writeGr 1 0xAABBCCDD).writeGr 2 0x2000) = some (some 0xDD) := by decide
theorem test_ldr : after (·.lrValid) 0xD0420082 (base.writeGr 2 0x2000) = some (true) := by decide
theorem test_stc : after (·.readGr 1) 0xD4420082 (reserved 0x2004 ((base.writeGr 1 0x99).writeGr 2 0x2000)) = some (0) := by decide
theorem test_stc_lost : after (·.readGr 1) 0xD4420082 (reserved 0x2000 ((base.writeGr 1 0x99).writeGr 2 0x2000)) = some (1) := by decide
theorem test_ldpa : after (·.readGr 1) 0xE4400002 (mapped.writeGr 2 0x40004010) = some (0x0048C010) := by decide
theorem test_prb : after (·.readGr 1) 0xE8500012 (mapped.writeGr 2 0x40004000) = some (1) := by decide
theorem test_itlb : after (tlbLookup ·.dtlb 7 0x10) 0xECE00012 (((base.writeSr 1 7).writeGr 2 0x40000).writeGr 3 0x700010) = some (some (dataEntry .readWrite true true 0x10 0x10)) := by decide
theorem test_ptlb : after (·.dtlb.length) 0xF0300032 ((mapped.writeGr 2 0x40008000).writeGr 3 0xFFFFC000) = some (1) := by decide
theorem test_pca : after (·.readGr 2) 0xF4300032 ((base.writeGr 2 0x2000).writeGr 3 0x10) = some (0x2010) := by decide
theorem test_diag_user : after (·.psw1) 0xF8540023 (withStatus 0x40000000 base) = some (0x80C0) := by decide
theorem test_rfi : after (·.psw1) 0xFC000000 ((base.writeCr 17 0x64050022).writeCr 18 0x400013) = some (0x400010) := by decide
theorem test_brk : after (·.psw1) 0x00400002 (base) = some (0x8240) := by decide
theorem test_unassigned_opcode : after (·.psw1) 0x34000000 (base) = some (0x80A0) := by decide
theorem test_first_after_reset : after (·.readGr 1) 0x047FFFFF (State.reset) = some (0xFFFFFC00) := by decide

/-- With no setting of EXT_IRQ_MODEL no request is ever pending (60_exceptions.md R444). -/
theorem test_no_external_request : (base.deliver .externalRaise).extPending = false := by decide

/-- `B 0` at the instruction address ends a run as a fixed point (70_reset_and_hazards.md R520). -/
theorem test_run_fixed_point : (runFrom [[], [], []] (base.withFetchWord 32 0x80000000)).1 = .fixedPoint := by decide

/-- A power failure delivered before the first step is taken by it: the next address is the handler of trap 2. -/
theorem test_run_power_failure : (runFrom [[.powerFailure]] base).2.psw1 = 0x8040 := by decide

/-! ### Witnesses: for each statement with hypotheses, a state and operands that meet them -/

theorem test_witness_DecodeEncodeRoundTrip :
    Instr.wellFormed (.mr 1 true true 31) = true ∧ Instr.wellFormed (.ld 15 true 3 .double (.reg 15) 15) = true := by decide

theorem test_witness_EncodeOfDecodeIsTheWord : decode 0xFFFFFFFF = .error .reservedField ∧ decode 0xFC000000 = .ok .rfi := by decide

/-- The machine about to fetch the word `w` at 0x1000, untranslated. -/
def fetching (w : Nat) : State := base.withFetchWord 32 w

theorem test_ready : Ready (fetching 0) :=
  ⟨by decide, by decide, by decide, .inr rfl, rfl, .inl (by decide)⟩

theorem test_fetches (w : Nat) : Fetches (fetching w) 0x1000 (fetching w) :=
  ⟨fun _ => ⟨by rfl, rfl⟩, fun h => absurd h (by simp [fetching, State.withFetchWord, State.placeWord, State.pswC, base]; decide), by decide⟩

theorem test_witness_RejectedWordsStop :
    Ready (fetching 0x34000000) ∧ Fetches (fetching 0x34000000) 0x1000 (fetching 0x34000000) ∧
    (fetching 0x34000000).staleAt 0x1000 = [] ∧ Holds (fetching 0x34000000).mem 0x1000 .word 0x34000000 ∧
    unassignedOpcode (field 0x34000000 0 6).toNat :=
  ⟨⟨by decide, by decide, by decide, .inr rfl, rfl, .inl (by decide)⟩, test_fetches _, rfl, by unfold Holds; decide,
    by unfold unassignedOpcode; decide⟩

theorem test_witness_RejectedWordsStop_reserved :
    Ready (fetching 0xFC000001) ∧ Fetches (fetching 0xFC000001) 0x1000 (fetching 0xFC000001) ∧
    (fetching 0xFC000001).staleAt 0x1000 = [] ∧ Holds (fetching 0xFC000001).mem 0x1000 .word 0xFC000001 ∧
    decode 0xFC000001 = .error .reservedField :=
  ⟨⟨by decide, by decide, by decide, .inr rfl, rfl, .inl (by decide)⟩, test_fetches _, rfl, by unfold Holds; decide, by decide⟩

theorem test_unassigned_boundaries :
    (¬ unassignedOpcode 0x0C ∧ unassignedOpcode 0x0D ∧ unassignedOpcode 0x0F ∧ ¬ unassignedOpcode 0x10) ∧
    (¬ unassignedOpcode 0x18 ∧ unassignedOpcode 0x19 ∧ unassignedOpcode 0x1F ∧ ¬ unassignedOpcode 0x20) ∧
    (¬ unassignedOpcode 0x27 ∧ unassignedOpcode 0x28 ∧ unassignedOpcode 0x2F ∧ ¬ unassignedOpcode 0x30) ∧
    (¬ unassignedOpcode 0x35 ∧ unassignedOpcode 0x36 ∧ unassignedOpcode 0x38 ∧ ¬ unassignedOpcode 0x39) := by
  unfold unassignedOpcode; omega

theorem test_witness_StepRunsTheDecodedInstruction :
    Ready (fetching 0xFC000000) ∧ Fetches (fetching 0xFC000000) 0x1000 (fetching 0xFC000000) ∧
    (fetching 0xFC000000).staleAt 0x1000 = [] ∧ Holds (fetching 0xFC000000).mem 0x1000 .word 0xFC000000 ∧
    decode 0xFC000000 = .ok .rfi :=
  ⟨⟨by decide, by decide, by decide, .inr rfl, rfl, .inl (by decide)⟩, test_fetches _, rfl, by unfold Holds; decide, by decide⟩

/-- Privileged, code translation on, on an execute page of PL2 = 1 that holds RFI. -/
def demoting : State := (withStatus 0x20000010 coded).withFetchWord 32 0xFC000000

theorem test_witness_StepRunsTheDecodedInstruction_demoted :
    Ready demoting ∧ Fetches demoting 0x81000 (demoting.setX true) ∧ demoting.staleAt 0x81000 = [] ∧
    Holds demoting.mem 0x81000 .word 0xFC000000 ∧ decode 0xFC000000 = .ok .rfi :=
  ⟨⟨by decide, by decide, by decide, .inr rfl, rfl, .inl (by decide)⟩,
    ⟨fun h => absurd h (by decide), fun _ => ⟨_, rfl, .inl rfl, by decide, fun h => absurd h (by decide), by decide, by
      rw [if_pos (by decide)]⟩, by decide⟩,
    by decide, by unfold Holds; decide, by decide⟩

theorem test_witness_FetchReturnsACurrentOrStaleWord :
    Ready (fetching 0xFC000000) ∧ Fetches (fetching 0xFC000000) 0x1000 (fetching 0xFC000000) ∧
    fetch (fetching 0xFC000000) = .ok (0xFC000000, fetching 0xFC000000) :=
  ⟨⟨by decide, by decide, by decide, .inr rfl, rfl, .inl (by decide)⟩, test_fetches _, rfl⟩

/-- Code translation on, with the instruction TLB's entry for page 0 of segment 0x10 as given. -/
def codedWith (user : Bool) (pCheck : Bool) (r : Rights) (p : Bool) : State :=
  { withStatus (if user then (if pCheck then 0x60020010 else 0x60000010) else 0x20000010) base with
    itlb := [⟨true, false, false, false, p, r, 0x10, 0, 0x20⟩] }

theorem test_witness_FetchTraps_miss :
    Ready (coded.setPc 0x8000) ∧ (coded.setPc 0x8000).pswC = true ∧
    tlbLookup (coded.setPc 0x8000).itlb (coded.setPc 0x8000).pswSeg (pageOf (coded.setPc 0x8000).psw1) = none :=
  ⟨⟨by decide, by decide, by decide, .inr rfl, rfl, .inl (by decide)⟩, by decide, by decide⟩

theorem test_witness_FetchTraps_type :
    Ready (codedWith true false ⟨.readWrite, true, true⟩ false) ∧ (codedWith true false ⟨.readWrite, true, true⟩ false).pswC = true ∧
    ∃ e, tlbLookup (codedWith true false ⟨.readWrite, true, true⟩ false).itlb 0x10 0 = some e ∧ e.rights.type = .readWrite :=
  ⟨⟨by decide, by decide, by decide, .inr rfl, rfl, .inl (by decide)⟩, by decide, _, rfl, rfl⟩

theorem test_witness_FetchTraps_pid :
    Ready (codedWith true true ⟨.execute, true, true⟩ true) ∧ (codedWith true true ⟨.execute, true, true⟩ true).pswC = true ∧
    ∃ e, tlbLookup (codedWith true true ⟨.execute, true, true⟩ true).itlb 0x10 0 = some e ∧
      (codedWith true true ⟨.execute, true, true⟩ true).pidRefuses e 0x10 = true :=
  ⟨⟨by decide, by decide, by decide, .inr rfl, rfl, .inl (by decide)⟩, by decide, _, rfl, by decide⟩

theorem test_witness_FetchTraps_level :
    Ready (codedWith true false ⟨.execute, false, false⟩ false) ∧ (codedWith true false ⟨.execute, false, false⟩ false).pswX = true ∧
    ∃ e, tlbLookup (codedWith true false ⟨.execute, false, false⟩ false).itlb 0x10 0 = some e ∧ e.rights.pl1 = false :=
  ⟨⟨by decide, by decide, by decide, .inr rfl, rfl, .inl (by decide)⟩, by decide, _, rfl, rfl⟩

theorem test_witness_AsynchronousEventsAreTaken :
    (let s := base.deliver (.machineCheck 7); s.pswN = false ∧ s.pswR = false ∧ s.pswZ = false ∧ s.pswM = false ∧
      s.machineCheck = some 7) ∧
    (let s := (withStatus 0x80000000 base).deliver .powerFailure; s.pswN = false ∧ s.pswR = false ∧ s.pswZ = false ∧
      s.pswM = true ∧ s.powerFail = true) ∧
    (let s := { withStatus 0x10000 base with extPending := true }; s.pswN = false ∧ s.pswR = false ∧ s.pswZ = false ∧
      s.machineCheck = none ∧ s.powerFail = false ∧ s.pswE = true ∧ s.extPending = true) := by decide

theorem test_witness_StatesWithoutMeaningAreRefused :
    (withStatus 0x10000000 base).pswN = true ∧
    ((withStatus 0x00100000 base).pswN = false ∧ (withStatus 0x00100000 base).pswR = true) ∧
    ((withStatus 0x00080000 base).pswN = false ∧ (withStatus 0x00080000 base).pswR = false ∧
      (withStatus 0x00080000 base).pswZ = true) := by decide

theorem test_witness_InvariantKeptByEveryStep : (fetching 0x047FFFFF).Inv ∧ ∃ t, step (fetching 0x047FFFFF) = .next t := by
  refine ⟨⟨by decide, by decide, by decide, by decide, ⟨by decide, ?_, by decide, ?_⟩, ⟨by decide, ?_, by decide, ?_⟩, ?_, ?_, ?_⟩, _, rfl⟩
  case refine_5 => intro h; exact absurd h (by decide)
  all_goals (intro x hx; exact absurd hx (by simp [fetching, State.withFetchWord, State.placeWord, base, State.reset, State.setPc, State.writeCr]))

theorem test_witness_PrivilegeLevelChanges :
    (∃ t, exec (.gate 2 0x10) (withStatus 0x40000000 base) = .next t ∧ t.pswX = false) ∧
    (∃ t, exec .rfi (base.writeCr 17 0x40000000) = .next t ∧ t.pswX = true) := ⟨⟨_, rfl, by decide⟩, _, rfl, by decide⟩

theorem test_witness_CarryBitWriters :
    writesCarry (.add 1 true false (.imm 2)) = false ∧ ∃ t, exec (.add 1 true false (.imm 2)) base = .next t :=
  ⟨by decide, _, rfl⟩

theorem test_witness_MemoryWriters :
    ∃ t, exec (.st 0 false 0 .byte (.imm 0) 2) (base.writeGr 2 0x2000) = .next t ∧
      memByte t.mem 0x2000 ≠ memByte (base.writeGr 2 0x2000).mem 0x2000 := ⟨_, rfl, by decide⟩

theorem test_witness_UserModeKeepsProtectedState :
    (withStatus 0x40000000 base).pswX = true ∧
    ∃ t, exec (.mr 1 true false 4) (withStatus 0x40000000 base) = .next t := ⟨by decide, _, rfl⟩

/-- The bytes 0x2000 to 0x2003 of `base` as data. -/
theorem test_reads_word : Reads base 0 0x2000 .word 0x2000 0x11223344 :=
  ⟨⟨by decide, fun _ => rfl, fun h => absurd h (by decide)⟩, by decide, by unfold Holds; decide⟩

theorem test_reads_half : Reads base 0 0x2006 .half 0x2006 0x7788 :=
  ⟨⟨by decide, fun _ => rfl, fun h => absurd h (by decide)⟩, by decide, by unfold Holds; decide⟩

theorem test_reads_byte : Reads base 0 0x2007 .byte 0x2007 0x88 :=
  ⟨⟨by decide, fun _ => rfl, fun h => absurd h (by decide)⟩, by decide, by unfold Holds; decide⟩

/-- A read through the data TLB. -/
theorem test_reads_mapped : Reads mapped 7 0x40002004 .word 0x2004 0x55667788 :=
  ⟨⟨by decide, fun h => absurd h (by decide), fun _ => ⟨_, rfl, ⟨by decide, by decide, by decide, fun _ => by decide, by decide⟩,
    by decide⟩⟩, by decide, by unfold Holds; decide⟩

theorem test_witness_RegisterZero :
    OperandsAre (base.writeGr 4 0xFFFFFFFF) 0 (.reg 4 4) 0xFFFFFFFF 0xFFFFFFFF ∧
    Reads (base.writeGr 2 0x2000) 0 0x2000 .word 0x2000 0x11223344 ∧
    (base.memOffset false (.imm 2) 0).toNat % 4 ≠ 0 :=
  ⟨⟨by decide, by decide⟩, ⟨⟨by decide, fun _ => rfl, fun h => absurd h (by decide)⟩, by decide, by unfold Holds; decide⟩, by decide⟩

theorem test_witness_ExtrExtractsTheField :
    (1 : BitVec 5) ≠ 0 ∧ (1 : BitVec 5).toNat ≤ positionOf base false 0 + 1 ∧
    (31 : BitVec 5).toNat ≤ positionOf base false 30 + 1 ∧
    (31 : BitVec 5).toNat ≤ positionOf (base.writeCr 2 31) true 0 + 1 := by decide

theorem test_witness_DepDepositsTheField :
    (31 : BitVec 5) ≠ 0 ∧ (31 : BitVec 5).toNat ≤ positionOf base false 30 + 1 ∧ (1 : BitVec 5).toNat ≤ positionOf base true 31 + 1 := by
  decide

theorem test_witness_ShlaShiftsAndAdds : ShlaFits false 2 0xFFFFFFFF 1 ∧ ShlaFits true 1 0x40000000 1 := by
  unfold ShlaFits Fits; decide

theorem test_witness_CmrMovesOnItsCondition :
    MoveCondHolds .lt 0x80000000 ∧ ¬ MoveCondHolds .gt 0 ∧ (∀ c, MoveCond.gt ≠ .undefined c) ∧ MoveCond.ofBits 8 = .undefined 0 ∧
    MoveCond.ofBits 15 = .undefined 7 :=
  ⟨by unfold MoveCondHolds; decide, by unfold MoveCondHolds; decide, fun _ h => (nomatch h), by decide, by decide⟩

/-- Operands in each of the four modes. -/
theorem test_operands :
    OperandsAre (base.writeGr 3 9) 3 (.imm 0x3FFFF) 9 0xFFFFFFFF ∧ OperandsAre (base.writeGr 4 7) 3 (.reg 4 0) 7 0 ∧
    OperandsAre (base.writeGr 2 0x2000) 3 (.disp .half 8 2) 0 0x5566 ∧
    OperandsAre ((base.writeGr 2 0x2000).writeGr 1 4) 3 (.indexed .word 1 2) 0 0x55667788 :=
  ⟨⟨by decide, by decide⟩, ⟨by decide, by decide⟩,
    ⟨by decide, .half, 0x2004, rfl, ⟨by decide, fun _ => by decide, fun h => absurd h (by decide)⟩, by decide, by unfold Holds; decide⟩,
    ⟨by decide, .word, 0x2004, rfl, ⟨by decide, fun _ => by decide, fun h => absurd h (by decide)⟩, by decide, by unfold Holds; decide⟩⟩

theorem test_witness_AddAndAdcResult :
    OperandsAre (base.writeGr 4 7) 3 (.reg 4 0) 7 0 ∧ Fits false (exactValue false 7 + exactValue false 0 + (false).toNat) ∧
    Fits true (exactValue true 0xFFFFFFFF + exactValue true 0 + (false).toNat) :=
  ⟨⟨by decide, by decide⟩, by unfold Fits; decide, by unfold Fits; decide⟩

theorem test_witness_SubAndSbcResult :
    OperandsAre (base.writeGr 4 7) 3 (.reg 4 0) 7 0 ∧ Fits false (exactValue false 7 - exactValue false 0 - (true).toNat) ∧
    Fits true (exactValue true 7 - exactValue true 7 - (false).toNat) :=
  ⟨⟨by decide, by decide⟩, by unfold Fits; decide, by unfold Fits; decide⟩

theorem test_witness_OverflowTraps :
    OperandsAre (base.writeGr 4 0x7FFFFFFF) 3 (.reg 4 4) 0x7FFFFFFF 0x7FFFFFFF ∧
    ¬ Fits false (exactValue false 0x7FFFFFFF + exactValue false 0x7FFFFFFF) ∧
    ¬ Fits false (exactValue false 0x7FFFFFFF + exactValue false 0 + (true).toNat) ∧
    ¬ Fits true (exactValue true 0 - exactValue true 1) ∧ ¬ Fits true (exactValue true 0 - exactValue true 0 - (true).toNat) ∧
    ¬ ShlaFits false 1 0x40000000 1 :=
  ⟨⟨by decide, by decide⟩, by unfold Fits; decide, by unfold Fits; decide, by unfold Fits; decide, by unfold Fits; decide,
    by unfold ShlaFits Fits; decide⟩

theorem test_witness_LogicResult :
    OperandsAre (base.writeGr 2 0x2000) 3 (.disp .half 8 2) 0 0x5566 ∧ ¬ (true = true ∧ false = true) :=
  ⟨test_operands.2.2.1, by decide⟩

theorem test_witness_CompareResult :
    OperandsAre (base.writeGr 4 7) 3 (.reg 4 0) 7 0 ∧ CondHolds .lt (-1) 1 ∧ ¬ CondHolds .lt 1 1 ∧ CondHolds .le 1 1 :=
  ⟨⟨by decide, by decide⟩, by unfold CondHolds; decide, by unfold CondHolds; decide, by unfold CondHolds; decide⟩

theorem test_witness_GateResult :
    (coded.setPc 0x4000).pswC = true ∧ base.pswC = false ∧
    (∃ e, tlbLookup (coded.setPc 0x4000).itlb (coded.setPc 0x4000).pswSeg (pageOf (coded.setPc 0x4000).psw1) = some e ∧
      e.rights.type = .gateway ∧ e.rights.pl2 = false) ∧
    (∃ e, tlbLookup coded.itlb coded.pswSeg (pageOf coded.psw1) = some e ∧ ¬ (e.rights.type = .gateway ∧ e.rights.pl2 = false)) :=
  ⟨by decide, by decide, ⟨_, rfl, rfl, rfl⟩, _, rfl, by decide⟩

theorem test_witness_BranchExternalResult :
    (coded.pswC = true → (7 : BitVec 4).toNat < 8) ∧ (base.pswC = true → (15 : BitVec 4).toNat < 8) := by decide

theorem test_witness_ConditionalBranchResult :
    CondHolds .lt (0xFFFFFFFF : Word).toInt (1 : Word).toInt ∧ ¬ CondHolds .lt ((0xFFFFFFFF : Word).toNat : Int) ((1 : Word).toNat : Int) := by
  unfold CondHolds; decide

theorem test_witness_LoadResult :
    widthSize .byte = some .byte ∧ Reads base (base.dataSeg (segReg 0 0x2007)) 0x2007 .byte 0x2007 0x88 ∧
    widthSize .half = some .half ∧ Reads base (base.dataSeg (segReg 0 0x2006)) 0x2006 .half 0x2006 0x7788 ∧
    widthSize .word = some .word ∧ Reads mapped (mapped.dataSeg (segReg 0 0x40002004)) 0x40002004 .word 0x2004 0x55667788 :=
  ⟨rfl, test_reads_byte, rfl, test_reads_half, rfl, test_reads_mapped⟩

theorem test_witness_StoreResult :
    widthSize .word = some .word ∧ Writes base (base.dataSeg (segReg 0 0xEFFFFFFC)) 0xEFFFFFFC .word 0xEFFFFFFC ∧
    Writes mapped (mapped.dataSeg (segReg 0 0x40003FFF)) 0x40003FFF .byte 0x3FFF :=
  ⟨rfl, ⟨⟨by decide, fun _ => rfl, fun h => absurd h (by decide)⟩, by decide⟩,
    ⟨by decide, fun h => absurd h (by decide), fun _ => ⟨_, rfl, ⟨by decide, by decide, by decide, fun _ => by decide, by decide⟩,
      by decide⟩⟩, by decide⟩

theorem test_witness_AbsoluteAccessResult :
    (base.writeGr 2 0x2000).pswX = false ∧ ((base.writeGr 2 0x2000).memOffset false (.imm 8) 2).toNat % 4 = 0 ∧
    region (((base.writeGr 2 0x2000).memOffset false (.imm 8) 2).setWidth 34) = .memory ∧
    Holds (base.writeGr 2 0x2000).mem ((base.writeGr 2 0x2000).memOffset false (.imm 8) 2).toNat .word 0x55667788 ∧
    ((base.writeGr 2 0xF0FFFFFC).memOffset false (.imm 0) 2).toNat % 4 = 0 ∧
    region (((base.writeGr 2 0xF0FFFFFC).memOffset false (.imm 0) 2).setWidth 34) = .memory :=
  ⟨by decide, by decide, by decide, by unfold Holds; decide, by decide, by decide⟩

theorem test_witness_LoadReserveResult :
    Reads (base.writeGr 2 0x2000) ((base.writeGr 2 0x2000).dataSeg (segReg 0 ((base.writeGr 2 0x2000).readGr 2 + imm 0#12)))
      ((base.writeGr 2 0x2000).readGr 2 + imm 0#12) .word 0x2000 0x11223344 :=
  ⟨⟨by decide, fun _ => by decide, fun h => absurd h (by decide)⟩, by decide, by unfold Holds; decide⟩

theorem test_witness_StoreConditionalResult :
    base.lrValid = false ∧ (reserved 0x2000 base).lrValid = true ∧
    Reaches (reserved 0x2000 base) true 0 0x2000 .word 0x2000 ∧ (0x2000 : PAddr) = (reserved 0x2000 base).lrAddr ∧
    region 0x2000 = .memory ∧ Reaches (reserved 0x2000 base) true 0 0x2004 .word 0x2004 ∧
    (0x2004 : PAddr) ≠ (reserved 0x2000 base).lrAddr :=
  ⟨by decide, by decide, ⟨by decide, fun _ => rfl, fun h => absurd h (by decide)⟩, by decide, by decide,
    ⟨by decide, fun _ => rfl, fun h => absurd h (by decide)⟩, by decide⟩

/-- A load of the word at `GR[2]`. -/
def loadWord : Instr := .ld 1 false 0 .word (.imm 0) 2

/-- Data translation on at level 0 with protection ids checked, one entry for page 0x10000 of segment 7. -/
def mappedWith (user pCheck : Bool) (e : TlbEntry) : State :=
  { withStatus (if user then 0x40040000 else if pCheck then 0x60000 else 0x40000) ((base.writeSr 5 7).writeGr 2 0x40002000) with
    dtlb := [e] }

theorem test_witness_DataAccessTraps_alignment :
    accessOf (base.writeGr 2 0x2001) loadWord = some (false, 0, 0x2001, .word) ∧ (0x2001 : Word).toNat % Size.bytes .word ≠ 0 := by decide

theorem test_witness_DataAccessTraps_miss :
    accessOf (mapped.writeGr 2 0x40008000) loadWord = some (false, 7, 0x40008000, .word) ∧
    (mapped.writeGr 2 0x40008000).pswD = true ∧ tlbLookup (mapped.writeGr 2 0x40008000).dtlb 7 (pageOf 0x40008000) = none := by decide

/-- An access through `e` reaches the checks of the entry. -/
def checked (user pCheck : Bool) (e : TlbEntry) : Prop :=
  accessOf (mappedWith user pCheck e) loadWord = some (false, 7, 0x40002000, .word) ∧ (mappedWith user pCheck e).pswD = true ∧
    tlbLookup (mappedWith user pCheck e).dtlb 7 (pageOf 0x40002000) = some e

theorem test_witness_DataAccessTraps_rights :
    checked true false (dataEntry .readWrite false false 0x10000 0) ∧
    readAllowed (dataEntry .readWrite false false 0x10000 0).rights
      (mappedWith true false (dataEntry .readWrite false false 0x10000 0)).pswX = false := by
  unfold checked; decide

/-- A readable entry that checks the protection id. -/
def pidEntry : TlbEntry := { dataEntry .readWrite true true 0x10000 0 with pidCheck := true }

theorem test_witness_DataAccessTraps_pid :
    checked false true pidEntry ∧ readAllowed pidEntry.rights (mappedWith false true pidEntry).pswX = true ∧
    (mappedWith false true pidEntry).pidRefuses pidEntry 7 = true := by
  unfold checked; decide

/-- A readable entry that traps a reference. -/
def refEntry : TlbEntry := { dataEntry .readWrite true true 0x10000 0 with refTrap := true }

theorem test_witness_DataAccessTraps_reference :
    checked false true refEntry ∧ readAllowed refEntry.rights (mappedWith false true refEntry).pswX = true ∧
    (mappedWith false true refEntry).pidRefuses refEntry 7 = false ∧ refEntry.refTrap = true := by
  unfold checked; decide

theorem test_witness_ReservedWidthTraps :
    namesReservedWidth (.ld 1 false 0 .double (.imm 0) 2) = true ∧ namesReservedWidth (.and 1 true false (.disp .double 0 2)) = true ∧
    namesReservedWidth (.and 1 true true (.disp .double 0 2)) = false := by decide

theorem test_witness_AbsoluteAlignmentTraps : base.pswX = false ∧ (base.memOffset false (.imm 6) 0).toNat % 4 ≠ 0 := by decide

/-- A store of the word at `GR[2]`. -/
def storeWord : Instr := .st 1 false 0 .word (.imm 0) 2

theorem test_witness_AccessesThatStop_ioSpace :
    (accessOf (base.writeGr 2 0xF1000000) loadWord = some (false, 0, 0xF1000000, .word) ∧
      Reaches (base.writeGr 2 0xF1000000) false 0 0xF1000000 .word 0xF1000000 ∧ region 0xF1000000 = .ioSpace) ∧
    (accessOf (base.writeGr 2 0xFFFFFFFC) loadWord = some (false, 0, 0xFFFFFFFC, .word) ∧
      Reaches (base.writeGr 2 0xFFFFFFFC) false 0 0xFFFFFFFC .word 0xFFFFFFFC ∧ region 0xFFFFFFFC = .ioSpace) ∧
    (accessOf (reserved 0x2000 (base.writeGr 2 0xF1000000)) storeWord = some (true, 0, 0xF1000000, .word) ∧
      Reaches (reserved 0x2000 (base.writeGr 2 0xF1000000)) true 0 0xF1000000 .word 0xF1000000 ∧
      ¬ ∃ r sel d b, storeWord = .stc r sel d b) ∧
    (accessOf (reserved 0xF1000000 (base.writeGr 2 0xF1000000)) (.stc 1 0 0 2) = some (true, 0, 0xF1000000, .word) ∧
      (0xF1000000 : PAddr) = (reserved 0xF1000000 (base.writeGr 2 0xF1000000)).lrAddr) :=
  ⟨⟨by decide, ⟨by decide, fun _ => rfl, fun h => absurd h (by decide)⟩, by decide⟩,
    ⟨by decide, ⟨by decide, fun _ => rfl, fun h => absurd h (by decide)⟩, by decide⟩,
    ⟨by decide, ⟨by decide, fun _ => rfl, fun h => absurd h (by decide)⟩, by rintro ⟨_, _, _, _, h⟩; cases h⟩,
    by decide, by decide⟩

theorem test_witness_AccessesThatStop_unwritten :
    accessOf (base.writeGr 2 0x2008) loadWord = some (false, 0, 0x2008, .word) ∧
      Reaches (base.writeGr 2 0x2008) false 0 0x2008 .word 0x2008 ∧ region 0x2008 = .memory ∧
      ∃ k < Size.bytes .word, memByte (base.writeGr 2 0x2008).mem (0x2008 + k) = none :=
  ⟨by decide, ⟨by decide, fun _ => rfl, fun h => absurd h (by decide)⟩, by decide, 0, by decide, by decide⟩

theorem test_witness_AccessesThatStop_absolute :
    base.pswX = false ∧
    ((base.writeGr 2 0xF1000000).memOffset false (.imm 0) 2).setWidth 34 = (0xF1000000 : PAddr) ∧ region 0xF1000000 = .ioSpace ∧
    ((base.writeGr 2 0x2008).memOffset false (.imm 0) 2).setWidth 34 = (0x2008 : PAddr) ∧ region 0x2008 = .memory ∧
    memByte base.mem (0x2008 + 0) = none := by decide

theorem test_region_boundaries :
    [region 0xEFFFFFFF, region 0xF0000000, region 0xF0FFFFFF, region 0xF1000000, region 0xFFFFFFFF, region 0x100000000] =
      [.memory, .memory, .memory, .ioSpace, .ioSpace, .memory] := by decide

theorem test_witness_PrivilegedOperationTraps :
    (withStatus 0x40000000 base).pswX = true ∧
    [Instr.lda 1 false (.imm 0) 2, .sta 1 false (.imm 0) 2, .mst 1 .set 0, .ldpa 1 0 2 3, .itlb 1 true 2 3, .ptlb true false 0 2 3,
      .pca true false 0 true 2 3, .diag 1 2 3 4, .rfi].all alwaysPrivileged = true := by decide

theorem test_witness_MoveRegisterResult :
    ([3, 8, 15, 23] : List (BitVec 5)).all reservedCr = true ∧ ([0, 2, 4, 7, 16, 22, 24, 31] : List (BitVec 5)).any reservedCr = false ∧
    base.pswX = false ∧ (withStatus 0x40000000 base).pswX = true ∧ (24 : BitVec 5) ≠ 2 ∧ (4 : BitVec 3).toNat < 5 ∧
    5 ≤ (5 : BitVec 3).toNat := by decide

theorem test_witness_MoveStatusResult :
    (withStatus 0x40000000 base).pswX = true ∧ base.pswX = false ∧ MstMode.write ≠ .undefined ∧ MstMode.ofBits 3 = .undefined := by decide

theorem test_witness_LoadPhysicalAddressResult :
    (base.pswX = false ∧ base.pswD = false) ∧ (mapped.pswX = false ∧ mapped.pswD = true) ∧
    (∃ e, tlbLookup mapped.dtlb (mapped.readSr (segReg 0 0x40004010)) (pageOf 0x40004010) = some e) ∧
    tlbLookup mapped.dtlb (mapped.readSr (segReg 0 0x40008000)) (pageOf 0x40008000) = none :=
  ⟨by decide, by decide, ⟨_, rfl⟩, by decide⟩

/-- The protection id check on the two halves of CR4 to CR7: the id in the left half of CR4 or in the right half of CR7 passes, in CR8
it does not (20_memory.md R106, 10_state.md R50). -/
theorem test_pid_halves :
    [(4, 0x70000), (7, 7), (8, 7)].map (fun (c : BitVec 5 × Word) =>
      ((mappedWith false true pidEntry).writeCr c.1 c.2).pidRefuses pidEntry 7) = [false, false, true] := by decide

theorem test_witness_ProbeResult :
    (∃ e, tlbLookup (mapped.writeGr 2 0x40004000).dtlb
      ((mapped.writeGr 2 0x40004000).readSr (segReg 0 ((mapped.writeGr 2 0x40004000).readGr 2)))
      (pageOf ((mapped.writeGr 2 0x40004000).readGr 2)) = some e) ∧
    tlbLookup mapped.dtlb (mapped.readSr (segReg 0 (mapped.readGr 2))) (pageOf (mapped.readGr 2)) = none :=
  ⟨⟨_, rfl⟩, by decide⟩

/-- The operands of an insertion into the data TLB: SR1 is segment 7, page 0x10. -/
def inserting : State := ((base.writeSr 1 7).writeGr 2 0x40000).writeGr 3 0x700010

theorem test_witness_InsertTlbResult :
    inserting.pswX = false ∧ (1 : BitVec 4).toNat < 8 ∧ (7 : SegId) = inserting.readSr ((1 : BitVec 4).setWidth 3) ∧
    (0x10 : Page) = field (inserting.readGr 2) 0 18 ∧ (0x700010 : Word) = inserting.readGr 3 ∧
    ((7 : SegId) = 0 → field (0x700010 : Word) 12 20 = (0x10 : Page).setWidth 20) ∧
    (namedTlb inserting true).length < 256 := by
  unfold namedTlb; decide

theorem test_inserting_inv : inserting.Inv := by
  refine ⟨by decide, by decide, by decide, by decide, ⟨by decide, ?_, by decide, ?_⟩, ⟨by decide, ?_, by decide, ?_⟩, ?_, ?_, ?_⟩
  case refine_5 => intro h; exact absurd h (by decide)
  all_goals (intro x hx; exact absurd hx (by simp [inserting, base, State.reset, State.setPc, State.writeCr, State.writeGr, State.writeSr]))

theorem test_witness_PurgeTlbResult :
    mapped.pswX = false ∧
    (0x40004000 : Word) = (if false = false ∨ (mapped.readGr 0).toInt < 0 then (mapped.writeGr 2 0x40004000).readGr 2 + mapped.readGr 0
      else (mapped.writeGr 2 0x40004000).readGr 2) := by decide

theorem test_witness_PurgeCacheResult :
    (base.writeGr 2 0x2000).pswX = false ∧
    (0x2000 : Word) = (if true = false ∨ ((base.writeGr 2 0x2000).readGr 1).toInt < 0
      then (base.writeGr 2 0x2000).readGr 2 + (base.writeGr 2 0x2000).readGr 1 else (base.writeGr 2 0x2000).readGr 2) ∧
    LineAddress base true 0 0x2000 0x2000 ∧ LineAddress base false 0 0x2000 0x2000 ∧ LineAddress mapped true 7 0x40002000 0x2000 ∧
    (mapped.pswD = true ∧ tlbLookup mapped.dtlb 7 (pageOf 0x40008000) = none) ∧
    (withStatus 0x20000010 coded).pswX = false ∧ (withStatus 0x20000010 coded).pswC = true ∧
    tlbLookup coded.itlb 0x10 (pageOf 0x8000) = none :=
  ⟨by decide, by decide, rfl, rfl, ⟨_, rfl, by decide⟩, by decide, by decide, by decide, by decide⟩

/-- Two words of the line at 0x2000 and one of the next have unflushed stores. -/
def dirty : State :=
  { base with dOld := [oldWordAt [(0x2000, 0x99)] 0x2000, oldWordAt [] 0x2004, oldWordAt [] 0x2010] }

theorem test_dirty_inv : dirty.Inv := by
  refine ⟨by decide, by decide, by decide, by decide, ⟨by decide, by decide, by decide, by decide⟩,
    ⟨by decide, by decide, by decide, by decide⟩, fun h => absurd h (by decide), by decide, by decide⟩

theorem test_witness_PurgeCacheResult_unflushed :
    dirty.pswX = false ∧ dirty.Inv ∧ LineAddress dirty true 0 0x2000 0x2000 ∧
    (Unflushed dirty 0x2000 (oldWordAt dirty.mem 0x2000) ∧ Unflushed dirty 0x2000 (oldWordAt dirty.mem 0x2004)) ∧
    (otherLines 0x2000 dirty.dOld).map (·.addr) = [0x2010] :=
  ⟨by decide, test_dirty_inv, rfl,
    ⟨⟨rfl, ⟨_, List.mem_cons_self .., rfl⟩, rfl⟩, rfl, ⟨_, List.mem_cons_of_mem _ (List.mem_cons_self ..), rfl⟩, rfl⟩, by decide⟩

/-- A flush of the line leaves the next line's unflushed stores. -/
theorem test_pca_flush : after (·.dOld.map (·.addr)) 0xF4220002 (dirty.writeGr 2 0x2000) = some [0x2010] := by decide

/-- Without flush too, and the words of the line are remembered. -/
theorem test_pca_purge : after (·.dOld.map (·.addr)) 0xF4200002 (dirty.writeGr 2 0x2000) =
    some [0x2004, 0x2000, 0x2000, 0x2004, 0x2010] := by decide

theorem test_witness_DiagnoseResult : base.pswX = false := by decide

theorem test_witness_ReturnFromInterruptResult : base.pswX = false ∧ (withStatus 0x40000000 base).pswX = true := by decide

theorem test_witness_BreakResult : ¬ ((0 : BitVec 4) = 0 ∧ (1 : BitVec 16) = 0) ∧ ¬ ((15 : BitVec 4) = 0 ∧ (0 : BitVec 16) = 0) := by decide

theorem test_witness_UndefinedFormsAreRefused :
    ((0 : BitVec 5) = 0 ∧ positionOf base false 3 + 1 < (5 : BitVec 5).toNat ∧ positionOf (base.writeCr 2 7) true 31 + 1 < (9 : BitVec 5).toNat) ∧
    (coded.pswC = true ∧ 8 ≤ (8 : BitVec 4).toNat) ∧ base.pswX = false ∧
    ((7 : BitVec 4).toNat < 8 ∧ (base.writeGr 3 1).readSr ((7 : BitVec 4).setWidth 3) = 0 ∧
      field ((base.writeGr 3 1).readGr 3) 12 20 ≠ (field ((base.writeGr 3 1).readGr 2) 0 18).setWidth 20) ∧
    (let e := { dataEntry .readWrite true true 0x10000 0 with dataTrap := true }; let s := mappedWith false false e
     accessOf s loadWord = some (false, 7, 0x40002000, .word) ∧ s.pswD = true ∧ tlbLookup s.dtlb 7 (pageOf 0x40002000) = some e ∧
      readAllowed e.rights s.pswX = true ∧ s.pidRefuses e 7 = false ∧ e.refTrap = false ∧ e.dataTrap = true) ∧
    (let e := { dataEntry .readWrite true true 0x10000 0 with dirtyTrap := true }; let s := mappedWith false false e
     accessOf s (.st 1 false 0 .word (.imm 0) 2) = some (true, 7, 0x40002000, .word) ∧ s.pswD = true ∧
      tlbLookup s.dtlb 7 (pageOf 0x40002000) = some e ∧ writeAllowed e.rights s.pswX = true ∧ s.pidRefuses e 7 = false ∧
      e.refTrap = false ∧ e.dirtyTrap = true) := by decide

end Sys2Proof.Tests
end

section
/-! PROOFS. The immediate instructions LDIL, ADDIL and LSID (41_immediate.md R230, R231, R236). -/

namespace Sys2Proof.Machine

/-! ### The immediate in place -/

/-- `leftImm` is the shift of 30_encoding.md R152. -/
theorem leftImm_eq_shiftLeft (val : BitVec 22) : leftImm val = val.setWidth 32 <<< 10 :=
  calc val ++ 0#10
      = (val ++ 0#10).setWidth 32 := (BitVec.setWidth_eq _).symm
    _ = val.setWidth 32 <<< 10 ||| (0#10).setWidth 32 := BitVec.setWidth_append_eq_shiftLeft_setWidth_or
    _ = val.setWidth 32 <<< 10 := BitVec.or_zero

/-! ### The states they leave -/

theorem exec_ldil_next (s : State) (r : BitVec 4) (val : BitVec 22) :
    exec (.ldil r val) s = .next (s.writeGr r (leftImm val)).advance := by
  rw [exec_ldil, execLdil, conclude_done]

theorem exec_addil_next (s : State) (r : BitVec 4) (val : BitVec 22) :
    exec (.addil r val) s = .next (s.writeGr 1 (s.readGr r + leftImm val)).advance := by
  rw [exec_addil, execAddil, conclude_done]

theorem exec_lsid_next (s : State) (r b : BitVec 4) :
    exec (.lsid r b) s = .next (s.writeGr r ((s.readSr (segSelect (s.readGr b))).setWidth 32)).advance := by
  rw [exec_lsid, execLsid, conclude_done]

/-- What the register an instruction wrote reads once the instruction has gone to the next one. -/
theorem readGr_written_advance (s : State) (r : BitVec 4) (v : Word) : (s.writeGr r v).advance.readGr r = written r v := by
  rw [readGr_advance, readGr_written]

/-! ### The statements -/

/-- Settles O19: the immediate in place is the shifted one. -/
theorem ldilLoadsTheLeftImmediate : Obligations.LdilLoadsTheLeftImmediate := by
  intro s r val
  refine ⟨rfl, _, exec_ldil_next s r val, ?_, ends_writeGr s r _⟩
  rw [readGr_written_advance, leftImm_eq_shiftLeft]

/-- Settles O20: the result register is GR1, which is not register zero, so it reads the sum. -/
theorem addilAddsIntoRegisterOne : Obligations.AddilAddsIntoRegisterOne := by
  intro s r val
  refine ⟨rfl, _, exec_addil_next s r val, ?_, ends_writeGr s 1 _⟩
  rw [readGr_advance, readGr_writeGr_same s _ (by decide), leftImm_eq_shiftLeft]

/-- Settles O22: the segment register is the one `segSelect` names. -/
theorem lsidReadsTheSegmentRegister : Obligations.LsidReadsTheSegmentRegister := by
  intro s r b
  exact ⟨rfl, _, segSelect (s.readGr b), exec_lsid_next s r b, segSelect_toNat _, readGr_written_advance s r _, ends_writeGr s r _⟩

end Sys2Proof.Machine
end

section
/-! PROOFS. The branches to a register's content BR, BV and BVE (42_branch.md R257, R259, R266). -/

namespace Sys2Proof.Machine

/-! ### A taken branch -/

@[simp] theorem State.branchTo_psw1 (s : State) (r : BitVec 4) (link target : Word) :
    (s.branchTo r link target).psw1 = alignOfs target := rfl

@[simp] theorem pswSeg_branchTo (s : State) (r : BitVec 4) (link target : Word) :
    (s.branchTo r link target).pswSeg = s.pswSeg := rfl

@[simp] theorem readSr_branchTo (s : State) (r : BitVec 4) (link target : Word) (n : BitVec 3) :
    (s.branchTo r link target).readSr n = s.readSr n := rfl

/-- The link register of a taken branch. -/
theorem readGr_branchTo_link (s : State) (r : BitVec 4) (link target : Word) :
    (s.branchTo r link target).readGr r = written r link := by
  rw [State.branchTo, readGr_setPc, readGr_written]

/-- A taken branch writes the link register and the instruction offset only. -/
theorem keeps_branchTo (s : State) (r : BitVec 4) (link target : Word) : Keeps (isGr r) s (s.branchTo r link target) :=
  (keeps_writeGr s r link).trans ((keeps_setPc _ target).mono (fun _ h => h.elim))

/-! ### A taken branch to another segment -/

@[simp] theorem State.branchExternal_psw1 (s : State) (r : BitVec 4) (link : Word) (seg : SegId) (target : Word) :
    (s.branchExternal r link seg target).psw1 = alignOfs target := rfl

/-- SR0 receives the segment that is left. -/
theorem readSr_zero_branchExternal (s : State) (r : BitVec 4) (link : Word) (seg : SegId) (target : Word) :
    (s.branchExternal r link seg target).readSr 0 = s.pswSeg := by
  rw [State.branchExternal, readSr_branchTo, readSr_setSeg, readSr_writeSr, if_pos rfl]

@[simp] theorem pswSeg_branchExternal (s : State) (r : BitVec 4) (link : Word) (seg : SegId) (target : Word) :
    (s.branchExternal r link seg target).pswSeg = seg := by
  rw [State.branchExternal, pswSeg_branchTo, pswSeg_setSeg]

theorem readGr_branchExternal_link (s : State) (r : BitVec 4) (link : Word) (seg : SegId) (target : Word) :
    (s.branchExternal r link seg target).readGr r = written r link :=
  readGr_branchTo_link _ r link target

/-- An external branch writes the link register, SR0 and the instruction address (segment and offset) only. -/
theorem keeps_branchExternal (s : State) (r : BitVec 4) (link : Word) (seg : SegId) (target : Word) :
    Keeps (fun p => isGr r p ∨ p = .sr 0 ∨ isPsw0 16 31 p) s (s.branchExternal r link seg target) := by
  have hsr := keeps_writeSr s 0 s.pswSeg
  have hseg := keeps_setSeg (s.writeSr 0 s.pswSeg) seg
  have hbranch := keeps_branchTo ((s.writeSr 0 s.pswSeg).setSeg seg) r link target
  exact ((hsr.mono fun _ h => .inr (.inl h)).trans (hseg.mono fun _ h => .inr (.inr h))).trans (hbranch.mono fun _ h => .inl h)

/-! ### The states they leave -/

theorem exec_br_next (s : State) (r b : BitVec 4) :
    exec (.br r b) s = .next (s.branchTo r s.nextPc (s.psw1 + s.readGr b <<< 2)) := by
  rw [exec_br, execBr, takenBranchTrap_none, conclude_ok]

theorem exec_bv_next (s : State) (r b : BitVec 4) : exec (.bv r b) s = .next (s.branchTo r s.nextPc (s.readGr b)) := by
  rw [exec_bv, execBv, takenBranchTrap_none, conclude_ok]

theorem exec_bve_next (s : State) (r a b : BitVec 4) :
    exec (.bve r a b) s = .next (s.branchExternal r s.nextPc (s.readSr (segSelect (s.readGr b + s.readGr a)))
      (s.readGr b + s.readGr a)) := by
  rw [exec_bve, execBve, takenBranchTrap_none, conclude_ok]

/-! ### The statements -/

/-- Settles O38: an external branch to the segment register that `segSelect` names for the sum. -/
theorem branchVectoredExternalResult : Obligations.BranchVectoredExternalResult := by
  intro s r a b
  exact ⟨rfl, _, segSelect (s.readGr b + s.readGr a), exec_bve_next s r a b, segSelect_toNat _, keeps_branchExternal s r _ _ _,
    readGr_branchExternal_link .., readSr_zero_branchExternal .., pswSeg_branchExternal .., State.branchExternal_psw1 ..⟩

/-- Settles O36: BR and BV are taken branches that differ in the target only. -/
theorem registerBranchResult : Obligations.RegisterBranchResult := by
  intro s r b
  refine ⟨rfl, rfl, ⟨_, exec_br_next s r b, ?_⟩, ⟨_, exec_bv_next s r b, ?_⟩⟩
  · exact ⟨keeps_branchTo s r _ _, readGr_branchTo_link .., State.branchTo_psw1 ..⟩
  · exact ⟨keeps_branchTo s r _ _, readGr_branchTo_link .., State.branchTo_psw1 ..⟩

end Sys2Proof.Machine
end

section
/-! PROOFS. Trap entry as a state (60_exceptions.md R450), for the instructions that can take a trap. -/

namespace Sys2Proof.Machine

theorem paramValue_of_given {p : Option Word} (k : Nat) {v : Word} (h : p = some v) : paramValue p k = v := by
  subst h; rfl

/-- Trap entry writes PSW-0, PSW-1, CR17 to CR21 and the count of free values only. -/
theorem keeps_takeTrap (s : State) (t : Trap) : Keeps isTrapPart s (s.takeTrap t) := by
  intro p hc hp
  cases p with
  | psw0 n => exact absurd (.inl ⟨n, by omega, by omega, rfl⟩) hc
  | cr n => exact readCr_takeTrap_other s t (fun h => hc (.inr (.inl ⟨n, h.1, h.2, rfl⟩)))
  | freeValues => exact absurd (.inr (.inr rfl)) hc
  | psw1 => exact absurd rfl hp
  | _ => simp [samePart]

theorem trapEntered_takeTrap (s : State) (t : Trap) : TrapEntered s (s.takeTrap t) (trapNumber t.id) t.p0 t.p1 t.p2 where
  savedStatus := readCr_takeTrap_status s t
  savedOffset := readCr_takeTrap_offset s t
  parm0 _ h := by rw [readCr_takeTrap_p0, paramValue_of_given _ h]
  parm1 _ h := by rw [readCr_takeTrap_p1, paramValue_of_given _ h]
  parm2 _ h := by rw [readCr_takeTrap_p2, paramValue_of_given _ h]
  status := State.takeTrap_psw0 s t
  handler := State.takeTrap_psw1 s t
  frame := keeps_takeTrap s t

/-- An instruction that ends in a trap with its own word as parameter. -/
theorem traps_instrTrap (s : State) (id : TrapId) (w : Word) :
    Traps (.next (s.takeTrap (instrTrap id w))) s (trapNumber id) (some w) none none :=
  ⟨_, rfl, trapEntered_takeTrap s (instrTrap id w)⟩

end Sys2Proof.Machine
end

section
/-! PROOFS. The conditional move CMR (44_computational_bitfield.md R342). -/

namespace Sys2Proof.Machine

/-! ### The condition -/

/-- The rightmost bit of a word, bit 31 of the manual's numbering, is set in the odd words. -/
theorem flag_last_iff_odd (w : Word) : flag w 31 = true ↔ w.toNat % 2 = 1 := by
  rw [flag_eq, BitVec.getLsbD, Nat.testBit_zero, decide_eq_true_eq]

theorem flag_last_eq_false_iff_even (w : Word) : flag w 31 = false ↔ w.toNat % 2 = 0 := by
  rw [← Bool.not_eq_true, flag_last_iff_odd, Nat.mod_two_not_eq_one]

theorem toInt_eq_zero_iff (w : Word) : w.toInt = 0 ↔ w = 0 := BitVec.toInt_inj (y := 0)

/-- A code from 0 to 7 has a test, and it answers whether the condition holds. -/
theorem moveTest_of_defined {cond : MoveCond} (b : Word) (hdef : ∀ c, cond ≠ .undefined c) :
    ∃ met, moveTest cond b = some met ∧ (met = true ↔ MoveCondHolds cond b) := by
  cases cond with
  | undefined c => exact absurd rfl (hdef c)
  | eq => exact ⟨_, rfl, by rw [decide_eq_true_eq, toInt_eq_zero_iff]; rfl⟩
  | ne => exact ⟨_, rfl, by rw [decide_eq_true_eq, ne_eq, toInt_eq_zero_iff]; rfl⟩
  | ev => exact ⟨_, rfl, by rw [Bool.not_eq_true', flag_last_eq_false_iff_even]; rfl⟩
  | od => exact ⟨_, rfl, flag_last_iff_odd b⟩
  | lt | gt | le | ge => exact ⟨_, rfl, decide_eq_true_iff⟩

theorem ne_undefined_of_holds {cond : MoveCond} {b : Word} (h : MoveCondHolds cond b) (c : BitVec 3) : cond ≠ .undefined c := by
  rintro rfl; exact h

theorem moveTest_of_holds {cond : MoveCond} {b : Word} (h : MoveCondHolds cond b) : moveTest cond b = some true := by
  obtain ⟨met, htest, hmet⟩ := moveTest_of_defined b (ne_undefined_of_holds h)
  rw [htest, hmet.mpr h]

theorem moveTest_of_not_holds {cond : MoveCond} {b : Word} (h : ¬ MoveCondHolds cond b) (hdef : ∀ c, cond ≠ .undefined c) :
    moveTest cond b = some false := by
  obtain ⟨met, htest, hmet⟩ := moveTest_of_defined b hdef
  rw [htest, Bool.eq_false_iff.mpr (mt hmet.mp h)]

/-! ### The states it leaves -/

theorem exec_cmr_met {s : State} {cond : MoveCond} (r a : BitVec 4) {b : BitVec 4} (h : MoveCondHolds cond (s.readGr b)) :
    exec (.cmr r cond a b) s = .next (s.writeGr r (s.readGr a)).advance := by
  simp only [exec_cmr, execCmr, moveTest_of_holds h, conclude_done]

theorem exec_cmr_unmet {s : State} {cond : MoveCond} (r a : BitVec 4) {b : BitVec 4} (h : ¬ MoveCondHolds cond (s.readGr b))
    (hdef : ∀ c, cond ≠ .undefined c) : exec (.cmr r cond a b) s = .next s.advance := by
  simp only [exec_cmr, execCmr, moveTest_of_not_holds h hdef, conclude_done]

theorem exec_cmr_undefined (s : State) (r : BitVec 4) (c : BitVec 3) (a b : BitVec 4) :
    exec (.cmr r (.undefined c) a b) s =
      .next (s.takeTrap (instrTrap .illegalInstruction (encode (.cmr r (.undefined c) a b)))) := by
  rw [exec_cmr, execCmr, moveTest, conclude_trap]

/-! ### The statement -/

/-- Settles O27: a condition that holds moves, one that fails only advances, and a code with no condition is an illegal instruction. -/
theorem cmrMovesOnItsCondition : Obligations.CmrMovesOnItsCondition := by
  refine ⟨fun _ _ _ _ => rfl, rfl, fun s r a b cond => ⟨fun hmet => ?_, fun hunmet hdef => ?_, ?_⟩⟩
  · exact ⟨_, exec_cmr_met r a hmet, readGr_written_advance s r _, ends_writeGr s r _⟩
  · exact ⟨_, exec_cmr_unmet r a hunmet hdef, keeps_advance s, rfl⟩
  · rintro c rfl
    rw [exec_cmr_undefined]
    exact traps_instrTrap s .illegalInstruction _

end Sys2Proof.Machine
end

section
/-! PROOFS. The privileged instructions RFI and MST, which write the status word (45_system_control.md R360, R366, R398). -/

namespace Sys2Proof.Machine

/-! ### The privilege test -/

/-- In user mode an instruction that needs privilege does nothing but take trap 6 (45_system_control.md R360). -/
theorem conclude_needPrivilege_user {s : State} (hx : s.pswX = true) (w : Word) (rest : Unit → Except Stop Done) :
    conclude w s (needPrivilege w s >>= rest) = .next (s.takeTrap (instrTrap .privilegedOperation w)) := by
  rw [needPrivilege_user hx, error_bind, conclude_trap]

/-- In privileged mode the test leaves the rest of the instruction to do. -/
theorem conclude_needPrivilege_privileged {s : State} (hx : s.pswX = false) (w : Word) (rest : Unit → Except Stop Done) :
    conclude w s (needPrivilege w s >>= rest) = conclude w s (rest ()) := by
  rw [needPrivilege_privileged hx, ok_bind]

/-! ### RFI -/

theorem exec_rfi_user {s : State} (hx : s.pswX = true) :
    exec .rfi s = .next (s.takeTrap (instrTrap .privilegedOperation (encode .rfi))) := by
  rw [exec_rfi, execRfi, conclude_needPrivilege_user hx]

theorem exec_rfi_next {s : State} (hx : s.pswX = false) : exec .rfi s = .next s.returnFromTrap := by
  rw [exec_rfi, execRfi, conclude_needPrivilege_privileged hx, conclude_done]

/-- A return from a trap writes PSW-0 and PSW-1 only. -/
theorem keeps_returnFromTrap (s : State) : Keeps (isPsw0 0 31) s s.returnFromTrap := by
  intro p hc hp
  cases p with
  | psw0 n => exact absurd ⟨n, by omega, by omega, rfl⟩ hc
  | psw1 => exact absurd rfl hp
  | _ => simp [samePart]

/-- Settles O58: RFI is the return from a trap, behind the privilege test. -/
theorem returnFromInterruptResult : Obligations.ReturnFromInterruptResult := by
  refine ⟨rfl, fun s => ⟨fun hx => ?_, fun hx => ?_⟩⟩
  · rw [exec_rfi_user hx]
    exact traps_instrTrap s .privilegedOperation _
  · exact ⟨_, exec_rfi_next hx, State.returnFromTrap_psw0 s, State.returnFromTrap_psw1 s, keeps_returnFromTrap s⟩

/-! ### MST -/

/-- What a completed MST leaves: the old Z, D, P, E in `GR[r]` and `m` in their place. -/
def State.swapMask (s : State) (r m : BitVec 4) : State := ((s.writeGr r (s.mask.setWidth 32)).setMask m).advance

theorem exec_mst_user {s : State} (hx : s.pswX = true) (r : BitVec 4) (mode : MstMode) (b : BitVec 4) :
    exec (.mst r mode b) s = .next (s.takeTrap (instrTrap .privilegedOperation (encode (.mst r mode b)))) := by
  rw [exec_mst, execMst, conclude_needPrivilege_user hx]

theorem exec_mst_undefined {s : State} (hx : s.pswX = false) (r b : BitVec 4) :
    exec (.mst r .undefined b) s = .next (s.takeTrap (instrTrap .illegalInstruction (encode (.mst r .undefined b)))) := by
  rw [exec_mst, execMst, conclude_needPrivilege_privileged hx, State.newMask, conclude_trap]

theorem exec_mst_next {s : State} (hx : s.pswX = false) (r : BitVec 4) {mode : MstMode} {b m : BitVec 4}
    (hm : s.newMask mode b = some m) : exec (.mst r mode b) s = .next (s.swapMask r m) := by
  simp only [exec_mst, execMst, conclude_needPrivilege_privileged hx, hm, conclude_done, State.swapMask]

/-- Every mode but mode 3 has new bits. -/
theorem newMask_of_defined (s : State) {mode : MstMode} (b : BitVec 4) (hdef : mode ≠ .undefined) :
    ∃ m, s.newMask mode b = some m := by
  cases mode with
  | undefined => exact absurd rfl hdef
  | write | set | clear => exact ⟨_, rfl⟩

theorem readGr_swapMask (s : State) (r m : BitVec 4) : (s.swapMask r m).readGr r = written r (s.mask.setWidth 32) := by
  rw [State.swapMask, readGr_advance, readGr_setMask, readGr_written]

theorem mask_swapMask (s : State) (r m : BitVec 4) : field (s.swapMask r m).psw0 12 4 = m := by
  rw [State.swapMask, State.advance_psw0, mask_setMask]

/-- MST writes `GR[r]` and PSW-0 bits 12 to 15 and goes to the next instruction. -/
theorem ends_swapMask (s : State) (r m : BitVec 4) : Ends (fun p => isGr r p ∨ isPsw0 12 15 p) s (s.swapMask r m) := by
  have hgr := keeps_writeGr s r (s.mask.setWidth 32)
  have hmask := keeps_setMask (s.writeGr r (s.mask.setWidth 32)) m
  have hpc := keeps_advance ((s.writeGr r (s.mask.setWidth 32)).setMask m)
  exact ⟨((hgr.mono fun _ h => .inl h).trans (hmask.mono fun _ h => .inr h)).trans (hpc.mono fun _ h => h.elim), rfl⟩

/-- Settles O51: MST swaps the four bits for the mode's new ones, behind the privilege test; mode 3 has none to swap. -/
theorem moveStatusResult : Obligations.MoveStatusResult := by
  refine ⟨fun _ _ _ => rfl, rfl, fun s r b mode => ⟨fun hx => ?_, ?_, fun hx hdef => ?_⟩⟩
  · rw [exec_mst_user hx]
    exact traps_instrTrap s .privilegedOperation _
  · rintro hx rfl
    rw [exec_mst_undefined hx]
    exact traps_instrTrap s .illegalInstruction _
  · obtain ⟨m, hm⟩ := newMask_of_defined s b hdef
    refine ⟨_, exec_mst_next hx r hm, ends_swapMask s r m, readGr_swapMask s r m, ?_⟩
    rw [mask_swapMask]
    refine ⟨?_, ?_, ?_⟩
    all_goals
      rintro rfl
      exact (Option.some.inj hm).symm

end Sys2Proof.Machine
end

section
/-! PROOFS. Decoding and encoding (30_encoding.md R142, R143, R160, R163): each gives back what the other took. -/

namespace Sys2Proof.Machine

/-! ### The fields of an operand-format and of a MEM-format word, one by one -/

section
variable (opcode : BitVec 6) (r : BitVec 4) (opt : BitVec 2) (op : Operand) (x y : Bool)

@[simp] theorem opcode_encodeOpr : field (encodeOpr opcode r opt op) 0 6 = opcode := (encodeOpr_fields opcode r opt op).1
@[simp] theorem r_encodeOpr : field (encodeOpr opcode r opt op) 6 4 = r := (encodeOpr_fields opcode r opt op).2.1
@[simp] theorem opt_encodeOpr : field (encodeOpr opcode r opt op) 10 2 = opt := (encodeOpr_fields opcode r opt op).2.2.1
@[simp] theorem decodeOperand_encodeOpr : decodeOperand (encodeOpr opcode r opt op) = (op, true) :=
  (encodeOpr_fields opcode r opt op).2.2.2
@[simp] theorem flag_ten_encodeOpr : flag (encodeOpr opcode r (optBits x y) op) 10 = x := (encodeOpr_flags opcode r x y op).1
@[simp] theorem flag_eleven_encodeOpr : flag (encodeOpr opcode r (optBits x y) op) 11 = y := (encodeOpr_flags opcode r x y op).2
end

section
variable (opcode : BitVec 6) (r : BitVec 4) (optM : Bool) (seg dw : BitVec 2) (disp : Disp) (b : BitVec 4)

@[simp] theorem opcode_encodeMem : field (encodeMem opcode r optM seg dw disp b) 0 6 = opcode :=
  (encodeMem_fields opcode r optM seg dw disp b).1
@[simp] theorem r_encodeMem : field (encodeMem opcode r optM seg dw disp b) 6 4 = r :=
  (encodeMem_fields opcode r optM seg dw disp b).2.1
@[simp] theorem optM_encodeMem : flag (encodeMem opcode r optM seg dw disp b) 11 = optM :=
  (encodeMem_fields opcode r optM seg dw disp b).2.2.1
@[simp] theorem seg_encodeMem : field (encodeMem opcode r optM seg dw disp b) 12 2 = seg :=
  (encodeMem_fields opcode r optM seg dw disp b).2.2.2.1
@[simp] theorem dw_encodeMem : field (encodeMem opcode r optM seg dw disp b) 14 2 = dw :=
  (encodeMem_fields opcode r optM seg dw disp b).2.2.2.2.1
@[simp] theorem b_encodeMem : field (encodeMem opcode r optM seg dw disp b) 28 4 = b :=
  (encodeMem_fields opcode r optM seg dw disp b).2.2.2.2.2
end

/-! ### Neighbouring fields -/

/-- Two neighbouring fields of a word are one field. -/
theorem field_append_field (w : Word) {i n m : Nat} (h : i + n + m ≤ 32) :
    field w i n ++ field w (i + n) m = field w i (n + m) := by
  apply BitVec.eq_of_getLsbD_eq
  intro j hj
  rw [BitVec.getLsbD_append, getLsbD_field, getLsbD_field, getLsbD_field, decide_eq_true hj]
  by_cases hjm : j < m
  · rw [if_pos hjm, decide_eq_true hjm, show 32 - (i + n) - m + j = 32 - i - (n + m) + j by omega]
  · rw [if_neg hjm, decide_eq_true (by omega : j - m < n), show 32 - i - n + (j - m) = 32 - i - (n + m) + j by omega]

/-- Option A of DSR and the zero beside it are what the decoder takes them for (30_encoding.md R147). -/
theorem dsrOption_eq_iff {w : Word} {optA : Bool} : dsrOption w = (optA, true) ↔ dsrOptionBits optA = field w 10 2 := by
  have hpair : field w 10 2 = field w 10 1 ++ field w 11 1 := (field_append_field w (i := 10) (n := 1) (m := 1) (by decide)).symm
  rw [hpair]
  unfold dsrOption dsrOptionBits Config.dsrABit flag
  dsimp only
  generalize field w 10 1 = x
  generalize field w 11 1 = y
  revert x y optA
  decide

/-! ### From an instruction to its word and back -/

/-- Settles O1: the word of each format gives back the fields it was put together from. -/
theorem decodeEncodeRoundTrip : Obligations.DecodeEncodeRoundTrip := by
  intro i hwf
  cases i with
  | brk | ldil | addil | ldo | lsid | extr | dep | shla | ds | b | gate | br | bv | be | bve | ldr | stc | ldpa | prb | itlb | ptlb
  | pca | diag | rfi =>
    simp (disch := decide) only [decode, checked, encode, flag, field, BitVec.extractLsb'_append_eq_of_le,
      BitVec.extractLsb'_append_eq_of_add_le, Nat.reduceSub, BitVec.extractLsb'_eq_self, ofBool_beq_one] <;> rfl
  | cmr | cbr | cbru | mst =>
    simp (disch := decide) only [decode, checked, encode, field, BitVec.extractLsb'_append_eq_of_le,
      BitVec.extractLsb'_append_eq_of_add_le, Nat.reduceSub, BitVec.extractLsb'_eq_self, MoveCond.ofBits_toBits,
      Cond.ofBits_toBits, MstMode.ofBits_toBits] <;> rfl
  | dsr r optA shamt a b =>
    have hA : dsrOption (encode (.dsr r optA shamt a b)) = (optA, true) := dsrOption_eq_iff.mpr (by
      simp (disch := decide) only [encode, field, BitVec.extractLsb'_append_eq_of_le, BitVec.extractLsb'_append_eq_of_add_le,
        Nat.reduceSub, BitVec.extractLsb'_eq_self])
    rw [decode, hA]
    simp (disch := decide) only [encode, field, BitVec.extractLsb'_append_eq_of_le,
      BitVec.extractLsb'_append_eq_of_add_le, Nat.reduceSub, BitVec.extractLsb'_eq_self]
    rfl
  | mr r optD optM num =>
    have hnum : mrNumberOk optM num = true := hwf
    simp (disch := decide) only [decode, checked, encode, flag, field, BitVec.extractLsb'_append_eq_of_le,
      BitVec.extractLsb'_append_eq_of_add_le, Nat.reduceSub, BitVec.extractLsb'_eq_self, ofBool_beq_one, hnum]
    rfl
  | add | adc | sub | sbc | and | or | xor | cmp | cmpu =>
    simp only [encode, decode, opcode_encodeOpr, r_encodeOpr, opt_encodeOpr, flag_ten_encodeOpr, flag_eleven_encodeOpr,
      decodeOperand_encodeOpr, Cond.ofBits_toBits]
    rfl
  | ld | st | lda | sta =>
    simp only [encode, decode, opcode_encodeMem, r_encodeMem, optM_encodeMem, field_seg_dw, seg_encodeMem, dw_encodeMem,
      b_encodeMem, decodeDisp_encodeMem, Width.ofBits_toBits]
    rfl

end Sys2Proof.Machine
end

section
/-! PROOFS. No word that decodes loses a bit (30_encoding.md R142, R162, R163): the fields of its drawing, the reserved ones among
them, make up the word again. -/

namespace Sys2Proof.Machine

/-! ### The fields of each drawing, by their widths, make up the word (R142) -/

/-- Two neighbouring fields of a word, whatever numerals say that they are neighbours. -/
theorem field_append_next (w : Word) {i n j m : Nat} (hj : j = i + n) (h : i + n + m ≤ 32) :
    field w i n ++ field w j m = field w i (n + m) := by
  subst hj; exact field_append_field w h

/-- All 32 bits of a word are the word. -/
theorem field_zero_word (w : Word) : field w 0 32 = w := BitVec.extractLsb'_eq_self

theorem fields_6_4_6_16 (w : Word) : field w 0 6 ++ field w 6 4 ++ field w 10 6 ++ field w 16 16 = w := by
  simp (disch := decide) only [field_append_next]
  exact field_zero_word w

theorem fields_6_4_22 (w : Word) : field w 0 6 ++ field w 6 4 ++ field w 10 22 = w := by
  simp (disch := decide) only [field_append_next]
  exact field_zero_word w

theorem fields_6_4_18_4 (w : Word) : field w 0 6 ++ field w 6 4 ++ field w 10 18 ++ field w 28 4 = w := by
  simp (disch := decide) only [field_append_next]
  exact field_zero_word w

theorem fields_6_4_1_1_5_5_1_5_4 (w : Word) :
    field w 0 6 ++ field w 6 4 ++ field w 10 1 ++ field w 11 1 ++ field w 12 5 ++ field w 17 5 ++ field w 22 1 ++ field w 23 5 ++
      field w 28 4 = w := by
  simp (disch := decide) only [field_append_next]
  exact field_zero_word w

theorem fields_6_4_1_1_1_4_5_1_5_4 (w : Word) :
    field w 0 6 ++ field w 6 4 ++ field w 10 1 ++ field w 11 1 ++ field w 12 1 ++ field w 13 4 ++ field w 17 5 ++ field w 22 1 ++
      field w 23 5 ++ field w 28 4 = w := by
  simp (disch := decide) only [field_append_next]
  exact field_zero_word w

theorem fields_6_4_2_5_5_2_4_4 (w : Word) :
    field w 0 6 ++ field w 6 4 ++ field w 10 2 ++ field w 12 5 ++ field w 17 5 ++ field w 22 2 ++ field w 24 4 ++ field w 28 4 = w := by
  simp (disch := decide) only [field_append_next]
  exact field_zero_word w

theorem fields_6_4_1_1_8_2_2_4_4 (w : Word) :
    field w 0 6 ++ field w 6 4 ++ field w 10 1 ++ field w 11 1 ++ field w 12 8 ++ field w 20 2 ++ field w 22 2 ++ field w 24 4 ++
      field w 28 4 = w := by
  simp (disch := decide) only [field_append_next]
  exact field_zero_word w

theorem fields_6_4_4_10_4_4 (w : Word) :
    field w 0 6 ++ field w 6 4 ++ field w 10 4 ++ field w 14 10 ++ field w 24 4 ++ field w 28 4 = w := by
  simp (disch := decide) only [field_append_next]
  exact field_zero_word w

theorem fields_6_4_1_1_14_6 (w : Word) :
    field w 0 6 ++ field w 6 4 ++ field w 10 1 ++ field w 11 1 ++ field w 12 14 ++ field w 26 6 = w := by
  simp (disch := decide) only [field_append_next]
  exact field_zero_word w

theorem fields_6_4_2_16_4 (w : Word) : field w 0 6 ++ field w 6 4 ++ field w 10 2 ++ field w 12 16 ++ field w 28 4 = w := by
  simp (disch := decide) only [field_append_next]
  exact field_zero_word w

theorem fields_6_4_14_4_4 (w : Word) : field w 0 6 ++ field w 6 4 ++ field w 10 14 ++ field w 24 4 ++ field w 28 4 = w := by
  simp (disch := decide) only [field_append_next]
  exact field_zero_word w

theorem fields_6_4_2_20 (w : Word) : field w 0 6 ++ field w 6 4 ++ field w 10 2 ++ field w 12 20 = w := by
  simp (disch := decide) only [field_append_next]
  exact field_zero_word w

theorem fields_6_2_16_4_4 (w : Word) : field w 0 6 ++ field w 6 2 ++ field w 8 16 ++ field w 24 4 ++ field w 28 4 = w := by
  simp (disch := decide) only [field_append_next]
  exact field_zero_word w

theorem fields_6_4_1_1_2_2_12_4 (w : Word) :
    field w 0 6 ++ field w 6 4 ++ field w 10 1 ++ field w 11 1 ++ field w 12 2 ++ field w 14 2 ++ field w 16 12 ++ field w 28 4 = w := by
  simp (disch := decide) only [field_append_next]
  exact field_zero_word w

theorem fields_6_4_2_2_2_12_4 (w : Word) :
    field w 0 6 ++ field w 6 4 ++ field w 10 2 ++ field w 12 2 ++ field w 14 2 ++ field w 16 12 ++ field w 28 4 = w := by
  simp (disch := decide) only [field_append_next]
  exact field_zero_word w

theorem fields_6_4_2_2_10_4_4 (w : Word) :
    field w 0 6 ++ field w 6 4 ++ field w 10 2 ++ field w 12 2 ++ field w 14 10 ++ field w 24 4 ++ field w 28 4 = w := by
  simp (disch := decide) only [field_append_next]
  exact field_zero_word w

theorem fields_6_4_1_1_2_10_4_4 (w : Word) :
    field w 0 6 ++ field w 6 4 ++ field w 10 1 ++ field w 11 1 ++ field w 12 2 ++ field w 14 10 ++ field w 24 4 ++ field w 28 4 = w := by
  simp (disch := decide) only [field_append_next]
  exact field_zero_word w

theorem fields_6_4_1_13_4_4 (w : Word) :
    field w 0 6 ++ field w 6 4 ++ field w 10 1 ++ field w 11 13 ++ field w 24 4 ++ field w 28 4 = w := by
  simp (disch := decide) only [field_append_next]
  exact field_zero_word w

theorem fields_6_4_1_1_2_1_9_4_4 (w : Word) :
    field w 0 6 ++ field w 6 4 ++ field w 10 1 ++ field w 11 1 ++ field w 12 2 ++ field w 14 1 ++ field w 15 9 ++ field w 24 4 ++
      field w 28 4 = w := by
  simp (disch := decide) only [field_append_next]
  exact field_zero_word w

theorem fields_6_26 (w : Word) : field w 0 6 ++ field w 6 26 = w := by
  simp (disch := decide) only [field_append_next]
  exact field_zero_word w

/-! ### Sub-codes, options and operands -/

/-- An operand whose zero field is zero keeps every bit of the word from bit 12 on (30_encoding.md R143). -/
theorem encodeOperand_decodeOperand {w : Word} (hzero : (decodeOperand w).2 = true) :
    encodeOperand (decodeOperand w).1 = field w 12 20 := by
  unfold decodeOperand at hzero ⊢
  split at hzero
  · next hmode =>
    have h : field w 12 2 ++ field w 14 18 = field w 12 20 := field_append_next w rfl (by decide)
    rwa [hmode] at h
  · next hmode =>
    have h : field w 12 2 ++ field w 14 10 ++ field w 24 4 ++ field w 28 4 = field w 12 20 := by
      simp (disch := decide) only [field_append_next]
    rwa [hmode, beq_iff_eq.mp hzero] at h
  · next hmode =>
    have h : field w 12 2 ++ field w 14 2 ++ field w 16 8 ++ field w 24 4 ++ field w 28 4 = field w 12 20 := by
      simp (disch := decide) only [field_append_next]
    rw [hmode, beq_iff_eq.mp hzero] at h
    rw [encodeOperand, Width.toBits_ofBits, h]
  · next hmode0 hmode1 hmode2 =>
    have hmode : field w 12 2 = 3#2 := by revert hmode0 hmode1 hmode2; generalize field w 12 2 = x; revert x; decide
    have h : field w 12 2 ++ field w 14 2 ++ field w 16 12 ++ field w 28 4 = field w 12 20 := by
      simp (disch := decide) only [field_append_next]
    rw [hmode] at h
    rw [encodeOperand, Width.toBits_ofBits, h]

/-- A bit that is not one is zero. -/
theorem eq_zero_of_ne_one {x : BitVec 1} (h : ¬ (x == 1#1) = true) : x = 0#1 := by revert x; decide

/-- A displacement whose zero field is zero keeps bits 10 and 16 to 27 of the word (R142). -/
theorem decodeDisp_bits {w : Word} (hzero : (decodeDisp w).2 = true) :
    (decodeDisp w).1.indexBit = field w 10 1 ∧ (decodeDisp w).1.bits = field w 16 12 := by
  unfold decodeDisp flag at hzero ⊢
  by_cases hX : (field w 10 1 == 1#1) = true
  · rw [if_pos hX] at hzero ⊢
    have h : field w 16 8 ++ field w 24 4 = field w 16 12 := field_append_next w rfl (by decide)
    rw [beq_iff_eq.mp hzero] at h
    exact ⟨(beq_iff_eq.mp hX).symm, h⟩
  · rw [if_neg hX]
    exact ⟨(eq_zero_of_ne_one hX).symm, rfl⟩

theorem and_beq_iff {n m : Nat} (a b : BitVec n) (c d : BitVec m) : (a == b && c == d) = true ↔ a = b ∧ c = d := by
  rw [Bool.and_eq_true, beq_iff_eq, beq_iff_eq]

theorem optBits_flag (w : Word) : optBits (flag w 10) (flag w 11) = field w 10 2 := by
  rw [optBits, ofBool_flag, ofBool_flag, field_append_next w rfl (by decide)]

/-- An operand-format word is put together again from its opcode, `r`, option bits and operand (R143, R144). -/
theorem encodeOpr_eq {w : Word} {opcode : BitVec 6} {opt : BitVec 2} (hop : field w 0 6 = opcode) (hzero : (decodeOperand w).2 = true)
    (hopt : opt = field w 10 2) : encodeOpr opcode (field w 6 4) opt (decodeOperand w).1 = w := by
  rw [encodeOpr, encodeOperand_decodeOperand hzero, hopt, ← hop]
  exact fields_6_4_2_20 w

/-- A MEM-format word is put together again from its opcode, `r`, M, `seg`, `dw`, displacement and `b` (R142). -/
theorem encodeMem_eq {w : Word} {opcode : BitVec 6} {seg dw : BitVec 2} (hop : field w 0 6 = opcode) (hzero : (decodeDisp w).2 = true)
    (hseg : seg = field w 12 2) (hdw : dw = field w 14 2) :
    encodeMem opcode (field w 6 4) (flag w 11) seg dw (decodeDisp w).1 (field w 28 4) = w := by
  obtain ⟨hX, hbits⟩ := decodeDisp_bits hzero
  rw [encodeMem, hX, hbits, ofBool_flag, hseg, hdw, ← hop]
  exact fields_6_4_1_1_2_2_12_4 w

theorem seg_dw_of_word {seg dw : BitVec 2} (h : seg ++ dw = 2#4) : seg = 0#2 ∧ dw = 2#2 := by revert seg dw; decide

/-! ### The statements -/

/-- Settles O3: each of the words is decoded. -/
theorem specWordsDecode : Obligations.SpecWordsDecode := by
  refine ⟨?_, ?_, ?_, ?_, ?_, ?_, ?_⟩ <;> decide

/-- Behind a test of reserved fields, only the words that pass it have to be looked at. -/
theorem encode_of_checked {w : Word} {ok : Bool} {i j : Instr} (h : checked ok j = .ok i)
    (hj : ok = true → encode j = w ∧ j.wellFormed = true) : encode i = w ∧ i.wellFormed = true := by
  obtain ⟨hok, rfl⟩ := checked_ok.mp h
  exact hj hok

/-- LDA and STA are MEM-format words with one code in the place of `seg` and `dw`. -/
theorem encodeMem_absolute_eq {w : Word} {opcode : BitVec 6} (hop : field w 0 6 = opcode)
    (h : (field w 12 4 == 2#4 && (decodeDisp w).2) = true) :
    encodeMem opcode (field w 6 4) (flag w 11) 0#2 2#2 (decodeDisp w).1 (field w 28 4) = w := by
  rw [Bool.and_eq_true, beq_iff_eq, field_seg_dw] at h
  obtain ⟨hcode, hzero⟩ := h
  obtain ⟨hseg, hdw⟩ := seg_dw_of_word hcode
  exact encodeMem_eq hop hzero hseg.symm hdw.symm

/-- Settles O2: each opcode's reserved fields are as drawn, so the fields of its drawing are the word. -/
theorem encodeOfDecodeIsTheWord : Obligations.EncodeOfDecodeIsTheWord := by
  intro w i h
  unfold decode at h
  split at h
  · next hop =>
    refine encode_of_checked h fun hfixed => ⟨?_, rfl⟩
    simpa only [hop, beq_iff_eq.mp hfixed, encode] using fields_6_4_6_16 w
  · next hop => cases h; exact ⟨by rw [encode, ← hop]; exact fields_6_4_22 w, rfl⟩
  · next hop => cases h; exact ⟨by rw [encode, ← hop]; exact fields_6_4_22 w, rfl⟩
  · next hop => cases h; exact ⟨by rw [encode, ← hop]; exact fields_6_4_18_4 w, rfl⟩
  · next hop =>
    refine encode_of_checked h fun hfixed => ⟨?_, rfl⟩
    simpa only [hop, beq_iff_eq.mp hfixed, encode] using fields_6_4_18_4 w
  · next hop =>
    refine encode_of_checked h fun hfixed => ⟨?_, rfl⟩
    simpa only [hop, (and_beq_iff _ _ _ _).mp hfixed, encode, ofBool_flag] using fields_6_4_1_1_5_5_1_5_4 w
  · next hop =>
    refine encode_of_checked h fun hfixed => ⟨?_, rfl⟩
    simpa only [hop, (and_beq_iff _ _ _ _).mp hfixed, encode, ofBool_flag] using fields_6_4_1_1_1_4_5_1_5_4 w
  · next hop =>
    obtain ⟨hfixed, rfl⟩ := checked_ok.mp h
    rw [Bool.and_assoc, Bool.and_eq_true, and_beq_iff] at hfixed
    obtain ⟨hoption, hzero, hzero'⟩ := hfixed
    have hw := fields_6_4_2_5_5_2_4_4 w
    rw [hop, hzero, hzero', ← dsrOption_eq_iff.mp (Prod.ext rfl hoption)] at hw
    exact ⟨hw, rfl⟩
  · next hop =>
    refine encode_of_checked h fun hfixed => ⟨?_, rfl⟩
    simpa only [hop, (and_beq_iff _ _ _ _).mp hfixed, encode, ofBool_flag] using fields_6_4_1_1_8_2_2_4_4 w
  · next hop =>
    refine encode_of_checked h fun hfixed => ⟨?_, rfl⟩
    simpa only [hop, beq_iff_eq.mp hfixed, encode, MoveCond.toBits_ofBits] using fields_6_4_4_10_4_4 w
  · next hop =>
    obtain ⟨hfixed, rfl⟩ := checked_ok.mp h
    rw [Bool.and_eq_true, beq_iff_eq] at hfixed
    obtain ⟨hzero, hnum⟩ := hfixed
    have hw := fields_6_4_1_1_14_6 w
    rw [hop, hzero] at hw
    exact ⟨by simpa only [encode, ofBool_flag] using hw, hnum⟩
  · next hop =>
    refine encode_of_checked h fun hfixed => ⟨?_, rfl⟩
    simpa only [hop, beq_iff_eq.mp hfixed, encode, MstMode.toBits_ofBits] using fields_6_4_2_16_4 w
  · next hop =>
    refine encode_of_checked h fun hfixed => ⟨?_, rfl⟩
    simpa only [hop, beq_iff_eq.mp hfixed, encode] using fields_6_4_14_4_4 w
  · next hop => exact encode_of_checked h fun hzero => ⟨encodeOpr_eq hop hzero (optBits_flag w), rfl⟩
  · next hop => exact encode_of_checked h fun hzero => ⟨encodeOpr_eq hop hzero (optBits_flag w), rfl⟩
  · next hop => exact encode_of_checked h fun hzero => ⟨encodeOpr_eq hop hzero (optBits_flag w), rfl⟩
  · next hop => exact encode_of_checked h fun hzero => ⟨encodeOpr_eq hop hzero (optBits_flag w), rfl⟩
  · next hop => exact encode_of_checked h fun hzero => ⟨encodeOpr_eq hop hzero (optBits_flag w), rfl⟩
  · next hop => exact encode_of_checked h fun hzero => ⟨encodeOpr_eq hop hzero (optBits_flag w), rfl⟩
  · next hop =>
    obtain ⟨hfixed, rfl⟩ := checked_ok.mp h
    rw [Bool.and_eq_true, Bool.not_eq_true'] at hfixed
    obtain ⟨hoption, hzero⟩ := hfixed
    exact ⟨encodeOpr_eq hop hzero (hoption ▸ optBits_flag w), rfl⟩
  · next hop => exact encode_of_checked h fun hzero => ⟨encodeOpr_eq hop hzero (Cond.toBits_ofBits _), rfl⟩
  · next hop => exact encode_of_checked h fun hzero => ⟨encodeOpr_eq hop hzero (Cond.toBits_ofBits _), rfl⟩
  · next hop => cases h; exact ⟨by rw [encode, ← hop]; exact fields_6_4_22 w, rfl⟩
  · next hop => cases h; exact ⟨by rw [encode, ← hop]; exact fields_6_4_22 w, rfl⟩
  · next hop =>
    refine encode_of_checked h fun hfixed => ⟨?_, rfl⟩
    simpa only [hop, beq_iff_eq.mp hfixed, encode] using fields_6_4_18_4 w
  · next hop =>
    refine encode_of_checked h fun hfixed => ⟨?_, rfl⟩
    simpa only [hop, beq_iff_eq.mp hfixed, encode] using fields_6_4_18_4 w
  · next hop => cases h; exact ⟨by rw [encode, ← hop]; exact fields_6_4_14_4_4 w, rfl⟩
  · next hop =>
    refine encode_of_checked h fun hfixed => ⟨?_, rfl⟩
    simpa only [hop, beq_iff_eq.mp hfixed, encode] using fields_6_4_14_4_4 w
  · next hop => cases h; exact ⟨by rw [encode, Cond.toBits_ofBits, ← hop]; exact fields_6_2_16_4_4 w, rfl⟩
  · next hop => cases h; exact ⟨by rw [encode, Cond.toBits_ofBits, ← hop]; exact fields_6_2_16_4_4 w, rfl⟩
  · next hop => exact encode_of_checked h fun hzero => ⟨encodeMem_eq hop hzero rfl (Width.toBits_ofBits _), rfl⟩
  · next hop => exact encode_of_checked h fun hzero => ⟨encodeMem_eq hop hzero rfl (Width.toBits_ofBits _), rfl⟩
  · next hop => exact encode_of_checked h fun hfixed => ⟨encodeMem_absolute_eq hop hfixed, rfl⟩
  · next hop => exact encode_of_checked h fun hfixed => ⟨encodeMem_absolute_eq hop hfixed, rfl⟩
  · next hop =>
    refine encode_of_checked h fun hfixed => ⟨?_, rfl⟩
    simpa only [hop, (and_beq_iff _ _ _ _).mp hfixed, encode] using fields_6_4_2_2_2_12_4 w
  · next hop =>
    refine encode_of_checked h fun hfixed => ⟨?_, rfl⟩
    simpa only [hop, (and_beq_iff _ _ _ _).mp hfixed, encode] using fields_6_4_2_2_2_12_4 w
  · next hop =>
    refine encode_of_checked h fun hfixed => ⟨?_, rfl⟩
    simpa only [hop, (and_beq_iff _ _ _ _).mp hfixed, encode] using fields_6_4_2_2_10_4_4 w
  · next hop =>
    refine encode_of_checked h fun hfixed => ⟨?_, rfl⟩
    simpa only [hop, beq_iff_eq.mp hfixed, encode, ofBool_flag] using fields_6_4_1_1_2_10_4_4 w
  · next hop =>
    refine encode_of_checked h fun hfixed => ⟨?_, rfl⟩
    simpa only [hop, beq_iff_eq.mp hfixed, encode, ofBool_flag] using fields_6_4_1_13_4_4 w
  · next hop =>
    refine encode_of_checked h fun hfixed => ⟨?_, rfl⟩
    simpa only [hop, (and_beq_iff _ _ _ _).mp hfixed, encode, ofBool_flag] using fields_6_4_1_1_2_10_4_4 w
  · next hop =>
    refine encode_of_checked h fun hfixed => ⟨?_, rfl⟩
    simpa only [hop, (and_beq_iff _ _ _ _).mp hfixed, encode, ofBool_flag] using fields_6_4_1_1_2_1_9_4_4 w
  · next hop =>
    refine encode_of_checked h fun hfixed => ⟨?_, rfl⟩
    simpa only [hop, beq_iff_eq.mp hfixed, encode] using fields_6_4_4_10_4_4 w
  · next hop =>
    refine encode_of_checked h fun hfixed => ⟨?_, rfl⟩
    simpa only [hop, beq_iff_eq.mp hfixed, encode] using fields_6_26 w
  · cases h

/-! ### Words that do not decode -/

theorem checked_ne_unassigned (ok : Bool) (i : Instr) : checked ok i ≠ .error .unassignedOpcode := by cases ok <;> simp [checked]

/-- The decoder has no drawing for exactly the opcodes that R162 lists. -/
theorem decode_eq_unassigned_iff (w : Word) :
    decode w = .error .unassignedOpcode ↔ unassignedOpcode (field w 0 6).toNat := by
  unfold decode
  generalize field w 0 6 = opcode
  split
  case h_44 =>
    refine iff_of_true rfl ?_
    unfold unassignedOpcode
    simp only [imp_false] at *
    bv_omega
  all_goals exact iff_of_false (by simp [checked_ne_unassigned]) (by simp [unassignedOpcode])

end Sys2Proof.Machine
end

section
/-! PROOFS. The invariant: each named update keeps it, so every completed instruction, trap entry and step does (10_state.md R21, R31,
R49, 20_memory.md R98, R110, R114, 40_memory_reference.md R221). -/

namespace Sys2Proof.Machine

/-! ### The named updates -/

section
variable {s : State} (h : s.Inv)
include h

theorem State.Inv.writeGr (r : BitVec 4) (v : Word) : (s.writeGr r v).Inv :=
  { h with
    gr0 := by
      rw [State.writeGr_gr]
      split
      · exact h.gr0
      · next hr =>
        have hr0 : r.toNat ≠ 0 := fun e => hr (BitVec.eq_of_toNat_eq e)
        rw [Vector.getElem_set_ne _ _ hr0]
        exact h.gr0 }

theorem State.Inv.writeSr (n : BitVec 3) (v : SegId) : (s.writeSr n v).Inv := { h with }

theorem State.Inv.writeCr (n : BitVec 5) (v : Word) : (s.writeCr n v).Inv :=
  { h with
    shamt := by
      rw [readCr_writeCr]
      split
      · next hn =>
        subst hn
        rw [if_pos rfl, BitVec.toNat_and]
        exact lt_of_le_of_lt Nat.and_le_right (by decide)
      · exact h.shamt }

/-- The status word is free. -/
theorem State.Inv.withStatus (w : Word) : State.Inv { s with psw0 := w } := { h with }

theorem State.Inv.setPc (t : Word) : (s.setPc t).Inv := { h with address := alignOfs_alignOfs t }

theorem State.Inv.advance : s.advance.Inv := h.setPc _

/-- The count of free values taken and the pending events are free. -/
theorem State.Inv.withPending (c : Option Word) (p x : Bool) (k : Nat) :
    State.Inv { s with machineCheck := c, powerFail := p, extPending := x, freeCount := k } := { h with }

theorem State.Inv.takeTrap (t : Trap) : (s.takeTrap t).Inv :=
  { h with
    address := alignOfs_alignOfs _
    shamt := by rw [readCr_takeTrap_other s t (by decide)]; exact h.shamt }

theorem State.Inv.returnFromTrap : s.returnFromTrap.Inv := { h with address := alignOfs_alignOfs _ }

theorem State.Inv.reserve {pa : PAddr} (hpa : pa.toNat % 4 = 0) : (s.reserve pa).Inv := { h with reservation := fun _ => hpa }

theorem State.Inv.dropReservation : s.dropReservation.Inv := { h with reservation := fun hv => nomatch hv }

/-- A store records one aligned word in the histories and can only end the reservation. -/
theorem State.Inv.store (pa : PAddr) (n : Size) (v : Word) : (s.store pa n v).Inv := by
  have hold : (oldWordAt s.mem (wordAddr pa).toNat).addr % 4 = 0 := wordAddr_mod pa
  have hcons : ∀ l : List OldWord, (∀ o ∈ l, o.addr % 4 = 0) →
      ∀ o ∈ (if cached pa then oldWordAt s.mem (wordAddr pa).toNat :: l else l), o.addr % 4 = 0 := by
    intro l hl
    split
    · exact List.forall_mem_cons.mpr ⟨hold, hl⟩
    · exact hl
  exact { h with
    memory := memSetAll_wf _ _ h.memory
    reservation := fun hv => h.reservation (Bool.and_elim_left hv)
    instrHistory := hcons _ h.instrHistory
    dataHistory := hcons _ h.dataHistory }

theorem State.Inv.insertTlb (optT : Bool) {e : TlbEntry} (hv : e.valid = true) (hz : e.breaksSegmentZero = false) :
    (s.insertTlb optT e).Inv := by
  have hid : e.seg = 0 → effectivePpn e.ppn = e.page.setWidth 20 := by simpa [TlbEntry.breaksSegmentZero] using hz
  cases optT with
  | true => exact { h with dtlb := h.dtlb.insert (by decide) _ hv hid }
  | false => exact { h with itlb := h.itlb.insert (by decide) _ hv hid }

theorem State.Inv.purgeTlb (optT : Bool) (seg : SegId) (page : Page) : (s.purgeTlb optT seg page).Inv := by
  cases optT with
  | true => exact { h with dtlb := h.dtlb.purge seg page }
  | false => exact { h with itlb := h.itlb.purge seg page }

theorem State.Inv.flushDataLine (pa : PAddr) : (s.flushDataLine pa).Inv :=
  { h with dataHistory := fun o ho => h.dataHistory o (List.mem_of_mem_filter ho) }

theorem State.Inv.purgeInstrLine (pa : PAddr) : (s.purgeInstrLine pa).Inv :=
  { h with
    instrHistory := fun o ho => (Machine.purgeInstrLine_iOld s pa o ho).elim (h.dataHistory o) (fun hi => h.instrHistory o hi.1) }

/-- A purge without flush reverts bytes of memory and remembers words of the histories; the rest stays. -/
theorem State.Inv.purgeDataLine (pa : PAddr) : (s.purgeDataLine pa).Inv := by
  have hmem := (purgeDataLine_memory pa h.memory).1
  obtain ⟨hinstr, hdata⟩ := purgeDataLine_aligned pa h.memory h.instrHistory h.dataHistory
  unfold State.purgeDataLine at *
  obtain ⟨m, i, d, k, heq⟩ := revertWords_frame (s.dirtyWords pa) s
  rw [heq] at hmem hinstr hdata ⊢
  exact { h with memory := hmem, instrHistory := hinstr, dataHistory := hdata }

theorem State.Inv.purgeCache (optT optF : Bool) (pa : PAddr) : (s.purgeCache optT optF pa).Inv := by
  unfold State.purgeCache
  split
  · split
    · exact h.flushDataLine pa
    · exact h.purgeDataLine pa
  · exact h.purgeInstrLine pa

theorem State.Inv.updateBase (old : State) (optM : Bool) (disp : Disp) (b : BitVec 4) : (s.updateBase old optM disp b).Inv := by
  unfold State.updateBase
  split
  · exact h.writeGr b _
  · exact h

theorem State.Inv.branchTo (r : BitVec 4) (link target : Word) : (s.branchTo r link target).Inv := (h.writeGr r link).setPc target

theorem State.Inv.branchExternal (r : BitVec 4) (link : Word) (seg : SegId) (target : Word) :
    (s.branchExternal r link seg target).Inv :=
  (((h.writeSr 0 s.pswSeg).withStatus _).writeGr r link).setPc target

theorem State.Inv.finishLoad (r : BitVec 4) (optM : Bool) (disp : Disp) (b : BitVec 4) (v : Word) :
    (s.finishLoad r optM disp b v).Inv := ((h.updateBase s _ disp b).writeGr r v).advance

/-! ### Instructions and steps -/

theorem State.Inv.moveTo (r : BitVec 4) (optM : Bool) (num : BitVec 6) : (s.moveTo r optM num).Inv := by
  unfold State.moveTo
  split
  · exact h.writeCr _ _
  · exact h.writeSr _ _

/-- Every completed instruction is made of updates that keep the invariant. -/
theorem State.Inv.completed {t : State} {i : Instr} (hc : Completed s t i) : t.Inv := by
  cases i with
  | brk => obtain rfl := hc; exact h.advance
  | ldil | addil | ldo | lsid | extr | dep | dsr | shla | and | or | xor | cmp | cmpu | prb =>
    obtain ⟨v, rfl⟩ := hc; exact (h.writeGr _ v).advance
  | ldpa | diag => obtain ⟨-, v, rfl⟩ := hc; exact (h.writeGr _ v).advance
  | cmr =>
    obtain rfl | ⟨v, rfl⟩ := hc
    · exact h.advance
    · exact (h.writeGr _ v).advance
  | mr r optD optM num =>
    cases optD with
    | true => obtain ⟨-, rfl⟩ := hc; exact (h.moveTo r optM num).advance
    | false => obtain rfl := hc; exact (h.writeGr r _).advance
  | mst => obtain ⟨-, m, rfl⟩ := hc; exact ((h.writeGr _ _).withStatus _).advance
  | ds => exact hc.elim
  | add r optL | adc r optL =>
    obtain ⟨v, c, rfl⟩ := hc
    cases optL with
    | true => exact (h.writeGr r v).advance
    | false => exact ((h.writeGr r v).withStatus _).advance
  | sub | sbc => obtain ⟨v, c, rfl⟩ := hc; exact ((h.writeGr _ v).withStatus _).advance
  | b | br | bv => obtain ⟨link, target, rfl⟩ := hc; exact h.branchTo _ link target
  | gate => obtain ⟨link, target, rfl⟩ := hc; exact (h.withStatus _).branchTo _ link target
  | be | bve => obtain ⟨link, seg, target, rfl⟩ := hc; exact h.branchExternal _ link seg target
  | cbr | cbru => obtain ⟨target, rfl⟩ := hc; exact h.setPc target
  | ld => obtain ⟨v, rfl⟩ := hc; exact h.finishLoad _ _ _ _ v
  | lda => obtain ⟨-, v, rfl⟩ := hc; exact h.finishLoad _ _ _ _ v
  | st => obtain ⟨pa, n, v, rfl⟩ := hc; exact ((h.store pa n v).updateBase s _ _ _).advance
  | sta => obtain ⟨-, pa, n, v, rfl⟩ := hc; exact ((h.store pa n v).updateBase s _ _ _).advance
  | ldr => obtain ⟨pa, v, hpa, rfl⟩ := hc; exact ((h.writeGr _ v).reserve hpa).advance
  | stc =>
    obtain ⟨pa, v, rfl⟩ | rfl := hc
    · exact (((h.store pa .word v).writeGr _ 0).dropReservation).advance
    · exact ((h.writeGr _ 1).dropReservation).advance
  | itlb => obtain ⟨-, e, hv, hz, rfl⟩ := hc; exact (h.insertTlb _ hv hz).advance
  | ptlb => obtain ⟨-, seg, page, rfl⟩ := hc; exact ((h.purgeTlb _ seg page).updateBase s _ _ _).advance
  | pca => obtain ⟨-, pa, rfl⟩ := hc; exact ((h.purgeCache _ _ pa).updateBase s _ _ _).advance
  | rfi => obtain ⟨-, rfl⟩ := hc; exact h.returnFromTrap

theorem State.Inv.exec {t : State} {i : Instr} (hx : exec i s = .next t) : t.Inv := by
  obtain ⟨tr, rfl⟩ | hc := exec_completed hx
  · exact h.takeTrap tr
  · exact h.completed hc
end

/-- What a fetch that answers leaves: the state it began in, but for the status word and the count of free values. -/
theorem fetch_frame {s u : State} {w : Word} (h : fetch s = .ok (w, u)) :
    ∃ (p : Word) (k : Nat), u = { s with psw0 := p, freeCount := k } := by
  have hword : ∀ {v : State} {pa : PAddr}, fetchWord v pa = .ok (w, u) → ∃ k, u = { v with freeCount := k } := by
    intro v pa hv
    obtain ⟨-, -, rfl⟩ := fetchWord_ok hv
    split
    · exact ⟨v.freeCount, rfl⟩
    · exact ⟨_, rfl⟩
  unfold fetch at h
  split at h
  · split at h
    · cases h
    · next e he =>
      obtain ⟨_, -, h⟩ := bind_eq_ok.mp h
      obtain ⟨_, -, h⟩ := bind_eq_ok.mp h
      obtain ⟨_, -, h⟩ := bind_eq_ok.mp h
      obtain ⟨k, rfl⟩ := hword h
      unfold State.demote
      split
      · exact ⟨_, k, rfl⟩
      · exact ⟨s.psw0, k, rfl⟩
  · obtain ⟨k, rfl⟩ := hword h
    exact ⟨s.psw0, k, rfl⟩

/-- Everything a step can do where it answers a next state: an event or the fetch takes a trap, or the fetched word takes trap 5 or is
an instruction that is executed. -/
theorem step_next {s t : State} (h : step s = .next t) :
    (∃ tr u, s.sampleEvent = some (tr, u) ∧ t = u.takeTrap tr) ∨ (∃ tr, t = s.takeTrap tr) ∨
    (∃ w u, fetch s = .ok (w, u) ∧ ((∃ tr, t = u.takeTrap tr) ∨ ∃ i, exec i u = .next t)) := by
  unfold step runStep at h
  split at h
  · cases h
  · split at h
    · next tr u hev => cases h; exact .inl ⟨tr, u, hev, rfl⟩
    · unfold runNext at h
      split at h
      · next w u hf =>
        refine .inr (.inr ⟨w, u, hf, ?_⟩)
        unfold runWord at h
        split at h
        · next i _ => exact .inr ⟨i, h⟩
        · next e _ =>
          cases e with
          | unassignedOpcode => cases h; exact .inl ⟨_, rfl⟩
          | reservedField => cases h
      · next r _ =>
        cases r with
        | trap tr => cases h; exact .inr (.inl ⟨tr, rfl⟩)
        | fault f => cases h
        | refuse r => cases h

/-! ### The statements -/

/-- Settles O10: an event, the fetch and the instruction each keep the invariant. -/
theorem invariantKeptByEveryStep : Obligations.InvariantKeptByEveryStep := by
  intro s t h hstep
  obtain ⟨tr, u, hev, rfl⟩ | ⟨tr, rfl⟩ | ⟨w, u, hf, hrest⟩ := step_next hstep
  · obtain rfl | rfl | rfl := sampleEvent_some hev
    · exact h.takeTrap tr
    · exact (h.withPending none _ _ _).takeTrap tr
    · exact (h.withPending _ false _ _).takeTrap tr
  · exact h.takeTrap tr
  · obtain ⟨p, k, rfl⟩ := fetch_frame hf
    have hu := (h.withStatus p).withPending s.machineCheck s.powerFail s.extPending k
    obtain ⟨tr, rfl⟩ | ⟨i, hi⟩ := hrest
    · exact hu.takeTrap tr
    · exact hu.exec hi

/-- An empty TLB is well formed. -/
theorem TlbWf.nil (capacity : Nat) : TlbWf capacity [] :=
  ⟨Nat.zero_le _, List.forall_mem_nil _, List.nodup_nil, List.forall_mem_nil _⟩

/-- Settles O11: the TLBs, the histories and memory are empty. -/
theorem invariantAtReset : Obligations.InvariantAtReset where
  memory := reset_memory_wf
  gr0 := rfl
  address := by decide
  shamt := by decide
  itlb := TlbWf.nil _
  dtlb := TlbWf.nil _
  reservation := by decide
  instrHistory := List.forall_mem_nil _
  dataHistory := List.forall_mem_nil _

end Sys2Proof.Machine
end

section
/-! PROOFS. What the execution of an instruction may change, for every instruction: the privilege level, the carry/borrow bit, memory,
the protected state (60_exceptions.md R481, R482, 43_computational_operand.md R297, 20_memory.md R132). -/

namespace Sys2Proof.Machine

/-! ### The updates of the TLBs and caches -/

theorem keeps_insertTlb (s : State) (optT : Bool) (e : TlbEntry) :
    Keeps (fun p => p = (if optT then .dtlb else .itlb) ∨ p = .freeValues) s (s.insertTlb optT e) := by
  intro p hc _
  cases optT <;> cases p <;> simp [samePart, State.readGr, State.readSr, State.readCr] at *

theorem keeps_purgeTlb (s : State) (optT : Bool) (seg : SegId) (page : Page) :
    Keeps (fun p => p = (if optT then .dtlb else .itlb)) s (s.purgeTlb optT seg page) := by
  intro p hc _
  cases optT <;> cases p <;> simp [samePart, State.readGr, State.readSr, State.readCr] at *

theorem keeps_flushDataLine (s : State) (pa : PAddr) : Keeps (fun p => p = .dataCache) s (s.flushDataLine pa) := by
  intro p hc _
  cases p <;> simp [samePart, State.readGr, State.readSr, State.readCr] at *

theorem keeps_purgeInstrLine (s : State) (pa : PAddr) : Keeps (fun p => p = .instrCache) s (s.purgeInstrLine pa) := by
  intro p hc _
  cases p <;> simp [samePart, State.readGr, State.readSr, State.readCr] at *

theorem keeps_purgeDataLine (s : State) (pa : PAddr) :
    Keeps (fun p => (∃ x, p = .mem x) ∨ p = .instrCache ∨ p = .dataCache ∨ p = .freeValues) s (s.purgeDataLine pa) := by
  intro p hc _
  obtain ⟨m, i, d, k, heq⟩ := revertWords_frame (s.dirtyWords pa) s
  unfold State.purgeDataLine
  rw [heq]
  cases p <;> simp [samePart, State.readGr, State.readSr, State.readCr] at *

theorem keeps_purgeCache (s : State) (optT optF : Bool) (pa : PAddr) :
    Keeps (fun p => ((optT = false ∨ optF = false) ∧ p = .instrCache) ∨ (optT = true ∧ p = .dataCache) ∨
      (optT = true ∧ optF = false ∧ ((∃ x, p = .mem x) ∨ p = .freeValues))) s (s.purgeCache optT optF pa) := by
  cases optT with
  | false => exact (keeps_purgeInstrLine s pa).mono fun p hp => .inl ⟨.inl rfl, hp⟩
  | true =>
    cases optF with
    | true => exact (keeps_flushDataLine s pa).mono fun p hp => .inr (.inl ⟨rfl, hp⟩)
    | false =>
      refine (keeps_purgeDataLine s pa).mono fun p hp => ?_
      rcases hp with hp | hp | hp | hp
      · exact .inr (.inr ⟨rfl, rfl, .inl hp⟩)
      · exact .inl ⟨.inr rfl, hp⟩
      · exact .inr (.inl ⟨rfl, hp⟩)
      · exact .inr (.inr ⟨rfl, rfl, .inr hp⟩)

theorem keeps_updateBase (s old : State) (optM : Bool) (disp : Disp) (b : BitVec 4) :
    Keeps (fun p => optM = true ∧ isGr b p) s (s.updateBase old optM disp b) := by
  cases optM with
  | false => exact Keeps.refl _ s
  | true => exact (keeps_writeGr s b _).mono fun p hp => ⟨rfl, hp⟩

/-! ### Updates one after the other -/

theorem Keeps.seq {c d : Part → Prop} {s t u : State} (h1 : Keeps c s t) (h2 : Keeps d t u) : Keeps (fun p => c p ∨ d p) s u :=
  (h1.mono fun _ => .inl).trans (h2.mono fun _ => .inr)

theorem Keeps.setPc {c : Part → Prop} {s t : State} (h : Keeps c s t) (w : Word) : Keeps c s (t.setPc w) :=
  h.trans ((keeps_setPc t w).mono fun _ => False.elim)

theorem Keeps.advance {c : Part → Prop} {s t : State} (h : Keeps c s t) : Keeps c s t.advance := h.setPc _

theorem keeps_finishLoad (s : State) (r : BitVec 4) (optM : Bool) (disp : Disp) (b : BitVec 4) (v : Word) :
    Keeps (fun p => isGr r p ∨ (optM = true ∧ isGr b p)) s (s.finishLoad r optM disp b v) :=
  (((keeps_updateBase s s (optM && b != r) disp b).mono fun _ hp => .inr ⟨Bool.and_elim_left hp.1, hp.2⟩).trans
    ((keeps_writeGr _ r v).mono fun _ => .inl)).advance

/-- The parts that a store of width `n` at `pa` may change (20_memory.md R72, R123, 40_memory_reference.md R223). -/
def isStorePart (pa : PAddr) (n : Size) (p : Part) : Prop :=
  (∃ a, inStore pa.toNat n a ∧ p = .mem a) ∨ p = .instrCache ∨ p = .dataCache ∨ p = .reservation

theorem keeps_finishStore (s : State) (pa : PAddr) (n : Size) (v : Word) (optM : Bool) (disp : Disp) (b : BitVec 4) :
    Keeps (fun p => isStorePart pa n p ∨ (optM = true ∧ isGr b p)) s (s.finishStore (s.store pa n v) optM disp b) :=
  ((keeps_store s pa n v).seq (keeps_updateBase _ s optM disp b)).advance

theorem keeps_moveTo (s : State) (r : BitVec 4) (optM : Bool) (num : BitVec 6) :
    Keeps (fun p => p = (if optM then .cr (num.setWidth 5) else .sr (num.setWidth 3))) s (s.moveTo r optM num) := by
  cases optM with
  | true => exact keeps_writeCr s _ _
  | false => exact keeps_writeSr s _ _

/-! ### What a completed instruction may change -/

/-- The parts, beside PSW-1, that an instruction may change when it completes. -/
def mayChange : Instr → Part → Prop
  | .brk .. | .ds .. | .cbr .. | .cbru .. => fun _ => False
  | .ldil r _ | .ldo r _ _ | .lsid r _ | .extr r _ _ _ _ _ | .dep r _ _ _ _ _ _ | .dsr r _ _ _ _ | .shla r _ _ _ _ _ | .cmr r _ _ _
  | .and r _ _ _ | .or r _ _ _ | .xor r _ _ | .cmp r _ _ | .cmpu r _ _ | .b r _ | .br r _ | .bv r _ | .ldpa r _ _ _
  | .prb r _ _ _ _ _ | .diag r _ _ _ => isGr r
  | .addil _ _ => isGr 1
  | .mr r optD optM num =>
      if optD then fun p => p = (if optM then .cr (num.setWidth 5) else .sr (num.setWidth 3)) else isGr r
  | .mst r _ _ => fun p => isGr r p ∨ isPsw0 12 15 p
  | .add r optL _ _ | .adc r optL _ _ => fun p => isGr r p ∨ (optL = false ∧ p = .psw0 5)
  | .sub r _ _ _ | .sbc r _ _ _ => fun p => isGr r p ∨ p = .psw0 5
  | .gate r _ => fun p => p = .psw0 1 ∨ isGr r p
  | .be r _ _ _ | .bve r _ _ => fun p => isGr r p ∨ p = .sr 0 ∨ isPsw0 16 31 p
  | .ld r optM _ _ _ b | .lda r optM _ b => fun p => isGr r p ∨ (optM = true ∧ isGr b p)
  | .st _ optM _ _ _ b | .sta _ optM _ b => fun p => (∃ pa n, isStorePart pa n p) ∨ (optM = true ∧ isGr b p)
  | .ldr r _ _ _ => fun p => isGr r p ∨ p = .reservation
  | .stc r _ _ _ => fun p => ((∃ pa n, isStorePart pa n p) ∨ isGr r p) ∨ p = .reservation
  | .itlb _ optT _ _ => fun p => p = (if optT then .dtlb else .itlb) ∨ p = .freeValues
  | .ptlb optT optM _ _ b => fun p => p = (if optT then .dtlb else .itlb) ∨ (optM = true ∧ isGr b p)
  | .pca optT optM _ optF _ b => fun p =>
      (((optT = false ∨ optF = false) ∧ p = .instrCache) ∨ (optT = true ∧ p = .dataCache) ∨
        (optT = true ∧ optF = false ∧ ((∃ x, p = .mem x) ∨ p = .freeValues))) ∨ (optM = true ∧ isGr b p)
  | .rfi => isPsw0 0 31

/-- A completed instruction changes nothing else. -/
theorem keeps_completed {s t : State} {i : Instr} (hc : Completed s t i) : Keeps (mayChange i) s t := by
  cases i with
  | brk => obtain rfl := hc; exact keeps_advance s
  | ldil | addil | ldo | lsid | extr | dep | dsr | shla | and | or | xor | cmp | cmpu | prb =>
    obtain ⟨v, rfl⟩ := hc; exact (keeps_writeGr s _ v).advance
  | ldpa | diag => obtain ⟨-, v, rfl⟩ := hc; exact (keeps_writeGr s _ v).advance
  | cmr =>
    obtain rfl | ⟨v, rfl⟩ := hc
    · exact (Keeps.refl _ s).advance
    · exact (keeps_writeGr s _ v).advance
  | mr r optD optM num =>
    cases optD with
    | true => obtain ⟨-, rfl⟩ := hc; exact (keeps_moveTo s r optM num).advance
    | false => obtain rfl := hc; exact (keeps_writeGr s r _).advance
  | mst r => obtain ⟨-, m, rfl⟩ := hc; exact ((keeps_writeGr s r _).seq (keeps_setMask _ m)).advance
  | ds => exact hc.elim
  | add r optL | adc r optL =>
    obtain ⟨v, c, rfl⟩ := hc
    cases optL with
    | true => exact ((keeps_writeGr s r v).mono fun _ => .inl).advance
    | false => exact ((keeps_writeGr s r v).seq ((keeps_setCB _ c).mono fun _ hp => ⟨rfl, hp⟩)).advance
  | sub r | sbc r => obtain ⟨v, c, rfl⟩ := hc; exact ((keeps_writeGr s r v).seq (keeps_setCB _ c)).advance
  | b r | br r | bv r => obtain ⟨link, target, rfl⟩ := hc; exact keeps_branchTo s r link target
  | gate r => obtain ⟨link, target, rfl⟩ := hc; exact (keeps_setX s _).seq (keeps_branchTo _ r link target)
  | be r | bve r => obtain ⟨link, seg, target, rfl⟩ := hc; exact keeps_branchExternal s r link seg target
  | cbr | cbru => obtain ⟨target, rfl⟩ := hc; exact keeps_setPc s target
  | ld => obtain ⟨v, rfl⟩ := hc; exact keeps_finishLoad s _ _ _ _ v
  | lda => obtain ⟨-, v, rfl⟩ := hc; exact keeps_finishLoad s _ _ _ _ v
  | st =>
    obtain ⟨pa, n, v, rfl⟩ := hc
    exact (keeps_finishStore s pa n v _ _ _).mono fun _ => Or.imp_left fun hp => ⟨pa, n, hp⟩
  | sta =>
    obtain ⟨-, pa, n, v, rfl⟩ := hc
    exact (keeps_finishStore s pa n v _ _ _).mono fun _ => Or.imp_left fun hp => ⟨pa, n, hp⟩
  | ldr => obtain ⟨pa, v, -, rfl⟩ := hc; exact ((keeps_writeGr s _ v).seq (keeps_reserve _ pa)).advance
  | stc =>
    obtain ⟨pa, v, rfl⟩ | rfl := hc
    · have hstore := (keeps_store s pa .word v).mono (d := fun p => ∃ pa n, isStorePart pa n p) fun _ hp => ⟨pa, .word, hp⟩
      exact ((hstore.seq (keeps_writeGr _ _ 0)).seq (keeps_dropReservation _)).advance
    · exact (((keeps_writeGr s _ 1).mono fun _ => .inr).seq (keeps_dropReservation _)).advance
  | itlb => obtain ⟨-, e, -, -, rfl⟩ := hc; exact (keeps_insertTlb s _ e).advance
  | ptlb => obtain ⟨-, seg, page, rfl⟩ := hc; exact ((keeps_purgeTlb s _ seg page).seq (keeps_updateBase _ s _ _ _)).advance
  | pca => obtain ⟨-, pa, rfl⟩ := hc; exact ((keeps_purgeCache s _ _ pa).seq (keeps_updateBase _ s _ _ _)).advance
  | rfi => obtain ⟨-, rfl⟩ := hc; exact keeps_returnFromTrap s

/-- The execution of an instruction takes a trap or keeps every part that the instruction may not change. -/
theorem exec_keeps {i : Instr} {s t : State} (h : exec i s = .next t) :
    (∃ id p0 p1 p2, TrapEntered s t id p0 p1 p2) ∨ Keeps (mayChange i) s t := by
  obtain ⟨tr, rfl⟩ | hc := exec_completed h
  · exact .inl ⟨_, _, _, _, trapEntered_takeTrap s tr⟩
  · exact .inr (keeps_completed hc)

/-- The status bits an instruction may change: X by GATE, CB by those that write it, Z to E by MST, the segment by BE and BVE, all of
them by RFI. -/
theorem status_of_mayChange {i : Instr} {n : Fin 32} (h : mayChange i (.psw0 n)) :
    (n = 1 ∧ ∃ r ofs, i = .gate r ofs) ∨ (n = 5 ∧ writesCarry i = true) ∨ 12 ≤ n.val ∨ i = .rfi := by
  cases i with
  | gate r ofs =>
    obtain hn | hn := h
    · exact .inl ⟨Part.psw0.inj hn, r, ofs, rfl⟩
    · cases hn
  | add | adc =>
    obtain hn | ⟨hL, hn⟩ := h
    · cases hn
    · exact .inr (.inl ⟨Part.psw0.inj hn, by rw [writesCarry, hL]; rfl⟩)
  | sub | sbc =>
    obtain hn | hn := h
    · cases hn
    · exact .inr (.inl ⟨Part.psw0.inj hn, rfl⟩)
  | mst =>
    obtain hn | ⟨m, hlow, -, hn⟩ := h
    · cases hn
    · cases hn; exact .inr (.inr (.inl hlow))
  | be | bve =>
    obtain hn | hn | ⟨m, hlow, -, hn⟩ := h
    · cases hn
    · cases hn
    · cases hn; exact .inr (.inr (.inl (by omega)))
  | rfi => exact .inr (.inr (.inr rfl))
  | mr r optD optM num => cases optD <;> cases optM <;> simp [mayChange, isGr] at h
  | itlb r optT a b => cases optT <;> simp [mayChange] at h
  | ptlb optT optM seg a b => cases optT <;> simp [mayChange, isGr] at h
  | _ => simp [mayChange, isGr, isStorePart] at h

/-- The bytes an instruction may change: those of the stores and of a data-cache purge without flush. -/
theorem mayChangeMemory_of_mayChange {i : Instr} {a : Nat} (h : mayChange i (.mem a)) : mayChangeMemory i = true := by
  cases i with
  | st | sta | stc => rfl
  | pca optT optM seg optF x b =>
    obtain (⟨-, hcache⟩ | ⟨-, hcache⟩ | ⟨rfl, rfl, -⟩) | ⟨-, hregister⟩ := h
    · cases hcache
    · cases hcache
    · rfl
    · cases hregister
  | mr r optD optM num => cases optD <;> cases optM <;> simp [mayChange, isGr] at h
  | itlb r optT x b => cases optT <;> simp [mayChange] at h
  | ptlb optT optM seg x b => cases optT <;> simp [mayChange, isGr] at h
  | _ => simp [mayChange, isGr, isPsw0] at h

/-! ### The protected state -/

@[simp] theorem not_protected_gr (r : BitVec 4) : ¬ Protected (.gr r) := by simp [Protected]
@[simp] theorem protected_sr_iff (n : BitVec 3) : Protected (.sr n) ↔ 5 ≤ n.toNat := by simp [Protected]
@[simp] theorem protected_cr_iff (n : BitVec 5) : Protected (.cr n) ↔ n ≠ 2 := by simp [Protected]
@[simp] theorem protected_psw0_iff (j : Fin 32) : Protected (.psw0 j) ↔ j.val < 16 ∧ j.val ≠ 1 ∧ j.val ≠ 5 := by simp [Protected]
@[simp] theorem not_protected_reservation : ¬ Protected .reservation := by simp [Protected]

theorem not_protected_of_isStorePart {pa : PAddr} {n : Size} {p : Part} (h : isStorePart pa n p) : ¬ Protected p := by
  obtain ⟨a, -, rfl⟩ | rfl | rfl | rfl := h <;> simp [Protected]

/-- In user mode no part that a completed instruction may change is protected. -/
theorem not_protected_of_mayChange {s t : State} {i : Instr} {p : Part} (hx : s.pswX = true) (hc : Completed s t i)
    (h : mayChange i p) : ¬ Protected p := by
  have hpriv : s.pswX = false → False := fun h0 => by rw [hx] at h0; cases h0
  cases i with
  | ldpa | diag | lda | sta | mst | itlb | ptlb | pca | rfi => exact (hpriv hc.1).elim
  | brk | ds | cbr | cbru => exact h.elim
  | ldil | addil | ldo | lsid | extr | dep | dsr | shla | cmr | and | or | xor | cmp | cmpu | b | br | bv | prb =>
    obtain rfl := h; exact not_protected_gr _
  | mr r optD optM num =>
    cases optD with
    | false => obtain rfl := h; exact not_protected_gr r
    | true =>
      have htest : mrPrivileged optM num = false := by simpa [hx] using hc.1
      obtain rfl := h
      cases optM with
      | true => simpa [mrPrivileged] using htest
      | false => simpa [mrPrivileged] using htest
  | add | adc => obtain rfl | ⟨-, rfl⟩ := h <;> simp
  | sub | sbc => obtain rfl | rfl := h <;> simp
  | gate => obtain rfl | rfl := h <;> simp
  | be | bve =>
    obtain rfl | rfl | ⟨n, hlow, -, rfl⟩ := h
    · simp
    · simp
    · rw [protected_psw0_iff]; omega
  | ld => obtain rfl | ⟨-, rfl⟩ := h <;> simp
  | ldr => obtain rfl | rfl := h <;> simp
  | st =>
    obtain ⟨pa, n, hp⟩ | ⟨-, rfl⟩ := h
    · exact not_protected_of_isStorePart hp
    · simp
  | stc =>
    obtain (⟨pa, n, hp⟩ | rfl) | rfl := h
    · exact not_protected_of_isStorePart hp
    · simp
    · simp

/-! ### The level after GATE -/

/-- GATE keeps the level or goes to level 0 (42_branch.md R254). -/
theorem gateLevel_eq (s : State) : s.gateLevel = s.pswX ∨ s.gateLevel = false := by
  unfold State.gateLevel
  split
  · split
    · split
      · next hcond => exact .inr (by simp_all)
      · exact .inl rfl
    · exact .inl rfl
  · exact .inr rfl

theorem pswX_setX_branchTo (s : State) (v : Bool) (r : BitVec 4) (link target : Word) :
    ((s.setX v).branchTo r link target).pswX = v := flag_setFlag_same s.psw0 v (by decide)

/-! ### The statements -/

/-- Settles O14: bit 1 of PSW-0 is among the parts of GATE and RFI only. -/
theorem privilegeLevelChanges : Obligations.PrivilegeLevelChanges := by
  intro i s t h
  obtain ⟨tr, rfl⟩ | hc := exec_completed h
  · exact .inr (.inr (.inr ⟨_, _, _, _, trapEntered_takeTrap s tr⟩))
  · by_cases hX : mayChange i (.psw0 1)
    · obtain ⟨-, r, ofs, rfl⟩ | ⟨hn, -⟩ | hn | rfl := status_of_mayChange hX
      · obtain ⟨link, target, rfl⟩ := hc
        rw [pswX_setX_branchTo]
        obtain hkept | hzero := gateLevel_eq s
        · exact .inl hkept
        · exact .inr (.inl ⟨⟨r, ofs, rfl⟩, hzero⟩)
      · exact absurd hn (by decide)
      · exact absurd hn (by decide)
      · obtain ⟨hpriv, rfl⟩ := hc
        exact .inr (.inr (.inl ⟨rfl, hpriv, rfl⟩))
    · exact .inl (keeps_completed hc (.psw0 1) hX (by simp))

/-- Settles O15: bit 5 of PSW-0 is among the parts of the instructions that write the carry and of RFI only. -/
theorem carryBitWriters : Obligations.CarryBitWriters := by
  intro i s t h hcarry hrfi
  obtain htrap | hkeeps := exec_keeps h
  · exact .inr htrap
  · refine .inl (hkeeps (.psw0 5) (fun hCB => ?_) (by simp))
    obtain ⟨hn, -⟩ | ⟨-, hw⟩ | hn | hi := status_of_mayChange hCB
    · exact absurd hn (by decide)
    · rw [hw] at hcarry; cases hcarry
    · exact absurd hn (by decide)
    · exact hrfi hi

/-- Settles O16: trap entry changes no byte, and a byte is among the parts of the stores and of a purge without flush only. -/
theorem memoryWriters : Obligations.MemoryWriters := by
  intro i s t a h hbyte
  obtain ⟨tr, rfl⟩ | hc := exec_completed h
  · exact absurd rfl hbyte
  · by_contra hmay
    exact hbyte (keeps_completed hc (.mem a) (fun hm => hmay (mayChangeMemory_of_mayChange hm)) (by simp))

/-- Settles O17: what a completed instruction may change in user mode is not protected. -/
theorem userModeKeepsProtectedState : Obligations.UserModeKeepsProtectedState := by
  intro i s t hx h
  obtain ⟨tr, rfl⟩ | hc := exec_completed h
  · exact .inl ⟨_, _, _, _, trapEntered_takeTrap s tr⟩
  · refine .inr fun p hp => keeps_completed hc p (fun hm => not_protected_of_mayChange hx hc hm hp) ?_
    rintro rfl
    simp [Protected] at hp

end Sys2Proof.Machine
end

section
/-! PROOFS. What a step does around an instruction: states without meaning, events, the fetch and the word it returns
(10_state.md R33, R40, R41, 60_exceptions.md R441 to R453, 20_memory.md R96, R97, R123, 30_encoding.md R162, R163). -/

namespace Sys2Proof.Machine

/-! ### Trap entry and reset -/

/-- Settles O13: trap entry saves, clears and vectors, whatever the trap is. -/
theorem trapEntrySavesAndVectors : Obligations.TrapEntrySavesAndVectors := trapEntered_takeTrap

/-- After reset an instruction is fetched: no status bit is set and nothing is pending. -/
theorem ready_reset : Ready State.reset where
  notNullified := by decide
  noCounter := by decide
  noSingleStep := by decide
  noMachineCheck := .inr rfl
  noPowerFailure := rfl
  noInterrupt := .inr rfl

/-- Settles O12: each field of the reset state is the one R501 gives. -/
theorem resetState : Obligations.ResetState :=
  ⟨rfl, rfl, readGr_zero _, rfl, rfl, rfl, rfl, rfl, rfl, rfl, rfl, ready_reset, fun _ => rfl⟩

/-! ### States without meaning -/

theorem step_of_noMeaning {s : State} {r : Refusal} (h : s.noMeaning = some r) : step s = .refused r := by
  rw [step, runStep, h]

/-- Settles O9: N, R and Z are looked at in this order. -/
theorem statesWithoutMeaningAreRefused : Obligations.StatesWithoutMeaningAreRefused := by
  intro s
  refine ⟨fun hN => ?_, fun hN hR => ?_, fun hN hR hZ => ?_⟩ <;> apply step_of_noMeaning <;> unfold State.noMeaning
  · rw [if_pos hN]
  · rw [if_neg (by simp [hN]), if_pos hR]
  · rw [if_neg (by simp [hN]), if_neg (by simp [hR]), hZ]; rfl

/-! ### Events -/

/-- An event that is sampled takes its trap from the state without it. -/
theorem step_of_event {s u : State} {t : Trap} (hm : s.noMeaning = none) (he : s.sampleEvent = some (t, u)) :
    step s = .next (u.takeTrap t) := by
  rw [step, runStep, hm]
  dsimp only
  rw [he]

theorem noMeaning_of_clear {s : State} (hN : s.pswN = false) (hR : s.pswR = false) (hZ : s.pswZ = false) : s.noMeaning = none := by
  simp [State.noMeaning, hN, hR, hZ]

/-- Settles O8: the sampled event is the first one that is pending and not held back. -/
theorem asynchronousEventsAreTaken : Obligations.AsynchronousEventsAreTaken := by
  intro s hN hR hZ
  have hmeaning := noMeaning_of_clear hN hR hZ
  have hnoCheck : (s.pswM = true ∨ s.machineCheck = none) → (if s.pswM then none else s.machineCheck) = none := by
    rintro (h | h) <;> simp [h]
  refine ⟨fun c hM hc => ?_, fun hcheck hpower => ?_, fun hcheck hpower hE hx => ?_⟩
  · have hev : s.sampleEvent = some (⟨.machineCheck, some c, none, none⟩, { s with machineCheck := none }) := by
      simp [State.sampleEvent, hM, hc]
    exact ⟨_, step_of_event hmeaning hev, trapEntered_takeTrap _ _⟩
  · have hev : s.sampleEvent = some (bareTrap .powerFailure, { s with powerFail := false }) := by
      simp [State.sampleEvent, hnoCheck hcheck, hpower]
    exact ⟨_, step_of_event hmeaning hev, trapEntered_takeTrap _ _⟩
  · have hev : s.sampleEvent = some (bareTrap .externalInterrupt, s) := by
      simp [State.sampleEvent, hnoCheck hcheck, hpower, hE, hx]
    exact ⟨_, step_of_event hmeaning hev, trapEntered_takeTrap _ _⟩

/-! ### The fetch -/

/-- A fetch that is abandoned by a trap. -/
theorem step_of_fetch_trap {s : State} {t : Trap} (hr : Ready s) (h : fetch s = .error (.trap t)) : step s = .next (s.takeTrap t) := by
  rw [step_of_ready hr, runNext, h]
  rfl

theorem traps_bareTrap (s : State) (id : TrapId) : Traps (.next (s.takeTrap (bareTrap id))) s (trapNumber id) none none none :=
  ⟨_, rfl, trapEntered_takeTrap s (bareTrap id)⟩

theorem fetch_miss {s : State} (hC : s.pswC = true) (h : tlbLookup s.itlb s.pswSeg (pageOf s.psw1) = none) :
    fetch s = .error (.trap (bareTrap .instrTlbMiss)) := by
  rw [fetch, if_pos hC, h]

/-- The three checks of a translated fetch raise the same trap, so their order does not show. -/
theorem fetch_protection {s : State} {e : TlbEntry} (hC : s.pswC = true) (h : tlbLookup s.itlb s.pswSeg (pageOf s.psw1) = some e)
    (hbad : executable e.rights = false ∨ s.pidRefuses e s.pswSeg = true ∨ levelLe s.pswX e.rights.pl1 = false) :
    fetch s = .error (.trap (bareTrap .instrProtection)) := by
  rw [fetch, if_pos hC, h]
  dsimp only
  cases hex : executable e.rights with
  | false => rfl
  | true =>
    cases hpid : s.pidRefuses e s.pswSeg with
    | true => rfl
    | false =>
      cases hlevel : levelLe s.pswX e.rights.pl1 with
      | false => rfl
      | true => simp [hex, hpid, hlevel] at hbad

/-- Settles O7: a miss and a failed check abandon the fetch. -/
theorem fetchTraps : Obligations.FetchTraps := by
  intro s hr hC
  refine ⟨fun hmiss => ?_, fun e he hbad => ?_⟩
  · rw [step_of_fetch_trap hr (fetch_miss hC hmiss)]
    exact traps_bareTrap s .instrTlbMiss
  · have hchecks : executable e.rights = false ∨ s.pidRefuses e s.pswSeg = true ∨ levelLe s.pswX e.rights.pl1 = false := by
      obtain (htype | htype) | hpid | ⟨hX, hpl1⟩ := hbad
      · exact .inl (by rw [executable, htype])
      · exact .inl (by rw [executable, htype])
      · exact .inr (.inl hpid)
      · exact .inr (.inr (by rw [hX, hpl1]; rfl))
    rw [step_of_fetch_trap hr (fetch_protection hC he hchecks)]
    exact traps_bareTrap s .instrProtection

/-! ### The fetched word -/

theorem step_of_fetch {s u : State} {w : Word} (hr : Ready s) (h : fetch s = .ok (w, u)) : step s = runWord w u := by
  rw [step_of_ready hr, runNext, h]

theorem runWord_of_decode {w : Word} {i : Instr} (h : decode w = .ok i) (u : State) : runWord w u = exec i u := by
  rw [runWord, h]

theorem runWord_of_error {w : Word} {e : DecodeError} (h : decode w = .error e) (u : State) : runWord w u = rejected u w e := by
  rw [runWord, h]

/-- Demotion leaves memory and the instruction cache alone. -/
theorem fetches_memory {s t : State} {pa : PAddr} (h : Fetches s pa t) : t.mem = s.mem ∧ t.staleAt pa = s.staleAt pa := by
  rw [fetches_frame h]
  exact ⟨rfl, rfl⟩

/-- Where the instruction cache holds no older copy the fetch returns the word in memory. -/
theorem fetch_current {s t : State} {pa : PAddr} {w : Word} (hf : Fetches s pa t) (hstale : s.staleAt pa = [])
    (hw : Holds s.mem pa.toNat .word w) : fetch s = .ok (w, t) := by
  obtain ⟨hmem, hst⟩ := fetches_memory hf
  rw [fetch_of_fetches hf, fetchWord, needMemory_of hf.memory, ok_bind, hst, hstale, chooseAmong_nil, hmem, word_of_holds hw]
  rfl

/-- Settles O5: the fetch returns the word in memory, which decodes. -/
theorem stepRunsTheDecodedInstruction : Obligations.StepRunsTheDecodedInstruction := by
  intro s t pa w i hr hf hstale hw hdec
  rw [step_of_fetch hr (fetch_current hf hstale hw), runWord_of_decode hdec]

/-- Settles O4: the fetched word is rejected in the state the fetch left. -/
theorem rejectedWordsStop : Obligations.RejectedWordsStop := by
  intro s t pa w hr hf hstale hw
  rw [step_of_fetch hr (fetch_current hf hstale hw)]
  refine ⟨fun hop => ?_, fun hres => ?_, decode_eq_unassigned_iff w⟩
  · rw [runWord_of_error ((decode_eq_unassigned_iff w).mpr hop)]
    exact traps_instrTrap t .illegalInstruction w
  · rw [runWord_of_error hres]
    rfl

/-- Settles O6: the word is chosen among the current and the stale ones, and only the count of free values moves. -/
theorem fetchReturnsACurrentOrStaleWord : Obligations.FetchReturnsACurrentOrStaleWord := by
  intro s t u pa w hr hf hfetch
  obtain ⟨hmem, hst⟩ := fetches_memory hf
  obtain ⟨-, hchosen, rfl⟩ := fetchWord_ok ((fetch_of_fetches hf).symm.trans hfetch)
  rw [hmem, hst] at hchosen
  refine ⟨hchosen, ?_, ?_, fun i hdec => by rw [step_of_fetch hr hfetch, runWord_of_decode hdec]⟩
  · intro p hp _
    split
    · exact samePart_refl t p
    · cases p <;> simp [samePart, State.readGr, State.readSr, State.readCr] at *
  · split <;> rfl

end Sys2Proof.Machine
end

section
/-! PROOFS. LDO, the bit-field instructions EXTR, DEP and DSR, and DS (41_immediate.md R233, 44_computational_bitfield.md R330 to R337,
R350). -/

namespace Sys2Proof.Machine

/-! ### Signed fields (30_encoding.md R150, R151) -/

/-- The sign of a field is its rightmost bit. -/
theorem imm_eq {n : Nat} (f : BitVec n) : imm f = BitVec.ofInt 32 ((f.toNat / 2 : Nat) - (f.toNat % 2 : Nat) * 2 ^ (n - 1)) := rfl

/-- Settles O21: one addition into one register. -/
theorem ldoAddsTheOffset : Obligations.LdoAddsTheOffset := by
  intro s r b ofs
  refine ⟨(s.writeGr r (s.readGr b + imm ofs)).advance, ?_, ?_, ends_writeGr s r _⟩
  · rw [exec_ldo, execLdo, conclude_done]
  · rw [readGr_written_advance, imm_eq]

/-! ### The position of a field -/

theorem fieldPos_eq_positionOf (s : State) (optA : Bool) (pos : BitVec 5) : s.fieldPos optA pos = positionOf s optA pos := by
  unfold State.fieldPos positionOf State.shamt
  rw [BitVec.extractLsb'_toNat, Nat.shiftRight_zero]

theorem positionOf_lt (s : State) (optA : Bool) (pos : BitVec 5) : positionOf s optA pos < 32 := by
  unfold positionOf
  split
  · exact Nat.mod_lt _ (by decide)
  · exact pos.isLt

theorem fieldInRange_iff (p : Nat) (len : BitVec 5) : fieldInRange p len = true ↔ len ≠ 0 ∧ len.toNat ≤ p + 1 := by
  unfold fieldInRange
  rw [Bool.and_eq_true, decide_eq_true_eq, decide_eq_true_eq, ne_eq, ne_eq, ← BitVec.toNat_inj]
  rfl

/-! ### Results bit by bit -/

/-- A bit of what a register reads after a write. -/
theorem getLsbD_written (r : BitVec 4) (v : Word) (k : Nat) : (written r v).getLsbD k = (decide (r ≠ 0) && v.getLsbD k) := by
  unfold written
  by_cases hr : r = 0
  · simp [hr]
  · rw [if_neg hr, decide_eq_true hr, Bool.true_and]

/-- An extracted field is the field's bits from the right, then zeros, or copies of its leftmost bit. -/
theorem getLsbD_extractField (w : Word) {p k : Nat} {len : BitVec 5} (signed : Bool) (hlen : len ≠ 0) (hk : k < 32) :
    (extractField w p len signed).getLsbD k =
      if k < len.toNat then w.getLsbD (31 - p + k) else signed && w.getLsbD (31 - p + len.toNat - 1) := by
  have hpos : 0 < len.toNat := Nat.pos_of_ne_zero fun h => hlen (BitVec.eq_of_toNat_eq h)
  unfold extractField
  cases signed with
  | false =>
    rw [if_neg (by decide), BitVec.getLsbD_setWidth, BitVec.getLsbD_extractLsb']
    by_cases hin : k < len.toNat <;> simp [hin, hk]
  | true =>
    have hlast : 31 - p + (len.toNat - 1) = 31 - p + len.toNat - 1 := by omega
    rw [if_pos rfl, BitVec.getLsbD_signExtend, BitVec.msb_eq_getLsbD_last, BitVec.getLsbD_extractLsb',
      BitVec.getLsbD_extractLsb', hlast]
    by_cases hin : k < len.toNat <;> simp [hin, hk, hpos]

/-- The mask of a field is one on the field's bits. -/
theorem getLsbD_fieldMask (p : Nat) (len : BitVec 5) {k : Nat} (hk : k < 32) :
    (fieldMask p len).getLsbD k = decide (31 - p ≤ k ∧ k < 31 - p + len.toNat) := by
  unfold fieldMask
  rw [BitVec.getLsbD_ofNat, Nat.testBit_mul_two_pow, Nat.testBit_two_pow_sub_one, decide_eq_true hk, Bool.true_and,
    ← Bool.decide_and, decide_eq_decide]
  omega

/-- A deposited field is the source's rightmost bits in the field and the old word outside. -/
theorem getLsbD_depositField (old src : Word) (p : Nat) (len : BitVec 5) {k : Nat} (hk : k < 32) :
    (depositField old src p len).getLsbD k =
      if 31 - p ≤ k ∧ k < 31 - p + len.toNat then src.getLsbD (k - (31 - p)) else old.getLsbD k := by
  unfold depositField
  rw [BitVec.getLsbD_or, BitVec.getLsbD_and, BitVec.getLsbD_and, BitVec.getLsbD_not, BitVec.getLsbD_shiftLeft,
    getLsbD_fieldMask p len hk, decide_eq_true hk]
  by_cases hin : 31 - p ≤ k ∧ k < 31 - p + len.toNat
  · have hge : ¬ k < 31 - p := by omega
    rw [if_pos hin, decide_eq_true hin, decide_eq_false hge]
    simp
  · rw [if_neg hin, decide_eq_false hin]
    simp

/-- The low word of a shifted pair is the low register, or parts of both. -/
theorem doubleShift_eq (hi lo : Word) {n : Nat} (hn : n < 32) :
    doubleShift hi lo n = if n = 0 then lo else (hi <<< (32 - n)) ||| (lo >>> n) := by
  apply BitVec.eq_of_getLsbD_eq
  intro k hk
  unfold doubleShift
  rw [BitVec.getLsbD_setWidth, BitVec.getLsbD_ushiftRight, BitVec.getLsbD_append, decide_eq_true hk, Bool.true_and]
  by_cases hzero : n = 0
  · subst hzero
    rw [if_pos (by omega), if_pos rfl, Nat.zero_add]
  · rw [if_neg hzero, BitVec.getLsbD_or, BitVec.getLsbD_shiftLeft, BitVec.getLsbD_ushiftRight, decide_eq_true hk]
    by_cases hlow : n + k < 32
    · rw [if_pos hlow]
      simp [show k < 32 - n by omega]
    · rw [if_neg hlow, BitVec.getLsbD_of_ge lo _ (by omega), show n + k - 32 = k - (32 - n) by omega]
      simp [show ¬ k < 32 - n by omega]

/-! ### The states they leave -/

theorem exec_extr_next {s : State} {optA : Bool} {len pos : BitVec 5} (r : BitVec 4) (optS : Bool) (b : BitVec 4) (hlen : len ≠ 0)
    (hle : len.toNat ≤ positionOf s optA pos + 1) :
    exec (.extr r optS optA len pos b) s =
      .next (s.writeGr r (extractField (s.readGr b) (positionOf s optA pos) len optS)).advance := by
  rw [exec_extr, execExtr, fieldPos_eq_positionOf, (fieldInRange_iff _ _).mpr ⟨hlen, hle⟩, needOrRefuse_true, ok_bind, conclude_done]

theorem exec_dep_next {s : State} {optA : Bool} {len pos : BitVec 5} (r : BitVec 4) (optZ optI : Bool) (b : BitVec 4) (hlen : len ≠ 0)
    (hle : len.toNat ≤ positionOf s optA pos + 1) :
    exec (.dep r optZ optA optI len pos b) s =
      .next (s.writeGr r (depositField (if optZ then 0 else s.readGr r) (s.depositSource optI b) (positionOf s optA pos) len)).advance := by
  rw [exec_dep, execDep, fieldPos_eq_positionOf, (fieldInRange_iff _ _).mpr ⟨hlen, hle⟩, needOrRefuse_true, ok_bind, conclude_done]

theorem exec_dsr_next (s : State) (r : BitVec 4) (optA : Bool) (shamt : BitVec 5) (a b : BitVec 4) :
    exec (.dsr r optA shamt a b) s =
      .next (s.writeGr r (doubleShift (s.readGr b) (s.readGr a) (positionOf s optA shamt))).advance := by
  rw [exec_dsr, execDsr, fieldPos_eq_positionOf, conclude_done]

/-! ### The statements -/

/-- Settles O23: the field's bits, then the extension. -/
theorem extrExtractsTheField : Obligations.ExtrExtractsTheField := by
  intro s r b optS optA len pos hlen hle
  refine ⟨_, exec_extr_next r optS b hlen hle, ends_writeGr s r _, fun k hk => ?_⟩
  rw [readGr_written_advance, getLsbD_written, getLsbD_extractField _ _ hlen hk]

/-- Settles O24: the source's bits in the field, the old or zero bits outside. -/
theorem depDepositsTheField : Obligations.DepDepositsTheField := by
  intro s r b optZ optA optI len pos hlen hle
  refine ⟨_, exec_dep_next r optZ optI b hlen hle, ends_writeGr s r _, fun k hk => ?_⟩
  have hold : (if optZ then 0 else s.readGr r).getLsbD k = (!optZ && (s.readGr r).getLsbD k) := by cases optZ <;> simp
  rw [readGr_written_advance, getLsbD_written, getLsbD_depositField _ _ _ _ hk, hold]
  rfl

/-- Settles O25: the pair is shifted by less than a word. -/
theorem dsrShiftsThePair : Obligations.DsrShiftsThePair := by
  intro s r a b optA shamt
  refine ⟨_, exec_dsr_next s r optA shamt a b, ends_writeGr s r _, ?_⟩
  rw [readGr_written_advance, doubleShift_eq _ _ (positionOf_lt s optA shamt)]

/-- Settles O28: DS ends in its refusal, whatever its registers hold. -/
theorem dsIsRefused : Obligations.DsIsRefused := by
  intro s r a b
  rw [exec_ds, execDs, conclude_refuse]

end Sys2Proof.Machine
end

section
/-! PROOFS. The arithmetic, logic and comparison instructions and SHLA (43_computational_operand.md R291 to R306,
44_computational_bitfield.md R338, R339). -/

namespace Sys2Proof.Machine

/-! ### Overflow is an exact result out of its range (43_computational_operand.md R295) -/

theorem outsideUnsigned_iff (z : Int) : outsideUnsigned z = true ↔ ¬ Fits true z := by
  simp only [outsideUnsigned, Fits, Bool.or_eq_true, decide_eq_true_eq, if_true]
  omega

theorem outsideSigned_iff (z : Int) : outsideSigned z = true ↔ ¬ Fits false z := by
  simp only [outsideSigned, Fits, Bool.or_eq_true, decide_eq_true_eq, Bool.false_eq_true, if_false]
  omega

theorem overflowAdd_iff (a b : Word) (c optL : Bool) :
    overflowAdd a b c optL = true ↔ ¬ Fits optL (exactValue optL a + exactValue optL b + c.toNat) := by
  cases optL with
  | true => exact outsideUnsigned_iff (a.toNat + b.toNat + c.toNat)
  | false => exact outsideSigned_iff _

theorem overflowSub_iff (a b : Word) (c optL : Bool) :
    overflowSub a b c optL = true ↔ ¬ Fits optL (exactValue optL a - exactValue optL b - c.toNat) := by
  cases optL with
  | true => exact outsideUnsigned_iff _
  | false => exact outsideSigned_iff _

theorem shlaOverflow_iff (a b : Word) (sa : BitVec 2) (optL : Bool) :
    shlaOverflow a b sa optL = true ↔ ¬ ShlaFits optL sa a b := by
  unfold ShlaFits
  rw [not_and_or]
  cases optL with
  | true => exact (Bool.or_eq_true ..).to_iff.trans (or_congr (outsideUnsigned_iff _) (outsideUnsigned_iff _))
  | false => exact (Bool.or_eq_true ..).to_iff.trans (or_congr (outsideSigned_iff _) (outsideSigned_iff _))

/-- The overflow test passes unless option O is set and the exact result is out of range. -/
theorem overflowTest_passes {optO overflow : Bool} {P : Prop} (h : overflow = true ↔ ¬ P) (hfit : optO = true → P) :
    (optO && overflow) = false := by
  rw [Bool.and_eq_false_iff, ← Bool.not_eq_true, ← Bool.not_eq_true, h]
  by_cases hO : optO = true
  · exact .inr (not_not_intro (hfit hO))
  · exact .inl hO

/-! ### What a completed addition, subtraction or other operation leaves -/

/-- The state after ADD or ADC: the sum, and without L the carry (R291, R292). -/
def State.afterAdd (s : State) (r : BitVec 4) (optL : Bool) (x y : Word) (c : Bool) : State :=
  (if optL then s.writeGr r (addValue x y c) else (s.writeGr r (addValue x y c)).setCB (addCarry x y c)).advance

/-- The state after SUB or SBC: the difference and the borrow (R293, R294). -/
def State.afterSub (s : State) (r : BitVec 4) (x y : Word) (c : Bool) : State :=
  ((s.writeGr r (subValue x y c)).setCB (subBorrow x y c)).advance

section
variable {s : State} {r : BitVec 4} {op : Operand} {x y : Word} (instr : Word) (h : OperandsAre s r op x y)
include h

theorem addWith_of {optL optO c : Bool} (hfit : optO = true → Fits optL (exactValue optL x + exactValue optL y + c.toNat)) :
    addWith instr r optL optO op c s = .ok ⟨s.afterAdd r optL x y c, none, none⟩ := by
  rw [addWith, operands_of instr h, ok_bind, overflowTest_passes (overflowAdd_iff x y c optL) hfit, trapIf_false, ok_bind]
  rfl

theorem addWith_overflow {optL c : Bool} (hfit : ¬ Fits optL (exactValue optL x + exactValue optL y + c.toNat)) :
    addWith instr r optL true op c s = .error (.trap (instrTrap .overflow instr)) := by
  rw [addWith, operands_of instr h, ok_bind, (overflowAdd_iff x y c optL).mpr hfit, Bool.and_self, trapIf_true, error_bind]

theorem subWith_of {optL optO c : Bool} (hfit : optO = true → Fits optL (exactValue optL x - exactValue optL y - c.toNat)) :
    subWith instr r optL optO op c s = .ok ⟨s.afterSub r x y c, none, none⟩ := by
  rw [subWith, operands_of instr h, ok_bind, overflowTest_passes (overflowSub_iff x y c optL) hfit, trapIf_false, ok_bind]
  rfl

theorem subWith_overflow {optL c : Bool} (hfit : ¬ Fits optL (exactValue optL x - exactValue optL y - c.toNat)) :
    subWith instr r optL true op c s = .error (.trap (instrTrap .overflow instr)) := by
  rw [subWith, operands_of instr h, ok_bind, (overflowSub_iff x y c optL).mpr hfit, Bool.and_self, trapIf_true, error_bind]

theorem resultOf_of (f : Word → Word → Word) :
    resultOf instr r op f s = .ok ⟨(s.writeGr r (f x y)).advance, none, none⟩ := by
  rw [resultOf, operands_of instr h, ok_bind]
end

/-! ### Addition and subtraction -/

theorem readGr_afterAdd (s : State) (r : BitVec 4) (optL : Bool) (x y : Word) (c : Bool) :
    (s.afterAdd r optL x y c).readGr r = written r (addValue x y c) := by
  cases optL <;> exact readGr_written s r _

theorem pswCB_afterAdd (s : State) (r : BitVec 4) (x y : Word) (c : Bool) : (s.afterAdd r false x y c).pswCB = addCarry x y c :=
  flag_setFlag_same s.psw0 _ (by decide)

theorem ends_afterAdd (s : State) (r : BitVec 4) (optL : Bool) (x y : Word) (c : Bool) :
    Ends (fun p => isGr r p ∨ (optL = false ∧ p = .psw0 5)) s (s.afterAdd r optL x y c) := by
  cases optL with
  | true => exact (ends_writeGr s r _).mono fun _ => .inl
  | false => exact ⟨((keeps_writeGr s r _).seq ((keeps_setCB _ _).mono fun _ hp => ⟨rfl, hp⟩)).advance, rfl⟩

theorem readGr_afterSub (s : State) (r : BitVec 4) (x y : Word) (c : Bool) :
    (s.afterSub r x y c).readGr r = written r (subValue x y c) := readGr_written s r _

theorem pswCB_afterSub (s : State) (r : BitVec 4) (x y : Word) (c : Bool) : (s.afterSub r x y c).pswCB = subBorrow x y c :=
  flag_setFlag_same s.psw0 _ (by decide)

theorem ends_afterSub (s : State) (r : BitVec 4) (x y : Word) (c : Bool) :
    Ends (fun p => isGr r p ∨ p = .psw0 5) s (s.afterSub r x y c) :=
  ⟨((keeps_writeGr s r _).seq (keeps_setCB _ _)).advance, rfl⟩

/-- The exact difference narrowed is the difference of words. -/
theorem subValue_eq (x y : Word) (c : Bool) : subValue x y c = x - y - BitVec.ofNat 32 c.toNat := by
  rw [eq_sub_iff_add_eq, eq_sub_iff_add_eq]
  calc subValue x y c + BitVec.ofNat 32 c.toNat + y
      = BitVec.ofInt 32 (x.toNat - y.toNat - c.toNat) + BitVec.ofInt 32 c.toNat + BitVec.ofInt 32 y.toNat := by
        rw [subValue, BitVec.ofInt_natCast, BitVec.ofInt_natCast, BitVec.ofNat_toNat, BitVec.setWidth_eq]
    _ = BitVec.ofInt 32 x.toNat := by rw [← BitVec.ofInt_add, ← BitVec.ofInt_add, sub_add_cancel, sub_add_cancel]
    _ = x := by rw [BitVec.ofInt_natCast, BitVec.ofNat_toNat, BitVec.setWidth_eq]

/-- Settles O29: ADD adds no carry, ADC the carry bit. -/
theorem addAndAdcResult : Obligations.AddAndAdcResult := by
  intro s r optL optO op x y i c hop hi hfit
  refine ⟨s.afterAdd r optL x y c, ?_, readGr_afterAdd s r optL x y c, ?_, ends_afterAdd s r optL x y c⟩
  · obtain ⟨rfl, rfl⟩ | ⟨rfl, rfl⟩ := hi
    · rw [exec_add, execAdd, addWith_of _ hop hfit, conclude_ok]
    · rw [exec_adc, execAdc, addWith_of _ hop hfit, conclude_ok]
  · rintro rfl
    exact pswCB_afterAdd s r x y c

/-- Settles O30: SUB subtracts no borrow, SBC the carry/borrow bit. -/
theorem subAndSbcResult : Obligations.SubAndSbcResult := by
  intro s r optL optO op x y i c hop hi hfit
  refine ⟨s.afterSub r x y c, ?_, ?_, pswCB_afterSub s r x y c, ends_afterSub s r x y c⟩
  · obtain ⟨rfl, rfl⟩ | ⟨rfl, rfl⟩ := hi
    · rw [exec_sub, execSub, subWith_of _ hop hfit, conclude_ok]
    · rw [exec_sbc, execSbc, borrowIn, Config.borrowSense, subWith_of _ hop hfit, conclude_ok]
  · rw [readGr_afterSub, subValue_eq]

/-! ### SHLA -/

theorem exec_shla_next {s : State} {optL optO : Bool} {sa : BitVec 2} (r : BitVec 4) {a b : BitVec 4}
    (hfit : optO = true → ShlaFits optL sa (s.readGr a) (s.readGr b)) :
    exec (.shla r optL optO sa a b) s = .next (s.writeGr r (shiftedValue (s.readGr a) sa + s.readGr b)).advance := by
  rw [exec_shla, execShla, overflowTest_passes (shlaOverflow_iff _ _ sa optL) hfit, trapIf_false, ok_bind, conclude_done]

/-- Settles O26: the shift and the sum, each modulo 2^32. -/
theorem shlaShiftsAndAdds : Obligations.ShlaShiftsAndAdds := by
  intro s r a b optL optO sa hfit
  refine ⟨_, exec_shla_next r hfit, ends_writeGr s r _, ?_⟩
  rw [readGr_written_advance, shiftedValue, BitVec.ofNat_add, BitVec.ofNat_toNat, BitVec.setWidth_eq]

/-- Settles O31: an exact result out of range fails the overflow test. -/
theorem overflowTraps : Obligations.OverflowTraps := by
  refine ⟨fun s r optL op x y hop => ⟨fun h => ?_, fun h => ?_, fun h => ?_, fun h => ?_⟩, fun s r a b optL sa h => ?_⟩
  · rw [exec_add, execAdd, addWith_overflow _ hop (c := false) (by simpa using h), conclude_trap]
    exact traps_instrTrap s .overflow _
  · rw [exec_adc, execAdc, addWith_overflow _ hop h, conclude_trap]
    exact traps_instrTrap s .overflow _
  · rw [exec_sub, execSub, subWith_overflow _ hop (c := false) (by simpa using h), conclude_trap]
    exact traps_instrTrap s .overflow _
  · rw [exec_sbc, execSbc, borrowIn, Config.borrowSense, subWith_overflow _ hop h, conclude_trap]
    exact traps_instrTrap s .overflow _
  · rw [exec_shla, execShla, (shlaOverflow_iff _ _ sa optL).mpr h, Bool.and_self, trapIf_true, error_bind, conclude_trap]
    exact traps_instrTrap s .overflow _

/-! ### Logic -/

/-- The two option bits of an operand-format word stand one after the other (30_encoding.md R144). -/
theorem encodeOpr_optBits (opcode : BitVec 6) (r : BitVec 4) (x y : Bool) (op : Operand) :
    encodeOpr opcode r (optBits x y) op = opcode ++ r ++ BitVec.ofBool x ++ BitVec.ofBool y ++ encodeOperand op :=
  congrArg (fun v : BitVec 12 => v ++ encodeOperand op) BitVec.append_assoc'

theorem needDefinedOption_of {optN optC : Bool} (h : ¬ (optN = true ∧ optC = true)) : needDefinedOption optN optC = .ok () := by
  rw [← Bool.and_eq_true, Bool.not_eq_true] at h
  rw [needDefinedOption, h]
  rfl

/-- At most one of N and C complements, the result or the second operand. -/
theorem complementIf_complementIf {optN optC : Bool} (f : Word → Word → Word) (x y : Word) (h : ¬ (optN = true ∧ optC = true)) :
    complementIf optN (f x (complementIf optC y)) = if optN then ~~~(f x y) else if optC then f x (~~~y) else f x y := by
  cases optN with
  | false => cases optC <;> rfl
  | true =>
    cases optC with
    | false => rfl
    | true => exact absurd ⟨rfl, rfl⟩ h

theorem exec_and_next {s : State} {r : BitVec 4} {op : Operand} {x y : Word} {optN optC : Bool} (h : OperandsAre s r op x y)
    (hopt : ¬ (optN = true ∧ optC = true)) :
    exec (.and r optN optC op) s = .next (s.writeGr r (complementIf optN (x &&& complementIf optC y))).advance := by
  rw [exec_and, execAnd, needDefinedOption_of hopt, ok_bind, resultOf_of _ h, conclude_ok]

theorem exec_or_next {s : State} {r : BitVec 4} {op : Operand} {x y : Word} {optN optC : Bool} (h : OperandsAre s r op x y)
    (hopt : ¬ (optN = true ∧ optC = true)) :
    exec (.or r optN optC op) s = .next (s.writeGr r (complementIf optN (x ||| complementIf optC y))).advance := by
  rw [exec_or, execOr, needDefinedOption_of hopt, ok_bind, resultOf_of _ h, conclude_ok]

theorem exec_xor_next {s : State} {r : BitVec 4} {op : Operand} {x y : Word} (optN : Bool) (h : OperandsAre s r op x y) :
    exec (.xor r optN op) s = .next (s.writeGr r (complementIf optN (x ^^^ y))).advance := by
  rw [exec_xor, execXor, resultOf_of _ h, conclude_ok]

/-- Settles O32: N complements the result, C the second operand, and both together are refused first. -/
theorem logicResult : Obligations.LogicResult := by
  refine ⟨fun r optN optC op => ⟨encodeOpr_optBits .., encodeOpr_optBits .., encodeOpr_optBits ..⟩,
    fun s r op x y optN optC hop => ⟨fun hopt => ?_, fun hopt => ?_, ?_⟩, fun s r op => ⟨rfl, rfl⟩⟩
  · refine ⟨_, exec_and_next hop hopt, ends_writeGr s r _, ?_⟩
    rw [readGr_written_advance, complementIf_complementIf _ x y hopt]
  · refine ⟨_, exec_or_next hop hopt, ends_writeGr s r _, ?_⟩
    rw [readGr_written_advance, complementIf_complementIf _ x y hopt]
  · refine ⟨_, exec_xor_next optN hop, ends_writeGr s r _, ?_⟩
    rw [readGr_written_advance, complementIf]

/-! ### Comparison -/

theorem condTest_iff (cond : Cond) (a b : Int) : condTest cond a b = true ↔ CondHolds cond a b := by
  cases cond <;> exact decide_eq_true_iff

/-- What a comparison leaves in its result register. -/
theorem readGr_comparison (s : State) (r : BitVec 4) (cond : Cond) (a b : Int) :
    (CondHolds cond a b → (s.writeGr r (truthWord (condTest cond a b))).advance.readGr r = written r 1) ∧
    (¬ CondHolds cond a b → (s.writeGr r (truthWord (condTest cond a b))).advance.readGr r = 0) := by
  rw [readGr_written_advance]
  refine ⟨fun h => ?_, fun h => ?_⟩
  · rw [(condTest_iff cond a b).mpr h]; rfl
  · rw [Bool.eq_false_iff.mpr (mt (condTest_iff cond a b).mp h)]
    exact ite_self 0

/-- Settles O33: CMP compares the operands as signed, CMPU as unsigned integers. -/
theorem compareResult : Obligations.CompareResult := by
  refine ⟨fun r cond op => ⟨rfl, rfl⟩, rfl, fun s r cond op x y hop => ⟨?_, ?_⟩⟩
  · exact ⟨_, by rw [exec_cmp, execCmp, resultOf_of _ hop, conclude_ok, compareSigned], ends_writeGr s r _, readGr_comparison s r cond _ _⟩
  · exact ⟨_, by rw [exec_cmpu, execCmpu, resultOf_of _ hop, conclude_ok, compareUnsigned], ends_writeGr s r _,
      readGr_comparison s r cond _ _⟩

end Sys2Proof.Machine
end

section
/-! PROOFS. The branches with a displacement B, GATE, BE, CBR and CBRU (42_branch.md R251 to R256, R262 to R271). -/

namespace Sys2Proof.Machine

/-! ### The states they leave -/

theorem exec_b_next (s : State) (r : BitVec 4) (ofs : BitVec 22) :
    exec (.b r ofs) s = .next (s.branchTo r s.nextPc (s.psw1 + immTimes4 ofs)) := by
  rw [exec_b, execB, takenBranchTrap_none, conclude_ok]

theorem exec_be_next {s : State} (r : BitVec 4) (ofs : BitVec 14) {a : BitVec 4} (b : BitVec 4) (h : s.pswC = true → a.toNat < 8) :
    exec (.be r ofs a b) s = .next (s.branchExternal r s.nextPc (if s.pswC then s.readSr (a.setWidth 3) else s.pswSeg)
      (s.readGr b + immTimes4 ofs)) := by
  have hok : (!s.pswC || decide (a.toNat < 8)) = true := by
    cases hC : s.pswC with
    | false => rfl
    | true => rw [decide_eq_true (h hC)]; rfl
  rw [exec_be, execBe, hok, needOrRefuse_true, ok_bind, takenBranchTrap_none, conclude_ok]

theorem exec_cbr_next (s : State) (cond : Cond) (ofs : BitVec 16) (a b : BitVec 4) :
    exec (.cbr cond ofs a b) s = .next (s.branchIf (condTest cond (s.readGr a).toInt (s.readGr b).toInt) ofs) := by
  rw [exec_cbr, execCbr, conclude_done, compareSigned]

theorem exec_cbru_next (s : State) (cond : Cond) (ofs : BitVec 16) (a b : BitVec 4) :
    exec (.cbru cond ofs a b) s = .next (s.branchIf (condTest cond (s.readGr a).toNat (s.readGr b).toNat) ofs) := by
  rw [exec_cbru, execCbru, conclude_done, compareUnsigned]

/-- A conditional branch writes the instruction offset only: the target where the condition holds, else the next instruction. -/
theorem branchIf_result (s : State) (cond : Cond) (a b : Int) (ofs : BitVec 16) :
    Keeps (fun _ => False) s (s.branchIf (condTest cond a b) ofs) ∧
    (CondHolds cond a b → (s.branchIf (condTest cond a b) ofs).psw1 = alignOfs (s.psw1 + immTimes4 ofs)) ∧
    (¬ CondHolds cond a b → (s.branchIf (condTest cond a b) ofs).psw1 = alignOfs (s.psw1 + 4)) := by
  refine ⟨keeps_setPc s _, fun h => ?_, fun h => ?_⟩
  · rw [(condTest_iff cond a b).mpr h]; rfl
  · rw [Bool.eq_false_iff.mpr (mt (condTest_iff cond a b).mp h)]; rfl

/-! ### The level after GATE -/

theorem gateLevel_untranslated {s : State} (hC : s.pswC = false) : s.gateLevel = false := by
  rw [State.gateLevel, if_neg (by simp [hC])]

/-- On a translated page GATE goes to the page's PL2 if that is a promotion (R254). -/
theorem gateLevel_translated {s : State} {e : TlbEntry} (hC : s.pswC = true)
    (he : tlbLookup s.itlb s.pswSeg (pageOf s.psw1) = some e) :
    s.gateLevel = if e.rights.type == .gateway && !e.rights.pl2 && s.pswX then e.rights.pl2 else s.pswX := by
  rw [State.gateLevel, if_pos hC, he]

/-! ### The statements -/

/-- Settles O34: a taken branch relative to itself. -/
theorem branchResult : Obligations.BranchResult := by
  intro s r ofs
  exact ⟨_, exec_b_next s r ofs, keeps_branchTo s r _ _, readGr_branchTo_link .., State.branchTo_psw1 ..⟩

/-- Settles O35: a taken branch after the change of level, the old level as its link. -/
theorem gateResult : Obligations.GateResult := by
  intro s r ofs
  refine ⟨_, (exec_gate r ofs s).trans (execGate_next r ofs s), ?_, readGr_branchTo_link .., State.branchTo_psw1 .., fun hC => ?_,
    fun e hC he => ⟨fun hgate => ?_, fun hgate => ?_⟩⟩
  · exact ((keeps_setX s _).seq (keeps_branchTo _ r _ _)).mono fun p hp => hp.symm
  · rw [pswX_setX_branchTo, gateLevel_untranslated hC]
  · obtain ⟨htype, hpl2⟩ := hgate
    rw [pswX_setX_branchTo, gateLevel_translated hC he, htype, hpl2]
    cases s.pswX <;> rfl
  · have hno : (e.rights.type == .gateway && !e.rights.pl2) = false := by
      rw [← Bool.not_eq_true, Bool.and_eq_true, beq_iff_eq, Bool.not_eq_true']
      exact hgate
    rw [pswX_setX_branchTo, gateLevel_translated hC he, hno]
    rfl

/-- Settles O37: an external branch to the segment that PSW.C chooses. -/
theorem branchExternalResult : Obligations.BranchExternalResult := by
  intro s r a b ofs ha
  refine ⟨_, exec_be_next r ofs b ha, keeps_branchExternal s r _ _ _, readGr_branchExternal_link .., readSr_zero_branchExternal ..,
    fun hC => ?_, fun hC => ?_, State.branchExternal_psw1 ..⟩
  · rw [pswSeg_branchExternal, if_pos hC]
  · rw [pswSeg_branchExternal, if_neg (by simp [hC])]

/-- Settles O39: CBR tests the registers as signed, CBRU as unsigned integers. -/
theorem conditionalBranchResult : Obligations.ConditionalBranchResult := by
  intro s cond ofs a b
  exact ⟨⟨_, exec_cbr_next s cond ofs a b, branchIf_result s cond _ _ ofs⟩,
    ⟨_, exec_cbru_next s cond ofs a b, branchIf_result s cond _ _ ofs⟩⟩

end Sys2Proof.Machine
end

section
/-! PROOFS. The memory reference instructions LD, ST, LDA, STA, LDR and STC where they complete, and the alignment trap of LDA and STA
(40_memory_reference.md R201 to R223). -/

namespace Sys2Proof.Machine

/-! ### Addresses -/

theorem displacement_eq_displacementOf (s : State) (disp : Disp) : s.displacement disp = displacementOf s disp := by
  cases disp <;> rfl

/-- The offset is the base plus the displacement, but under M with a displacement that is not negative (R201). -/
theorem memOffset_eq (s : State) (optM : Bool) (disp : Disp) (b : BitVec 4) :
    s.memOffset optM disp b =
      if optM = false ∨ (displacementOf s disp).toInt < 0 then s.readGr b + displacementOf s disp else s.readGr b := by
  unfold State.memOffset
  rw [displacement_eq_displacementOf]
  simp only [Bool.or_eq_true, Bool.not_eq_true', flag_zero_iff]

/-- A word as a physical address is the same number. -/
theorem toNat_setWidth_word (w : Word) : (w.setWidth 34 : PAddr).toNat = w.toNat := by
  rw [BitVec.toNat_setWidth]
  exact Nat.mod_eq_of_lt (lt_trans w.isLt (by decide))

/-! ### The base update -/

section
variable (s old : State) (optM : Bool) (disp : Disp) (b : BitVec 4)

@[simp] theorem updateBase_psw1 : (s.updateBase old optM disp b).psw1 = s.psw1 := by cases optM <;> rfl
@[simp] theorem updateBase_mem : (s.updateBase old optM disp b).mem = s.mem := by cases optM <;> rfl
@[simp] theorem updateBase_iOld : (s.updateBase old optM disp b).iOld = s.iOld := by cases optM <;> rfl
@[simp] theorem updateBase_dOld : (s.updateBase old optM disp b).dOld = s.dOld := by cases optM <;> rfl
@[simp] theorem updateBase_lrValid : (s.updateBase old optM disp b).lrValid = s.lrValid := by cases optM <;> rfl
@[simp] theorem updateBase_lrAddr : (s.updateBase old optM disp b).lrAddr = s.lrAddr := by cases optM <;> rfl

theorem readGr_updateBase {optM : Bool} (hM : optM = true) :
    (s.updateBase old optM disp b).readGr b = written b (old.newBase disp b) := by
  rw [State.updateBase, if_pos hM, readGr_written]
end

/-! ### The end of a load and of a store -/

/-- A load writes its target, and under M the base unless it is the target (R203). -/
theorem finishLoad_result (s : State) (r : BitVec 4) (optM : Bool) (disp : Disp) (b : BitVec 4) (v : Word) :
    (s.finishLoad r optM disp b v).readGr r = written r v ∧
    (optM = true → b ≠ r → (s.finishLoad r optM disp b v).readGr b = written b (s.newBase disp b)) ∧
    Ends (fun p => isGr r p ∨ (optM = true ∧ isGr b p)) s (s.finishLoad r optM disp b v) := by
  refine ⟨readGr_written_advance _ r v, fun hM hbr => ?_, keeps_finishLoad s r optM disp b v, ?_⟩
  · have hupdate : (optM && b != r) = true := by rw [hM, Bool.true_and, bne_iff_ne]; exact hbr
    rw [State.finishLoad, readGr_advance, readGr_writeGr_other _ v hbr, readGr_updateBase _ _ _ _ hupdate]
  · rw [State.finishLoad, State.advance_psw1, State.writeGr_psw1, updateBase_psw1]
    rfl

/-- What `Stored` says of a state depends on memory and on the cache histories only. -/
theorem Stored.congr {s t u : State} {pa : PAddr} {n : Size} {v : Word} (h : Stored s t pa n v) (hmem : u.mem = t.mem)
    (hi : u.iOld = t.iOld) (hd : u.dOld = t.dOld) : Stored s u pa n v where
  bytes := by rw [hmem]; exact h.bytes
  others := by rw [hmem]; exact h.others
  instrCache := hi.trans h.instrCache
  dataCache := hd.trans h.dataCache

/-- A store keeps a reservation of another word only (R223). -/
theorem lrValid_store_iff (s : State) (pa : PAddr) (n : Size) (v : Word) :
    (s.store pa n v).lrValid = true ↔ s.lrValid = true ∧ wordAddr pa ≠ s.lrAddr := by
  rw [State.store_lrValid, Bool.and_eq_true, Bool.not_eq_true', beq_eq_false_iff_ne]

/-- A store writes its bytes and under M the base, and ends a reservation of the word (R206, R223). -/
theorem finishStore_result (s : State) (pa : PAddr) (n : Size) (v : Word) (optM : Bool) (disp : Disp) (b : BitVec 4) :
    let t := s.finishStore (s.store pa n v) optM disp b
    Stored s t pa n v ∧ (optM = true → t.readGr b = written b (s.newBase disp b)) ∧ t.lrAddr = s.lrAddr ∧
    (t.lrValid = true ↔ s.lrValid = true ∧ wordAddr pa ≠ s.lrAddr) ∧
    Ends (fun p => isStorePart pa n p ∨ (optM = true ∧ isGr b p)) s t := by
  refine ⟨?_, fun hM => ?_, ?_, ?_, keeps_finishStore s pa n v optM disp b, ?_⟩
  · exact (store_stored s pa n v).congr (updateBase_mem ..) (updateBase_iOld ..) (updateBase_dOld ..)
  · rw [State.finishStore, readGr_advance, readGr_updateBase _ _ _ _ hM]
  · exact updateBase_lrAddr ..
  · rw [State.finishStore, State.advance_lrValid, updateBase_lrValid, lrValid_store_iff]
  · rw [State.finishStore, State.advance_psw1, updateBase_psw1, State.store_psw1]
    rfl

/-- The parts of a store, in the form of the statements. -/
theorem isStorePart_or_iff {pa : PAddr} {n : Size} {p : Part} {q : Prop} : (isStorePart pa n p ∨ q) ↔
    ((∃ a, inStore pa.toNat n a ∧ p = .mem a) ∨ p = .instrCache ∨ p = .dataCache ∨ p = .reservation ∨ q) := by
  unfold isStorePart
  rw [or_assoc, or_assoc, or_assoc]

/-! ### The states they leave -/

theorem exec_ld_next {s : State} {optM : Bool} {seg : BitVec 2} {dw : Width} {disp : Disp} {b : BitVec 4} {n : Size} {pa : PAddr}
    {v : Word} (r : BitVec 4) (hn : widthSize dw = some n)
    (hr : Reads s (s.dataSeg (segReg seg (s.memOffset optM disp b))) (s.memOffset optM disp b) n pa v) :
    exec (.ld r optM seg dw disp b) s = .next (s.finishLoad r optM disp b v) := by
  rw [exec_ld, execLd, accessSize_of _ hn, ok_bind]
  dsimp only
  rw [dataRead_of_reads _ hr, ok_bind, conclude_ok]

theorem exec_st_next {s : State} {optM : Bool} {seg : BitVec 2} {dw : Width} {disp : Disp} {b : BitVec 4} {n : Size} {pa : PAddr}
    (r : BitVec 4) (hn : widthSize dw = some n)
    (hw : Writes s (s.dataSeg (segReg seg (s.memOffset optM disp b))) (s.memOffset optM disp b) n pa) :
    exec (.st r optM seg dw disp b) s = .next (s.finishStore (s.store pa n (s.readGr r)) optM disp b) := by
  rw [exec_st, execSt, accessSize_of _ hn, ok_bind]
  dsimp only
  rw [dataWrite_of_writes _ _ hw, ok_bind, conclude_done]

theorem absoluteAddress_aligned (instr : Word) {ofs : Word} (h : ofs.toNat % 4 = 0) :
    absoluteAddress instr ofs = .ok (ofs.setWidth 34) := by
  have hok : (ofs.toNat % 4 != 0) = false := by rw [h]; rfl
  rw [absoluteAddress, hok, trapIf_false, ok_bind]

theorem absoluteAddress_misaligned (instr : Word) {ofs : Word} (h : ofs.toNat % 4 ≠ 0) :
    absoluteAddress instr ofs = .error (.trap (dataTrap .alignment instr 0 ofs)) := by
  rw [absoluteAddress, bne_iff_ne.mpr h, trapIf_true, error_bind]

theorem physRead_of_holds {s : State} {pa : PAddr} {n : Size} {v : Word} (hm : region pa = .memory) (h : Holds s.mem pa.toNat n v) :
    physRead s pa n = .ok v := by
  rw [physRead, needMemory_of hm, ok_bind, memRead_of_holds h]

section
variable {s : State} {optM : Bool} {disp : Disp} {b : BitVec 4} (r : BitVec 4) (hx : s.pswX = false)
include hx

theorem exec_lda_next {v : Word} (ha : (s.memOffset optM disp b).toNat % 4 = 0)
    (hm : region ((s.memOffset optM disp b).setWidth 34) = .memory) (hv : Holds s.mem (s.memOffset optM disp b).toNat .word v) :
    exec (.lda r optM disp b) s = .next (s.finishLoad r optM disp b v) := by
  rw [← toNat_setWidth_word] at hv
  rw [exec_lda, execLda, conclude_needPrivilege_privileged hx, absoluteAddress_aligned _ ha, ok_bind, physRead_of_holds hm hv, ok_bind,
    conclude_done]

theorem exec_sta_next (ha : (s.memOffset optM disp b).toNat % 4 = 0)
    (hm : region ((s.memOffset optM disp b).setWidth 34) = .memory) :
    exec (.sta r optM disp b) s =
      .next (s.finishStore (s.store ((s.memOffset optM disp b).setWidth 34) .word (s.readGr r)) optM disp b) := by
  rw [exec_sta, execSta, conclude_needPrivilege_privileged hx, absoluteAddress_aligned _ ha, ok_bind, physWrite_of_memory _ _ hm,
    ok_bind, conclude_done]
end

theorem exec_ldr_next {s : State} {seg : BitVec 2} {ofs : BitVec 12} {b : BitVec 4} {pa : PAddr} {v : Word} (r : BitVec 4)
    (hr : Reads s (s.dataSeg (segReg seg (s.readGr b + imm ofs))) (s.readGr b + imm ofs) .word pa v) :
    exec (.ldr r seg ofs b) s = .next ((s.writeGr r v).reserve pa).advance := by
  rw [exec_ldr, execLdr]
  dsimp only
  rw [dataRead_of_reads _ hr, ok_bind, conclude_ok]

/-- What STC leaves where it stores nothing. -/
def State.failedStore (s : State) (r : BitVec 4) : State := ((s.writeGr r 1).dropReservation).advance

/-- What STC leaves where it stores (R222). -/
def State.conditionalStore (s : State) (r : BitVec 4) (pa : PAddr) : State :=
  (((s.store pa .word (s.readGr r)).writeGr r 0).dropReservation).advance

theorem exec_stc_unreserved {s : State} (hv : s.lrValid = false) (r : BitVec 4) (seg : BitVec 2) (ofs : BitVec 12) (b : BitVec 4) :
    exec (.stc r seg ofs b) s = .next (s.failedStore r) := by
  rw [exec_stc, execStc, if_neg (by simp [hv]), conclude_done, State.failedStore]

section
variable {s : State} {seg : BitVec 2} {ofs : BitVec 12} {b : BitVec 4} {pa : PAddr} (r : BitVec 4) (hv : s.lrValid = true)
  (h : Reaches s true (s.dataSeg (segReg seg (s.readGr b + imm ofs))) (s.readGr b + imm ofs) .word pa)
include hv h

theorem exec_stc_other (hpa : pa ≠ s.lrAddr) : exec (.stc r seg ofs b) s = .next (s.failedStore r) := by
  have hne : (pa == s.lrAddr) = false := beq_eq_false_iff_ne.mpr hpa
  rw [exec_stc, execStc, if_pos hv]
  dsimp only
  rw [dataAddress_of_reaches _ h, ok_bind]
  dsimp only
  rw [hne, if_neg (by decide), conclude_done, State.failedStore]

theorem exec_stc_same (hpa : pa = s.lrAddr) (hm : region pa = .memory) :
    exec (.stc r seg ofs b) s = .next (s.conditionalStore r pa) := by
  rw [exec_stc, execStc, if_pos hv]
  dsimp only
  rw [dataAddress_of_reaches _ h, ok_bind]
  dsimp only
  rw [if_pos (beq_iff_eq.mpr hpa), physWrite_of_memory _ _ hm, ok_bind, conclude_done, State.conditionalStore]
end

theorem ends_failedStore (s : State) (r : BitVec 4) : Ends (fun p => isGr r p ∨ p = .reservation) s (s.failedStore r) :=
  ⟨((keeps_writeGr s r 1).seq (keeps_dropReservation _)).advance, rfl⟩

/-- Without a reservation there is none to end. -/
theorem ends_failedStore_unreserved {s : State} (hv : s.lrValid = false) (r : BitVec 4) : Ends (isGr r) s (s.failedStore r) := by
  refine ⟨fun p hp hpc => ?_, rfl⟩
  by_cases hres : p = .reservation
  · subst hres
    exact ⟨hv.symm, rfl⟩
  · exact (ends_failedStore s r).1 p (fun h => h.elim hp hres) hpc

/-! ### The statements -/

/-- Settles O40: the rule for the address, and the end of a load. -/
theorem loadResult : Obligations.LoadResult := by
  refine ⟨fun s optM disp b => ⟨memOffset_eq s optM disp b, ?_⟩, fun s r b optM seg dw disp n pa v hn hr => ?_⟩
  · rw [State.newBase, displacement_eq_displacementOf]
  · exact ⟨_, exec_ld_next r hn hr, finishLoad_result s r optM disp b v⟩

/-- Settles O41: the end of a store. -/
theorem storeResult : Obligations.StoreResult := by
  intro s r b optM seg dw disp n pa hn hw
  obtain ⟨hstored, hbase, haddr, hvalid, hends⟩ := finishStore_result s pa n (s.readGr r) optM disp b
  exact ⟨_, exec_st_next r hn hw, hstored, hbase, haddr, hvalid, hends.mono fun _ => isStorePart_or_iff.mp⟩

/-- Settles O42: the same ends, at the physical address. -/
theorem absoluteAccessResult : Obligations.AbsoluteAccessResult := by
  intro s r b optM disp hx ha hm
  refine ⟨fun v hv => ⟨_, exec_lda_next r hx ha hm hv, finishLoad_result s r optM disp b v⟩, ?_⟩
  have hword : wordAddr ((s.memOffset optM disp b).setWidth 34) = (s.memOffset optM disp b).setWidth 34 :=
    wordAddr_of_aligned (by rw [toNat_setWidth_word]; exact ha)
  obtain ⟨hstored, hbase, haddr, hvalid, hends⟩ :=
    finishStore_result s ((s.memOffset optM disp b).setWidth 34) .word (s.readGr r) optM disp b
  rw [hword] at hvalid
  rw [← toNat_setWidth_word (s.memOffset optM disp b)]
  exact ⟨_, exec_sta_next r hx ha hm, hstored, hbase, haddr, hvalid, hends.mono fun _ => isStorePart_or_iff.mp⟩

/-- Settles O43: a load that reserves where it read. -/
theorem loadReserveResult : Obligations.LoadReserveResult := by
  intro s r b seg ofs pa v hr
  exact ⟨_, exec_ldr_next r hr, readGr_written s r v, rfl, rfl, ((keeps_writeGr s r v).seq (keeps_reserve _ pa)).advance, rfl⟩

/-- Settles O44: STC fails without a reservation and on another word, and stores on the reserved one. -/
theorem storeConditionalResult : Obligations.StoreConditionalResult := by
  intro s r b seg ofs
  refine ⟨fun hv => ?_, fun pa hv hreach => ⟨fun hpa => ?_, fun hpa hm => ?_⟩⟩
  · exact ⟨_, exec_stc_unreserved hv r seg ofs b, readGr_written s r 1, ends_failedStore_unreserved hv r⟩
  · exact ⟨_, exec_stc_other r hv hreach hpa, readGr_written s r 1, rfl, ends_failedStore s r⟩
  · refine ⟨_, exec_stc_same r hv hreach hpa hm, ?_, rfl, (store_stored s pa .word _).congr rfl rfl rfl, ?_, rfl⟩
    · exact (readGr_written _ r 0).trans (ite_self 0)
    · refine (((keeps_store s pa .word _).seq (keeps_writeGr _ r 0)).seq (keeps_dropReservation _)).advance.mono fun p hp => ?_
      obtain ((hmem | hi | hd | hres) | hgr) | hres := hp
      · exact .inr (.inr (.inl hmem))
      · exact .inr (.inr (.inr (.inl hi)))
      · exact .inr (.inr (.inr (.inr hd)))
      · exact .inr (.inl hres)
      · exact .inl hgr
      · exact .inr (.inl hres)

/-- A trap with the instruction word, a segment id and an offset as parameters. -/
theorem traps_dataTrap (s : State) (id : TrapId) (w : Word) (seg : SegId) (ofs : Word) :
    Traps (.next (s.takeTrap (dataTrap id w seg ofs))) s (trapNumber id) (some w) (some (seg.setWidth 32)) (some ofs) :=
  ⟨_, rfl, trapEntered_takeTrap s (dataTrap id w seg ofs)⟩

/-- Settles O47: the alignment is tested before the access. -/
theorem absoluteAlignmentTraps : Obligations.AbsoluteAlignmentTraps := by
  intro s r b optM disp hx ha
  constructor
  · rw [exec_lda, execLda, conclude_needPrivilege_privileged hx, absoluteAddress_misaligned _ ha, error_bind, conclude_trap]
    exact traps_dataTrap s .alignment _ 0 _
  · rw [exec_sta, execSta, conclude_needPrivilege_privileged hx, absoluteAddress_misaligned _ ha, error_bind, conclude_trap]
    exact traps_dataTrap s .alignment _ 0 _

end Sys2Proof.Machine
end

section
/-! PROOFS. Data accesses that do not complete, for every instruction that makes one: the traps in their order, the refusals, the bytes
without a value, the reserved width (20_memory.md R76, R85, R100 to R108). -/

namespace Sys2Proof.Machine

/-! ### The address of a data access -/

section
variable {s : State} {write : Bool} {seg : SegId} {ofs : Word} {n : Size} (instr : Word)

theorem dataAddress_misaligned (h : ofs.toNat % n.bytes ≠ 0) :
    dataAddress instr write seg ofs n s = .error (.trap (dataTrap .alignment instr seg ofs)) := by
  rw [dataAddress, bne_iff_ne.mpr h, trapIf_true, error_bind]

theorem dataAddress_miss (ha : ofs.toNat % n.bytes = 0) (hD : s.pswD = true) (he : tlbLookup s.dtlb seg (pageOf ofs) = none) :
    dataAddress instr write seg ofs n s = .error (.trap (dataTrap .dataTlbMiss instr seg ofs)) := by
  have hok : (ofs.toNat % n.bytes != 0) = false := by rw [ha]; rfl
  rw [dataAddress, hok, trapIf_false, ok_bind, if_pos hD, he]

theorem dataAddress_entry {e : TlbEntry} {stop : Stop} (ha : ofs.toNat % n.bytes = 0) (hD : s.pswD = true)
    (he : tlbLookup s.dtlb seg (pageOf ofs) = some e) (hstop : entryChecks instr write seg ofs s e = .error stop) :
    dataAddress instr write seg ofs n s = .error stop := by
  have hok : (ofs.toNat % n.bytes != 0) = false := by rw [ha]; rfl
  rw [dataAddress, hok, trapIf_false, ok_bind, if_pos hD, he]
  dsimp only
  rw [hstop, error_bind]
end

/-! ### The checks of an entry, in their order -/

/-- The access rights of an entry let the access through (R104). -/
abbrev RightsAllow (s : State) (write : Bool) (e : TlbEntry) : Prop :=
  (if write then writeAllowed e.rights s.pswX else readAllowed e.rights s.pswX) = true

section
variable {s : State} {write : Bool} {seg : SegId} {ofs : Word} {e : TlbEntry} (instr : Word)

theorem entryChecks_rights (h : (if write then writeAllowed e.rights s.pswX else readAllowed e.rights s.pswX) = false) :
    entryChecks instr write seg ofs s e = .error (.trap (dataTrap .dataAccessRights instr seg ofs)) := by
  rw [entryChecks, h, Bool.not_false, trapIf_true, error_bind]

variable (hrights : RightsAllow s write e)
include hrights

theorem entryChecks_pid (h : s.pidRefuses e seg = true) :
    entryChecks instr write seg ofs s e = .error (.trap (dataTrap .dataProtection instr seg ofs)) := by
  rw [entryChecks, hrights, Bool.not_true, trapIf_false, ok_bind, h, trapIf_true, error_bind]

variable (hpid : s.pidRefuses e seg = false)
include hpid

theorem entryChecks_reference (h : e.refTrap = true) :
    entryChecks instr write seg ofs s e = .error (.trap (dataTrap .pageReference instr seg ofs)) := by
  rw [entryChecks, hrights, Bool.not_true, trapIf_false, ok_bind, hpid, trapIf_false, ok_bind, h, trapIf_true, error_bind]

variable (href : e.refTrap = false)
include href

theorem entryChecks_dirty (hw : write = true) (h : e.dirtyTrap = true) :
    entryChecks instr write seg ofs s e = .error (.refuse .dirtyFlag) := by
  have hdirty : dirtyCheck instr write seg ofs e = .error (.refuse .dirtyFlag) := by rw [dirtyCheck, hw, h]; rfl
  rw [entryChecks, hrights, Bool.not_true, trapIf_false, ok_bind, hpid, trapIf_false, ok_bind, href, trapIf_false, ok_bind, hdirty,
    error_bind]

theorem entryChecks_dataReference (hw : write = true → e.dirtyTrap = false) (h : e.dataTrap = true) :
    entryChecks instr write seg ofs s e = .error (.refuse .dataReferenceFlag) := by
  have hclean : (write && e.dirtyTrap) = false := by
    cases hwrite : write with
    | false => rfl
    | true => rw [hw hwrite]; rfl
  have hdirty : dirtyCheck instr write seg ofs e = .ok () := by rw [dirtyCheck, hclean]; rfl
  have hdata : dataRefCheck instr write seg ofs e = .error (.refuse .dataReferenceFlag) := by rw [dataRefCheck, h]; rfl
  rw [entryChecks, hrights, Bool.not_true, trapIf_false, ok_bind, hpid, trapIf_false, ok_bind, href, trapIf_false, ok_bind, hdirty,
    ok_bind, hdata]
end

/-! ### Reads and stores that stop -/

section
variable {s : State} {seg : SegId} {ofs : Word} {n : Size} {instr : Word} {stop : Stop}

theorem dataRead_of_address_stop (h : dataAddress instr false seg ofs n s = .error stop) :
    dataRead instr seg ofs n s = .error stop := by
  rw [dataRead, h, error_bind]

theorem dataWrite_of_address_stop (v : Word) (h : dataAddress instr true seg ofs n s = .error stop) :
    dataWrite instr seg ofs n v s = .error stop := by
  rw [dataWrite, h, error_bind]

theorem dataRead_of_memory_stop {pa : PAddr} (hr : Reaches s false seg ofs n pa) (h : physRead s pa n = .error stop) :
    dataRead instr seg ofs n s = .error stop := by
  rw [dataRead, dataAddress_of_reaches instr hr, ok_bind, h, error_bind]

theorem dataWrite_of_memory_stop {pa : PAddr} {v : Word} (hr : Reaches s true seg ofs n pa) (h : physWrite s pa n v = .error stop) :
    dataWrite instr seg ofs n v s = .error stop := by
  rw [dataWrite, dataAddress_of_reaches instr hr, ok_bind, h]
end

theorem needMemory_ioSpace {pa : PAddr} (h : region pa = .ioSpace) : needMemory pa = .error (.refuse .ioSpace) := by
  rw [needMemory, h]

theorem physRead_ioSpace (s : State) {pa : PAddr} (n : Size) (h : region pa = .ioSpace) :
    physRead s pa n = .error (.refuse .ioSpace) := by
  rw [physRead, needMemory_ioSpace h, error_bind]

theorem physWrite_ioSpace (s : State) {pa : PAddr} (n : Size) (v : Word) (h : region pa = .ioSpace) :
    physWrite s pa n v = .error (.refuse .ioSpace) := by
  rw [physWrite, needMemory_ioSpace h, error_bind]

theorem physRead_unwritten {s : State} {pa : PAddr} {n : Size} (hm : region pa = .memory)
    (h : ∃ k < n.bytes, memByte s.mem (pa.toNat + k) = none) : physRead s pa n = .error (.fault .unwrittenMemory) := by
  rw [physRead, needMemory_of hm, ok_bind, memRead_of_missing h]

/-! ### Operands that are not there -/

/-- The result register and the operand of an operand-format instruction; none for AND and OR with both N and C, which stop before
the operand is fetched (43_computational_operand.md R303). -/
def fetchedOperand : Instr → Option (BitVec 4 × Operand)
  | .add r _ _ op | .adc r _ _ op | .sub r _ _ op | .sbc r _ _ op | .xor r _ op | .cmp r _ op | .cmpu r _ op => some (r, op)
  | .and r optN optC op | .or r optN optC op => if optN && optC then none else some (r, op)
  | _ => none

/-- An operand that cannot be fetched stops its instruction. -/
theorem exec_of_operands_stop {i : Instr} {s : State} {r : BitVec 4} {op : Operand} {stop : Stop}
    (hi : fetchedOperand i = some (r, op)) (h : operands (encode i) r op s = .error stop) :
    exec i s = conclude (encode i) s (.error stop) := by
  cases i with
  | add => cases hi; rw [exec_add, execAdd, addWith, h, error_bind]
  | adc => cases hi; rw [exec_adc, execAdc, addWith, h, error_bind]
  | sub => cases hi; rw [exec_sub, execSub, subWith, h, error_bind]
  | sbc => cases hi; rw [exec_sbc, execSbc, subWith, h, error_bind]
  | xor => cases hi; rw [exec_xor, execXor, resultOf, h, error_bind]
  | cmp => cases hi; rw [exec_cmp, execCmp, resultOf, h, error_bind]
  | cmpu => cases hi; rw [exec_cmpu, execCmpu, resultOf, h, error_bind]
  | and r optN optC op =>
    obtain ⟨hopt, hrop⟩ := Option.ite_none_left_eq_some.mp hi
    cases hrop
    rw [exec_and, execAnd, needDefinedOption_of (by rwa [Bool.and_eq_true] at hopt), ok_bind, resultOf, h, error_bind]
  | or r optN optC op =>
    obtain ⟨hopt, hrop⟩ := Option.ite_none_left_eq_some.mp hi
    cases hrop
    rw [exec_or, execOr, needDefinedOption_of (by rwa [Bool.and_eq_true] at hopt), ok_bind, resultOf, h, error_bind]
  | _ => cases hi

/-- The access of a memory operand is a read, and where it stops the operand is not there. -/
theorem operands_of_read_stop {s : State} {op : Operand} {write : Bool} {seg : SegId} {ofs : Word} {n : Size} (instr : Word)
    (r : BitVec 4) (h : operandAccess s op = some (write, seg, ofs, n)) :
    write = false ∧ ∀ stop, dataRead instr seg ofs n s = .error stop → operands instr r op s = .error stop := by
  have key : ∀ dw x, (widthSize dw).map (fun n => (false, s.dataSeg (segSelect x), x, n)) = some (write, seg, ofs, n) →
      write = false ∧ ∀ stop, dataRead instr seg ofs n s = .error stop → memOperand instr r dw x s = .error stop := by
    intro dw x hmap
    obtain ⟨m, hm, heq⟩ := Option.map_eq_some_iff.mp hmap
    cases heq
    refine ⟨rfl, fun stop hstop => ?_⟩
    rw [memOperand, accessSize_of instr hm, ok_bind, hstop, error_bind]
  cases op with
  | imm val => cases h
  | reg a b => cases h
  | indexed dw a b => exact key dw _ h
  | disp dw x b => exact key dw _ h

/-! ### The access of an instruction -/

/-- The instructions that make a data access: those with a memory operand, LD, ST, LDR, and STC with a reservation. -/
theorem accessOf_cases {i : Instr} {s : State} {write : Bool} {seg : SegId} {ofs : Word} {n : Size}
    (h : accessOf s i = some (write, seg, ofs, n)) :
    (∃ r op, fetchedOperand i = some (r, op) ∧ operandAccess s op = some (write, seg, ofs, n)) ∨
    (∃ r optM f dw disp b, i = .ld r optM f dw disp b ∧ write = false ∧ widthSize dw = some n ∧
      ofs = s.memOffset optM disp b ∧ seg = s.dataSeg (segReg f ofs)) ∨
    (∃ r optM f dw disp b, i = .st r optM f dw disp b ∧ write = true ∧ widthSize dw = some n ∧
      ofs = s.memOffset optM disp b ∧ seg = s.dataSeg (segReg f ofs)) ∨
    (∃ r f d b, i = .ldr r f d b ∧ write = false ∧ n = .word ∧ ofs = s.readGr b + imm d ∧ seg = s.dataSeg (segReg f ofs)) ∨
    (∃ r f d b, i = .stc r f d b ∧ s.lrValid = true ∧ write = true ∧ n = .word ∧ ofs = s.readGr b + imm d ∧
      seg = s.dataSeg (segReg f ofs)) := by
  cases i with
  | add r x y op | adc r x y op | sub r x y op | sbc r x y op => exact .inl ⟨r, op, rfl, h⟩
  | xor r x op => exact .inl ⟨r, op, rfl, h⟩
  | cmp r x op | cmpu r x op => exact .inl ⟨r, op, rfl, h⟩
  | and r x y op | or r x y op =>
    obtain ⟨hopt, h⟩ := Option.ite_none_left_eq_some.mp h
    exact .inl ⟨r, op, if_neg hopt, h⟩
  | ld r optM f dw disp b =>
    obtain ⟨m, hm, heq⟩ := Option.map_eq_some_iff.mp h
    cases heq
    exact .inr (.inl ⟨r, optM, f, dw, disp, b, rfl, rfl, hm, rfl, rfl⟩)
  | st r optM f dw disp b =>
    obtain ⟨m, hm, heq⟩ := Option.map_eq_some_iff.mp h
    cases heq
    exact .inr (.inr (.inl ⟨r, optM, f, dw, disp, b, rfl, rfl, hm, rfl, rfl⟩))
  | ldr r f d b =>
    cases h
    exact .inr (.inr (.inr (.inl ⟨r, f, d, b, rfl, rfl, rfl, rfl, rfl⟩)))
  | stc r f d b =>
    obtain ⟨hv, h⟩ := Option.ite_none_right_eq_some.mp h
    cases h
    exact .inr (.inr (.inr (.inr ⟨r, f, d, b, rfl, hv, rfl, rfl, rfl, rfl⟩)))
  | _ => cases h

/-- A read that stops ends its instruction, with nothing done. -/
theorem exec_of_read_stop {i : Instr} {s : State} {seg : SegId} {ofs : Word} {n : Size} {stop : Stop}
    (h : accessOf s i = some (false, seg, ofs, n)) (hstop : dataRead (encode i) seg ofs n s = .error stop) :
    exec i s = conclude (encode i) s (.error stop) := by
  obtain ⟨r, op, hi, hop⟩ | ⟨r, optM, f, dw, disp, b, rfl, -, hn, rfl, rfl⟩ | ⟨_, _, _, _, _, _, -, hw, -⟩ |
    ⟨r, f, d, b, rfl, -, rfl, rfl, rfl⟩ | ⟨_, _, _, _, -, -, hw, -⟩ := accessOf_cases h
  · exact exec_of_operands_stop hi ((operands_of_read_stop _ r hop).2 stop hstop)
  · rw [exec_ld, execLd, accessSize_of _ hn, ok_bind]
    dsimp only
    rw [hstop, error_bind]
  · cases hw
  · rw [exec_ldr, execLdr]
    dsimp only
    rw [hstop, error_bind]
  · cases hw

/-- An address that is refused or traps ends its instruction, with nothing done. -/
theorem exec_of_address_stop {i : Instr} {s : State} {write : Bool} {seg : SegId} {ofs : Word} {n : Size} {stop : Stop}
    (h : accessOf s i = some (write, seg, ofs, n)) (hstop : dataAddress (encode i) write seg ofs n s = .error stop) :
    exec i s = conclude (encode i) s (.error stop) := by
  cases write with
  | false => exact exec_of_read_stop h (dataRead_of_address_stop hstop)
  | true =>
    obtain ⟨r, op, hi, hop⟩ | ⟨_, _, _, _, _, _, -, hw, -⟩ | ⟨r, optM, f, dw, disp, b, rfl, -, hn, rfl, rfl⟩ |
      ⟨_, _, _, _, -, hw, -⟩ | ⟨r, f, d, b, rfl, hv, -, rfl, rfl, rfl⟩ := accessOf_cases h
    · cases (operands_of_read_stop (encode i) r hop).1
    · cases hw
    · rw [exec_st, execSt, accessSize_of _ hn, ok_bind]
      dsimp only
      rw [dataWrite_of_address_stop _ hstop, error_bind]
    · cases hw
    · rw [exec_stc, execStc, if_pos hv]
      dsimp only
      rw [hstop, error_bind]

/-- A store to the I/O space is refused, that of STC where it would be done. -/
theorem exec_of_store_ioSpace {i : Instr} {s : State} {seg : SegId} {ofs : Word} {n : Size} {pa : PAddr}
    (h : accessOf s i = some (true, seg, ofs, n)) (hr : Reaches s true seg ofs n pa) (hio : region pa = .ioSpace)
    (hstc : (∃ r f d b, i = .stc r f d b) → pa = s.lrAddr) : exec i s = .refused .ioSpace := by
  obtain ⟨r, op, hi, hop⟩ | ⟨_, _, _, _, _, _, -, hw, -⟩ | ⟨r, optM, f, dw, disp, b, rfl, -, hn, rfl, rfl⟩ |
    ⟨_, _, _, _, -, hw, -⟩ | ⟨r, f, d, b, rfl, hv, -, rfl, rfl, rfl⟩ := accessOf_cases h
  · cases (operands_of_read_stop (encode i) r hop).1
  · cases hw
  · rw [exec_st, execSt, accessSize_of _ hn, ok_bind]
    dsimp only
    rw [dataWrite_of_memory_stop hr (physWrite_ioSpace s n _ hio), error_bind, conclude_refuse]
  · cases hw
  · rw [exec_stc, execStc, if_pos hv]
    dsimp only
    rw [dataAddress_of_reaches _ hr, ok_bind]
    dsimp only
    rw [if_pos (beq_iff_eq.mpr (hstc ⟨r, f, d, b, rfl⟩)), physWrite_ioSpace s _ _ hio, error_bind, conclude_refuse]

/-- An access whose address traps takes that trap, with the instruction word, the segment id and the offset as parameters. -/
theorem traps_of_address_trap {i : Instr} {s : State} {write : Bool} {seg : SegId} {ofs : Word} {n : Size} {id : TrapId}
    (h : accessOf s i = some (write, seg, ofs, n))
    (hstop : dataAddress (encode i) write seg ofs n s = .error (.trap (dataTrap id (encode i) seg ofs))) :
    Traps (exec i s) s (trapNumber id) (some (encode i)) (some (seg.setWidth 32)) (some ofs) := by
  rw [exec_of_address_stop h hstop, conclude_trap]
  exact traps_dataTrap s id _ seg ofs

/-! ### The statements -/

/-- Settles O45: each check is reached when those before it pass. -/
theorem dataAccessTraps : Obligations.DataAccessTraps := by
  intro i s write seg ofs n h
  refine ⟨fun ha => ?_, fun ha hD he => ?_, fun e ha hD he => ⟨fun hrights => ?_, fun hrights hpid => ?_, fun hrights hpid href => ?_⟩⟩
  · exact traps_of_address_trap h (dataAddress_misaligned _ ha)
  · exact traps_of_address_trap h (dataAddress_miss _ ha hD he)
  · exact traps_of_address_trap h (dataAddress_entry _ ha hD he (entryChecks_rights _ hrights))
  · exact traps_of_address_trap h (dataAddress_entry _ ha hD he (entryChecks_pid _ hrights hpid))
  · exact traps_of_address_trap h (dataAddress_entry _ ha hD he (entryChecks_reference _ hrights hpid href))

/-- An operand of the reserved width is not fetched. -/
theorem operands_reserved {op : Operand} (instr : Word) (r : BitVec 4) (s : State) (h : (operandWidth op == some .double) = true) :
    operands instr r op s = .error (.trap (instrTrap .illegalInstruction instr)) := by
  have hw := beq_iff_eq.mp h
  cases op with
  | imm val => cases hw
  | reg a b => cases hw
  | indexed dw a b => cases hw; rfl
  | disp dw x b => cases hw; rfl

/-- An instruction that names the reserved width stops at it, before any access. -/
theorem exec_of_reserved_width {i : Instr} (s : State) (h : namesReservedWidth i = true) :
    exec i s = conclude (encode i) s (.error (.trap (instrTrap .illegalInstruction (encode i)))) := by
  cases i with
  | add | adc | sub | sbc | xor | cmp | cmpu => exact exec_of_operands_stop rfl (operands_reserved _ _ s h)
  | and r optN optC op | or r optN optC op =>
    obtain ⟨hw, hopt⟩ := Bool.and_eq_true_iff.mp h
    rw [Bool.not_eq_true'] at hopt
    exact exec_of_operands_stop (if_neg (ne_true_of_eq_false hopt)) (operands_reserved _ r s hw)
  | ld r optM seg dw disp b =>
    obtain rfl := beq_iff_eq.mp h
    rw [exec_ld, execLd, accessSize, error_bind]
  | st r optM seg dw disp b =>
    obtain rfl := beq_iff_eq.mp h
    rw [exec_st, execSt, accessSize, error_bind]
  | _ => cases h

/-- Settles O46: the width is looked at first. -/
theorem reservedWidthTraps : Obligations.ReservedWidthTraps := by
  intro i s h
  rw [exec_of_reserved_width s h, conclude_trap]
  exact traps_instrTrap s .illegalInstruction _

/-- Settles O48: an access that passes its checks stops where there is no device or no byte. -/
theorem accessesThatStop : Obligations.AccessesThatStop := by
  refine ⟨fun i s write seg ofs n pa h hr => ⟨fun hio hstc => ?_, ?_⟩, fun s r b optM disp pa hx hpa ha => ?_⟩
  · cases write with
    | false => rw [exec_of_read_stop h (dataRead_of_memory_stop hr (physRead_ioSpace s n hio)), conclude_refuse]
    | true => exact exec_of_store_ioSpace h hr hio hstc
  · rintro rfl hm hmissing
    rw [exec_of_read_stop h (dataRead_of_memory_stop hr (physRead_unwritten hm hmissing)), conclude_fault]
  · subst hpa
    rw [toNat_setWidth_word] at ha
    refine ⟨fun hio => ⟨?_, ?_⟩, fun hm hmissing => ?_⟩
    · rw [exec_lda, execLda, conclude_needPrivilege_privileged hx, absoluteAddress_aligned _ ha, ok_bind, physRead_ioSpace s _ hio,
        error_bind, conclude_refuse]
    · rw [exec_sta, execSta, conclude_needPrivilege_privileged hx, absoluteAddress_aligned _ ha, ok_bind, physWrite_ioSpace s _ _ hio,
        error_bind, conclude_refuse]
    · rw [exec_lda, execLda, conclude_needPrivilege_privileged hx, absoluteAddress_aligned _ ha, ok_bind,
        physRead_unwritten (n := .word) hm hmissing, error_bind, conclude_fault]

end Sys2Proof.Machine
end

section
/-! PROOFS. The system control instructions MR, LDPA, PRB, DIAG and BRK, and the privilege test (45_system_control.md R360, R361, R362,
R370, R372, R396, R400). -/

namespace Sys2Proof.Machine

/-! ### The privilege test -/

/-- In user mode an instruction that is always privileged takes trap 6 (R360). -/
theorem exec_privileged_user {i : Instr} {s : State} (hi : alwaysPrivileged i = true) (hx : s.pswX = true) :
    exec i s = .next (s.takeTrap (instrTrap .privilegedOperation (encode i))) := by
  cases i with
  | lda => rw [exec_lda, execLda, conclude_needPrivilege_user hx]
  | sta => rw [exec_sta, execSta, conclude_needPrivilege_user hx]
  | mst => exact exec_mst_user hx _ _ _
  | ldpa => rw [exec_ldpa, execLdpa, conclude_needPrivilege_user hx]
  | itlb => rw [exec_itlb, execItlb, conclude_needPrivilege_user hx]
  | ptlb => rw [exec_ptlb, execPtlb, conclude_needPrivilege_user hx]
  | pca => rw [exec_pca, execPca, conclude_needPrivilege_user hx]
  | diag => rw [exec_diag, execDiag, conclude_needPrivilege_user hx]
  | rfi => exact exec_rfi_user hx
  | _ => cases hi

/-- Settles O49: the privilege test comes first. -/
theorem privilegedOperationTraps : Obligations.PrivilegedOperationTraps := by
  intro i s hi hx
  rw [exec_privileged_user hi hx]
  exact traps_instrTrap s .privilegedOperation _

/-! ### MR -/

/-- The control registers that MR refuses (10_state.md R56). -/
theorem reservedCr_iff (n : BitVec 5) : reservedCr n = true ↔ (n = 3 ∨ (8 ≤ n.toNat ∧ n.toNat ≤ 15) ∨ n = 23) := by
  unfold reservedCr
  rw [Bool.or_eq_true, Bool.or_eq_true, Bool.and_eq_true, decide_eq_true_eq, decide_eq_true_eq, beq_iff_eq, beq_iff_eq, or_assoc]

theorem setWidth_six_five (n : BitVec 5) : (n.setWidth 6).setWidth 5 = n := by revert n; decide
theorem setWidth_six_three (m : BitVec 3) : (m.setWidth 6).setWidth 3 = m := by revert m; decide

/-- CR2 keeps the five rightmost bits (10_state.md R49). -/
theorem and_low_five (v : Word) : v &&& 0x1F#32 = (v.setWidth 5).setWidth 32 := by
  apply BitVec.eq_of_toNat_eq
  rw [BitVec.toNat_and, BitVec.toNat_setWidth, BitVec.toNat_setWidth]
  have hand : v.toNat &&& 0x1F = v.toNat % 2 ^ 5 := Nat.and_two_pow_sub_one_eq_mod v.toNat 5
  have hmod : v.toNat % 2 ^ 5 % 2 ^ 32 = v.toNat % 2 ^ 5 := Nat.mod_eq_of_lt (lt_trans (Nat.mod_lt _ (by decide)) (by decide))
  rw [hmod]
  exact hand

section
variable (s : State) (r : BitVec 4)

theorem exec_mr_reserved (optD : Bool) {num : BitVec 6} (h : reservedCr (num.setWidth 5) = true) :
    exec (.mr r optD true num) s = .refused .reservedControlRegister := by
  rw [exec_mr, execMr, h]
  rfl

/-- The register that MR names is not a reserved one. -/
def mrAllowed (optM : Bool) (num : BitVec 6) : Prop := (optM && reservedCr (num.setWidth 5)) = false

variable {optM : Bool} {num : BitVec 6} (h : mrAllowed optM num)
include h

theorem exec_mr_read : exec (.mr r false optM num) s = .next (s.moveFrom r optM num).advance := by
  rw [exec_mr, execMr, h, Bool.not_false, needOrRefuse_true, ok_bind]
  exact conclude_done _ _ _

theorem exec_mr_write (hp : (mrPrivileged optM num && s.pswX) = false) :
    exec (.mr r true optM num) s = .next (s.moveTo r optM num).advance := by
  rw [exec_mr, execMr, h, Bool.not_false, needOrRefuse_true, ok_bind, if_pos rfl, hp, trapIf_false, ok_bind, conclude_done]

theorem exec_mr_trap (hp : (mrPrivileged optM num && s.pswX) = true) :
    exec (.mr r true optM num) s = .next (s.takeTrap (instrTrap .privilegedRegister (encode (.mr r true optM num)))) := by
  rw [exec_mr, execMr, h, Bool.not_false, needOrRefuse_true, ok_bind, if_pos rfl, hp, trapIf_true, error_bind, conclude_trap]
  rfl
end

/-- Writing MR writes the register it names only. -/
theorem ends_moveTo (s : State) (r : BitVec 4) (optM : Bool) (num : BitVec 6) :
    Ends (fun p => p = (if optM then .cr (num.setWidth 5) else .sr (num.setWidth 3))) s (s.moveTo r optM num).advance := by
  refine ⟨(keeps_moveTo s r optM num).advance, ?_⟩
  cases optM <;> rfl

/-- Settles O50: the reserved registers are refused, then the level is tested for a write. -/
theorem moveRegisterResult : Obligations.MoveRegisterResult := by
  intro s r n m
  rw [← reservedCr_iff, Bool.not_eq_true]
  have hprivN : mrPrivileged true (n.setWidth 6) = (n != 2) := congrArg (· != 2) (setWidth_six_five n)
  have hprivM : mrPrivileged false (m.setWidth 6) = decide (5 ≤ m.toNat) := by
    rw [mrPrivileged, setWidth_six_three]; rfl
  have hsegment : mrAllowed false (m.setWidth 6) := rfl
  refine ⟨fun hres optD => ?_, fun hres => ?_, ?_, fun hlevel => ?_, fun hx hm => ?_⟩
  · exact exec_mr_reserved s r optD (by rw [setWidth_six_five]; exact hres)
  · have hallowed : mrAllowed true (n.setWidth 6) := by rw [mrAllowed, setWidth_six_five, hres]; rfl
    refine ⟨⟨_, exec_mr_read s r hallowed, ?_, ends_writeGr s r _⟩, fun hlevel => ?_, fun hx hn => ?_⟩
    · rw [State.moveFrom, readGr_written_advance, if_pos rfl, setWidth_six_five]
    · have hpass : (mrPrivileged true (n.setWidth 6) && s.pswX) = false := by
        rw [hprivN]
        obtain hx | rfl := hlevel
        · rw [hx, Bool.and_false]
        · rfl
      have hends := ends_moveTo s r true (n.setWidth 6)
      rw [if_pos rfl, setWidth_six_five] at hends
      refine ⟨_, exec_mr_write s r hallowed hpass, hends, ?_⟩
      rw [readCr_advance, State.moveTo, if_pos rfl, setWidth_six_five, readCr_writeCr, if_pos rfl, and_low_five]
    · have htrap : (mrPrivileged true (n.setWidth 6) && s.pswX) = true := by
        rw [hprivN, hx, Bool.and_true]
        exact bne_iff_ne.mpr hn
      rw [exec_mr_trap s r hallowed htrap]
      exact traps_instrTrap s .privilegedRegister _
  · refine ⟨_, exec_mr_read s r hsegment, ?_, ends_writeGr s r _⟩
    rw [State.moveFrom, readGr_written_advance, if_neg (by decide), setWidth_six_three]
  · have hpass : (mrPrivileged false (m.setWidth 6) && s.pswX) = false := by
      rw [hprivM]
      obtain hx | hm := hlevel
      · rw [hx, Bool.and_false]
      · rw [decide_eq_false (by omega), Bool.false_and]
    have hends := ends_moveTo s r false (m.setWidth 6)
    rw [if_neg (by decide), setWidth_six_three] at hends
    refine ⟨_, exec_mr_write s r hsegment hpass, hends, ?_⟩
    rw [readSr_advance, State.moveTo, if_neg (by decide), setWidth_six_three, readSr_writeSr, if_pos rfl]
  · have htrap : (mrPrivileged false (m.setWidth 6) && s.pswX) = true := by
      rw [hprivM, hx, decide_eq_true hm]
      rfl
    rw [exec_mr_trap s r hsegment htrap]
    exact traps_instrTrap s .privilegedRegister _

/-! ### LDPA and PRB -/

/-- The physical address of an offset in a page, with all bits of the page number (20_memory.md R92, R109). -/
theorem physical_eq (e : TlbEntry) (ofs : Word) : e.physical ofs = e.ppn ++ field ofs 18 14 := by
  rw [TlbEntry.physical, effectivePpn_eq]

/-- Settles O52: the offset itself, the entry's address, or the non-access miss. -/
theorem loadPhysicalAddressResult : Obligations.LoadPhysicalAddressResult := by
  intro s r a b seg hx
  have hexec : exec (.ldpa r seg a b) s = conclude (encode (.ldpa r seg a b)) s (if s.pswD then do
      let e ← needEntry (s.dataEntry seg (s.readGr b + s.readGr a)) .nonAccessDataTlbMiss
      done (s.writeGr r ((e.physical (s.readGr b + s.readGr a)).setWidth 32)).advance
    else done (s.writeGr r (s.readGr b + s.readGr a)).advance) := by
    rw [exec_ldpa, execLdpa, conclude_needPrivilege_privileged hx]
  refine ⟨fun hD => ?_, fun e hD he => ?_, fun hD he => ?_⟩
  · refine ⟨_, ?_, readGr_written_advance s r _, ends_writeGr s r _⟩
    rw [hexec, if_neg (by simp [hD]), conclude_done]
  · refine ⟨(s.writeGr r ((e.physical (s.readGr b + s.readGr a)).setWidth 32)).advance, ?_, ends_writeGr s r _, ?_⟩
    · rw [hexec, if_pos hD, State.dataEntry, he, needEntry, ok_bind, conclude_done]
    · rw [readGr_written_advance, physical_eq]
  · rw [hexec, if_pos hD, State.dataEntry, he, needEntry, error_bind, conclude_trap]
    exact traps_bareTrap s .nonAccessDataTlbMiss

/-- The halves of a control register, as numbers. -/
theorem field_high_eq_iff (w : Word) (seg : SegId) : field w 0 16 = seg ↔ w.toNat / 2 ^ 16 = seg.toNat := by
  rw [← BitVec.toNat_inj, field, BitVec.extractLsb'_toNat, Nat.shiftRight_eq_div_pow]
  have hw := w.isLt
  rw [Nat.mod_eq_of_lt (by omega)]

theorem field_low_eq_iff (w : Word) (seg : SegId) : field w 16 16 = seg ↔ w.toNat % 2 ^ 16 = seg.toNat := by
  rw [← BitVec.toNat_inj, field, BitVec.extractLsb'_toNat]
  rfl

/-- The four protection id registers are CR4 to CR7 (10_state.md R50). -/
theorem mem_pidRegisters_iff (n : BitVec 5) : n ∈ [4#5, 5#5, 6#5, 7#5] ↔ 4 ≤ n.toNat ∧ n.toNat ≤ 7 := by revert n; decide

theorem pidMatch_eq_false_iff (s : State) (seg : SegId) : s.pidMatch seg = false ↔
    ∀ n : BitVec 5, 4 ≤ n.toNat → n.toNat ≤ 7 →
      (s.readCr n).toNat / 2 ^ 16 ≠ seg.toNat ∧ (s.readCr n).toNat % 2 ^ 16 ≠ seg.toNat := by
  unfold State.pidMatch
  rw [List.any_eq_false]
  refine forall_congr' fun n => ?_
  rw [mem_pidRegisters_iff, and_imp, Bool.or_eq_true, beq_iff_eq, beq_iff_eq, field_high_eq_iff, field_low_eq_iff, not_or]

theorem pidRefuses_iff (s : State) (e : TlbEntry) (seg : SegId) :
    s.pidRefuses e seg = true ↔ s.pswP = true ∧ e.pidCheck = true ∧ s.pidMatch seg = false := by
  rw [State.pidRefuses, Bool.and_eq_true, Bool.and_eq_true, Bool.not_eq_true', and_assoc]

/-- A privilege level is at most another as a number (20_memory.md R103). -/
theorem levelLe_iff (x y : Bool) : levelLe x y = true ↔ x.toNat ≤ y.toNat := by revert x y; decide

theorem writeAllowed_iff (ar : Rights) (pl : Bool) : writeAllowed ar pl = true ↔
    (ar.type = .readWrite ∧ pl.toNat ≤ ar.pl2.toNat) ∨ ((ar.type = .execute ∨ ar.type = .gateway) ∧ pl = false) := by
  unfold writeAllowed
  cases htype : ar.type with
  | readOnly => simp
  | readWrite => simp [levelLe_iff]
  | execute => simp
  | gateway => simp

theorem probeLevel_eq (s : State) (optI : Bool) (a : BitVec 4) :
    s.probeLevel optI a = if optI then a.getLsbD 0 else (s.readGr a).getLsbD 0 := by
  rw [State.probeLevel, flag_eq]

theorem truthWord_and_not (x y : Bool) : truthWord (x && !y) = if x = true ∧ y = false then 1 else 0 := by
  revert x y; decide

theorem exec_prb_entry (s : State) (r a b : BitVec 4) (optW optI : Bool) (seg : BitVec 2) {e : TlbEntry}
    (he : s.dataEntry seg (s.readGr b) = some e) : exec (.prb r optW optI seg a b) s = .next (s.writeGr r (truthWord
      ((if optW then writeAllowed e.rights (s.probeLevel optI a) else readAllowed e.rights (s.probeLevel optI a)) &&
        !s.pidRefuses e (s.readSr (segReg seg (s.readGr b)))))).advance := by
  rw [exec_prb, execPrb]
  dsimp only
  rw [he, needEntry, ok_bind, conclude_done]

theorem exec_prb_miss (s : State) (r a b : BitVec 4) (optW optI : Bool) (seg : BitVec 2) (he : s.dataEntry seg (s.readGr b) = none) :
    exec (.prb r optW optI seg a b) s = .next (s.takeTrap (bareTrap .nonAccessDataTlbMiss)) := by
  rw [exec_prb, execPrb]
  dsimp only
  rw [he, needEntry, error_bind, conclude_trap]

/-- Settles O53: the two tables as they are written, then PRB by them. -/
theorem probeResult : Obligations.ProbeResult := by
  refine ⟨fun s e seg => ?_, fun ar pl => levelLe_iff pl ar.pl1, writeAllowed_iff, fun s r a b optW optI seg => ⟨?_, fun he => ?_⟩⟩
  · rw [pidRefuses_iff, pidMatch_eq_false_iff]
  · rintro e lvl he hlvl
    rw [← probeLevel_eq s] at hlvl
    subst hlvl
    refine ⟨_, exec_prb_entry s r a b optW optI seg he, ends_writeGr s r _, ?_⟩
    rw [readGr_written_advance, truthWord_and_not]
  · rw [exec_prb_miss s r a b optW optI seg he]
    exact traps_bareTrap s .nonAccessDataTlbMiss

/-! ### DIAG and BRK -/

/-- Settles O57: the result is the implementation's, behind the privilege test. -/
theorem diagnoseResult : Obligations.DiagnoseResult := by
  intro s r info a b hx
  refine ⟨_, ?_, readGr_written_advance s r _, ends_writeGr s r _⟩
  rw [exec_diag, execDiag, conclude_needPrivilege_privileged hx, conclude_done]

/-- Settles O59: both fields are looked at. -/
theorem breakResult : Obligations.BreakResult := by
  intro s info1 info2
  refine ⟨?_, fun h => ?_⟩
  · rintro rfl rfl
    exact ⟨_, conclude_done _ s s.advance, keeps_advance s, rfl⟩
  · have hno : ¬ (info1 == 0 && info2 == 0) = true := by rwa [Bool.and_eq_true, beq_iff_eq, beq_iff_eq]
    rw [exec_brk, execBrk, if_neg hno, conclude_trap]
    exact traps_instrTrap s .breakInstruction _

end Sys2Proof.Machine
end

section
/-! PROOFS. ITLB, PTLB and PCA where they complete, and the non-access misses of PCA (45_system_control.md R375, R380, R385, R386). -/

namespace Sys2Proof.Machine

/-! ### Insertion into a TLB -/

/-- The page that an insertion into a full TLB takes an entry from (20_memory.md R114). -/
def tlbVictim (k : Nat) (tlb : List TlbEntry) : SegId × Page :=
  (tlb[Config.freeIndex k % tlb.length]?).elim (0, 0) fun e => (e.seg, e.page)

theorem tlbVictim_of_lt {k : Nat} {tlb : List TlbEntry} (h : Config.freeIndex k % tlb.length < tlb.length) :
    tlbVictim k tlb = (tlb[Config.freeIndex k % tlb.length].seg, tlb[Config.freeIndex k % tlb.length].page) := by
  rw [tlbVictim, List.getElem?_eq_getElem h]
  rfl

/-- A page that has an entry is held by the TLB, which then reuses the entry (20_memory.md R110). -/
theorem tlbHolds_of_lookup {tlb : List TlbEntry} {e : TlbEntry} (h : tlbLookup tlb e.seg e.page ≠ none) : tlbHolds tlb e = true := by
  obtain ⟨x, hx⟩ := Option.ne_none_iff_exists'.mp h
  obtain ⟨hmem, -, hseg, hpage⟩ := tlbLookup_some hx
  exact List.any_eq_true.mpr ⟨x, hmem, isFor_iff.mpr ⟨hseg, hpage⟩⟩

/-- Only the victim of a full TLB without an entry for the inserted page loses its mapping. -/
theorem tlbLookup_insert_kept {capacity : Nat} (hc : 0 < capacity) (k : Nat) (tlb : List TlbEntry) (e : TlbEntry)
    {seg : SegId} {page : Page} (hne : (seg, page) ≠ (e.seg, e.page))
    (hkept : (seg, page) ≠ tlbVictim k tlb ∨ tlb.length < capacity ∨ tlbLookup tlb e.seg e.page ≠ none) :
    tlbLookup (tlbInsert capacity k tlb e) seg page = tlbLookup tlb seg page := by
  by_cases hroom : tlbHolds tlb e = true ∨ tlb.length < capacity
  · exact tlbLookup_insert_other capacity k tlb e hne hroom
  · obtain ⟨hnew, hfull⟩ := not_or.mp hroom
    have hvictim : (seg, page) ≠ tlbVictim k tlb := by
      obtain hv | hlt | hheld := hkept
      · exact hv
      · exact absurd hlt hfull
      · exact absurd (tlbHolds_of_lookup hheld) hnew
    have hlt : Config.freeIndex k % tlb.length < tlb.length := Nat.mod_lt _ (by omega)
    rw [tlbVictim_of_lt hlt] at hvictim
    exact tlbLookup_insert_full capacity k tlb e hne (Bool.eq_false_iff.mpr hnew) hfull hlt hvictim

theorem namedTlb_insertTlb (s : State) (optT : Bool) (e : TlbEntry) :
    namedTlb (s.insertTlb optT e).advance optT = tlbInsert 256 s.freeCount (namedTlb s optT) e := by
  cases optT <;> rfl

/-- An entry of ITLB's argument breaks the identity of segment 0 (20_memory.md R98). -/
theorem breaksSegmentZero_entryOfWord (w : Word) (seg : SegId) (page : Page) :
    (entryOfWord w seg page).breaksSegmentZero = true ↔ seg = 0 ∧ field w 12 20 ≠ page.setWidth 20 := by
  rw [TlbEntry.breaksSegmentZero, effectivePpn_eq, Bool.and_eq_true, beq_iff_eq, bne_iff_ne]
  rfl

/-- The entry that ITLB inserts. -/
def itlbEntry (s : State) (r a b : BitVec 4) : TlbEntry := entryOfWord (s.readGr r) (s.readSr (a.setWidth 3)) (pageOf (s.readGr b))

/-- What is left of ITLB after the privilege test and the test of the field `a`. -/
theorem exec_itlb_segment {s : State} (hx : s.pswX = false) (r : BitVec 4) (optT : Bool) {a : BitVec 4} (ha : a.toNat < 8) (b : BitVec 4) :
    exec (.itlb r optT a b) s = conclude (encode (.itlb r optT a b)) s (do
      needOrRefuse (!(itlbEntry s r a b).breaksSegmentZero) .segmentZeroMapping
      done (s.insertTlb optT (itlbEntry s r a b)).advance) := by
  rw [exec_itlb, execItlb, conclude_needPrivilege_privileged hx, decide_eq_true ha, needOrRefuse_true, ok_bind]
  rfl

/-- Settles O54: the entry of the argument word is inserted, and the victim is the one page that can be lost. -/
theorem insertTlbResult : Obligations.InsertTlbResult := by
  rintro s r a b optT _ _ _ hx ha rfl rfl rfl hzero
  have hidentity : (itlbEntry s r a b).breaksSegmentZero = false := by
    rw [← Bool.not_eq_true, itlbEntry, breaksSegmentZero_entryOfWord]
    rintro ⟨hseg, hppn⟩
    exact hppn (hzero hseg)
  refine ⟨(s.insertTlb optT (itlbEntry s r a b)).advance, ?_, ?_, fun _ => ⟨tlbVictim s.freeCount (namedTlb s optT), ?_⟩, ?_, ?_⟩
  · rw [exec_itlb_segment hx r optT ha b, hidentity, Bool.not_false, needOrRefuse_true, ok_bind, conclude_done]
  · rw [namedTlb_insertTlb]
    exact tlbLookup_insert_same 256 s.freeCount _ (itlbEntry s r a b) rfl
  · intro seg page hne hkept
    rw [namedTlb_insertTlb]
    exact tlbLookup_insert_kept (by decide) s.freeCount _ (itlbEntry s r a b) hne hkept
  · exact (keeps_insertTlb s optT _).advance
  · cases optT <;> rfl

/-! ### PTLB -/

section
variable (s old : State) (optM : Bool) (disp : Disp) (b : BitVec 4)

theorem namedTlb_updateBase (optT : Bool) : namedTlb (s.updateBase old optM disp b).advance optT = namedTlb s optT := by
  cases optM <;> rfl

/-- The base that PTLB and PCA leave under M. -/
theorem readGr_updateBase_advance (a : BitVec 4) (hM : optM = true) :
    (s.updateBase old optM (.reg a) b).advance.readGr b = written b (old.readGr b + old.readGr a) := by
  rw [readGr_advance, readGr_updateBase _ _ _ _ hM]
  rfl
end

theorem namedTlb_purgeTlb (s : State) (optT : Bool) (seg : SegId) (page : Page) :
    namedTlb (s.purgeTlb optT seg page) optT = tlbPurge (namedTlb s optT) seg page := by
  cases optT <;> rfl

theorem exec_ptlb_next {s : State} (hx : s.pswX = false) (a b : BitVec 4) (optT optM : Bool) (seg : BitVec 2) :
    exec (.ptlb optT optM seg a b) s = .next ((s.purgeTlb optT (s.readSr (segReg seg (s.memOffset optM (.reg a) b)))
      (pageOf (s.memOffset optM (.reg a) b))).updateBase s optM (.reg a) b).advance := by
  rw [exec_ptlb, execPtlb, conclude_needPrivilege_privileged hx]
  exact conclude_done _ _ _

/-- Settles O55: a purge, then the base update. -/
theorem purgeTlbResult : Obligations.PurgeTlbResult := by
  intro s a b optT optM seg ofs hx hofs
  have hoffset : s.memOffset optM (.reg a) b = ofs := (memOffset_eq s optM (.reg a) b).trans hofs.symm
  refine ⟨_, exec_ptlb_next hx a b optT optM seg, ?_, fun seg' page' hne => ?_, readGr_updateBase_advance _ s optM b a, ?_, ?_⟩
  · rw [namedTlb_updateBase, namedTlb_purgeTlb, hoffset, tlbLookup_purge_same]
  · rw [namedTlb_updateBase, namedTlb_purgeTlb, hoffset, tlbLookup_purge_other _ hne]
  · exact ((keeps_purgeTlb s optT _ _).seq (keeps_updateBase _ s optM (.reg a) b)).advance
  · rw [State.advance_psw1, updateBase_psw1]
    cases optT <;> rfl

/-! ### PCA -/

/-- The address of the line is the one the statement gives (R385, 20_memory.md R126). -/
theorem cacheAddress_of_lineAddress {s : State} {optT : Bool} {seg : BitVec 2} {ofs : Word} {pa : PAddr}
    (h : LineAddress s optT (s.readSr (segReg seg ofs)) ofs pa) : cacheAddress optT seg ofs s = .ok pa := by
  unfold LineAddress at h
  cases optT with
  | false =>
    simp only [cacheAddress, State.instrEntry, Bool.false_eq_true, if_false] at h ⊢
    split_ifs at h ⊢ with hC
    · obtain ⟨e, he, rfl⟩ := h
      rw [show tlbLookup s.itlb _ _ = some e from he, needEntry, ok_bind]
    · rw [h]
  | true =>
    simp only [cacheAddress, State.dataEntry, if_true] at h ⊢
    split_ifs at h ⊢ with hD
    · obtain ⟨e, he, rfl⟩ := h
      rw [show tlbLookup s.dtlb _ _ = some e from he, needEntry, ok_bind]
    · rw [h]

section
variable {s : State} (hx : s.pswX = false) (a b : BitVec 4) {optT : Bool} (optM : Bool) (seg : BitVec 2) (optF : Bool)
include hx

theorem exec_pca_next {pa : PAddr} (h : cacheAddress optT seg (s.memOffset optM (.reg a) b) s = .ok pa) :
    exec (.pca optT optM seg optF a b) s = .next ((s.purgeCache optT optF pa).updateBase s optM (.reg a) b).advance := by
  rw [exec_pca, execPca, conclude_needPrivilege_privileged hx, h, ok_bind, conclude_done]

theorem exec_pca_trap {t : Trap} (h : cacheAddress optT seg (s.memOffset optM (.reg a) b) s = .error (.trap t)) :
    exec (.pca optT optM seg optF a b) s = .next (s.takeTrap t) := by
  rw [exec_pca, execPca, conclude_needPrivilege_privileged hx, h, error_bind, conclude_trap]
end

/-- What the caches hold of another line survives every kind of purge. -/
theorem purgeCache_otherLines (s : State) (optT optF : Bool) (pa : PAddr) :
    otherLines pa (s.purgeCache optT optF pa).iOld = otherLines pa s.iOld ∧
    otherLines pa (s.purgeCache optT optF pa).dOld = otherLines pa s.dOld := by
  cases optT with
  | false => exact ⟨purgeInstrLine_otherLines s pa, rfl⟩
  | true =>
    cases optF with
    | false => exact purgeDataLine_otherLines s pa
    | true => exact ⟨rfl, flushDataLine_otherLines s pa⟩

theorem purgeCache_psw1 (s : State) (optT optF : Bool) (pa : PAddr) : (s.purgeCache optT optF pa).psw1 = s.psw1 := by
  cases optT with
  | false => rfl
  | true =>
    cases optF with
    | false =>
      obtain ⟨m, i, d, k, heq⟩ := revertWords_frame (s.dirtyWords pa) s
      rw [show s.purgeCache true false pa = _ from heq]
    | true => rfl

/-- The four bytes of an aligned word lie in its line. -/
theorem lineOf_kept {o : OldWord} {x : Nat} {v : Option Byte} (ha : o.addr % 4 = 0) (h : o.kept x v) : lineOf x = lineOf o.addr := by
  have hx : o.addr ≤ x ∧ x < o.addr + 4 := by
    obtain ⟨h, -⟩ | ⟨h, -⟩ | ⟨h, -⟩ | ⟨h, -⟩ := h <;> omega
  unfold lineOf Config.cacheLineWords
  omega

/-- A purge without flush leaves memory outside its line alone. -/
theorem memByte_purgeDataLine_other {s : State} (hs : s.Inv) {pa : PAddr} {x : Nat} (hx : lineOf x ≠ lineOf pa.toNat) :
    memByte (s.purgeDataLine pa).mem x = memByte s.mem x := by
  obtain heq | ⟨o, ho, hline, hkept⟩ := (purgeDataLine_memory pa hs.memory).2 x
  · exact heq
  · exact absurd ((lineOf_kept (hs.dataHistory o ho) hkept).trans hline) hx

/-- The words of a line with unflushed stores, and what they hold. -/
theorem unflushed_iff {s : State} {pa : PAddr} {o : OldWord} :
    (o.addr ∈ s.dirtyWords pa ∧ o = oldWordAt s.mem o.addr) ↔ Unflushed s pa o := by
  rw [mem_dirtyWords_iff, Unflushed, and_assoc]

/-- Settles O56: the effect on the line is the purge's, what comes after it touches the base register and PSW-1 only. -/
theorem purgeCacheResult : Obligations.PurgeCacheResult := by
  intro s a b optT optM optF seg ofs hx hofs
  have hoffset : s.memOffset optM (.reg a) b = ofs := (memOffset_eq s optM (.reg a) b).trans hofs.symm
  refine ⟨fun pa hpa => ?_, ?_, ?_⟩
  · have hexec := exec_pca_next hx a b (optT := optT) optM seg optF (by rw [hoffset]; exact cacheAddress_of_lineAddress hpa)
    refine ⟨_, hexec, readGr_updateBase_advance _ s optM b a, ⟨?_, ?_⟩, ?_⟩
    · exact ((keeps_purgeCache s optT optF pa).seq (keeps_updateBase _ s optM (.reg a) b)).advance.mono fun _ => Or.symm
    · rw [State.advance_psw1, updateBase_psw1, purgeCache_psw1]
      rfl
    rw [State.advance_iOld, State.advance_dOld, State.advance_mem, updateBase_iOld, updateBase_dOld, updateBase_mem]
    obtain ⟨hi, hd⟩ := purgeCache_otherLines s optT optF pa
    refine ⟨hi, hd, ?_, ?_, ?_⟩
    · rintro rfl o ho
      exact purgeInstrLine_line ho
    · rintro rfl rfl
      exact flushDataLine_dOld s pa
    · rintro rfl rfl hs
      have hhistories := purgeDataLine_histories pa hs.dataHistory
      refine ⟨fun o => ?_, fun o => ?_, fun x => memByte_purgeDataLine_other hs, (purgeDataLine_memory pa hs.memory).2⟩
      · rw [← unflushed_iff]
        exact (hhistories o).1
      · rw [← unflushed_iff]
        exact (hhistories o).2
  · rintro rfl hC hmiss
    rw [exec_pca_trap hx a b optM seg optF (t := bareTrap .nonAccessInstrTlbMiss)]
    · exact traps_bareTrap s .nonAccessInstrTlbMiss
    · rw [hoffset, cacheAddress, if_neg (by decide), if_pos hC, State.instrEntry, hmiss, needEntry, error_bind]
  · rintro rfl hD hmiss
    rw [exec_pca_trap hx a b optM seg optF (t := bareTrap .nonAccessDataTlbMiss)]
    · exact traps_bareTrap s .nonAccessDataTlbMiss
    · rw [hoffset, cacheAddress, if_pos rfl, if_pos hD, State.dataEntry, hmiss, needEntry, error_bind]

end Sys2Proof.Machine
end

section
/-! PROOFS. The forms the spec calls undefined, and register zero (10_state.md R21, 20_memory.md R98, R108, 42_branch.md R263,
44_computational_bitfield.md R331, R333, 45_system_control.md R375). -/

namespace Sys2Proof.Machine

/-! ### Refusals -/

/-- A bit field that is empty or starts left of bit 0 is out of range (R331, R333). -/
theorem fieldInRange_eq_false {s : State} {optA : Bool} {len pos : BitVec 5} (h : len = 0 ∨ positionOf s optA pos + 1 < len.toNat) :
    fieldInRange (s.fieldPos optA pos) len = false := by
  rw [← Bool.not_eq_true, fieldPos_eq_positionOf, fieldInRange_iff, not_and_or, not_not, not_le]
  exact h

/-- With code translation on BE needs a field `a` that names a segment register (R263). -/
theorem exec_be_noSegment {s : State} (r : BitVec 4) (ofs : BitVec 14) {a : BitVec 4} (b : BitVec 4) (hC : s.pswC = true)
    (ha : 8 ≤ a.toNat) : exec (.be r ofs a b) s = .refused .noSegmentRegister := by
  rw [exec_be, execBe, hC, decide_eq_false (by omega), Bool.not_true, Bool.or_self, needOrRefuse_false, error_bind, conclude_refuse]

section
variable {s : State} (hx : s.pswX = false) (r : BitVec 4) (optT : Bool) {a : BitVec 4} (b : BitVec 4)
include hx

theorem exec_itlb_noSegment (ha : 8 ≤ a.toNat) : exec (.itlb r optT a b) s = .refused .noSegmentRegister := by
  rw [exec_itlb, execItlb, conclude_needPrivilege_privileged hx, decide_eq_false (by omega), needOrRefuse_false, error_bind,
    conclude_refuse]

/-- ITLB maps a page of segment 0 to its own number only (R98). -/
theorem exec_itlb_segmentZero (ha : a.toNat < 8) (hseg : s.readSr (a.setWidth 3) = 0)
    (hppn : field (s.readGr r) 12 20 ≠ (pageOf (s.readGr b)).setWidth 20) :
    exec (.itlb r optT a b) s = .refused .segmentZeroMapping := by
  have hbreaks : (itlbEntry s r a b).breaksSegmentZero = true := (breaksSegmentZero_entryOfWord _ _ _).mpr ⟨hseg, hppn⟩
  rw [exec_itlb_segment hx r optT ha b, hbreaks, Bool.not_true, needOrRefuse_false, error_bind, conclude_refuse]
end

/-- An access whose address is refused is refused. -/
theorem refused_of_address {i : Instr} {s : State} {write : Bool} {seg : SegId} {ofs : Word} {n : Size} {reason : Refusal}
    (h : accessOf s i = some (write, seg, ofs, n))
    (hstop : dataAddress (encode i) write seg ofs n s = .error (.refuse reason)) : exec i s = .refused reason := by
  rw [exec_of_address_stop h hstop, conclude_refuse]

/-- Settles O60: each test comes before anything is written. -/
theorem undefinedFormsAreRefused : Obligations.UndefinedFormsAreRefused := by
  refine ⟨fun s r b optS optA len pos h => ?_, fun s r b optZ optA optI len pos h => ?_, ?_, ?_, ?_⟩
  · rw [exec_extr, execExtr, fieldInRange_eq_false h, needOrRefuse_false, error_bind, conclude_refuse]
  · rw [exec_dep, execDep, fieldInRange_eq_false h, needOrRefuse_false, error_bind, conclude_refuse]
  · exact fun s r a b ofs => exec_be_noSegment r ofs b
  · exact fun s r a b optT hx => ⟨exec_itlb_noSegment hx r optT b, exec_itlb_segmentZero hx r optT b⟩
  · intro i s write seg ofs n e h ha hD he hrights hpid href
    refine ⟨fun hw hdirty => ?_, fun hw hdata => ?_⟩
    · exact refused_of_address h (dataAddress_entry _ ha hD he (entryChecks_dirty _ hrights hpid href hw hdirty))
    · exact refused_of_address h (dataAddress_entry _ ha hD he (entryChecks_dataReference _ hrights hpid href hw hdata))

/-! ### Register zero -/

/-- Settles O18: the write is discarded, and the rest of the instruction is done. -/
theorem registerZero : Obligations.RegisterZero := by
  refine ⟨fun s => ⟨readGr_zero s, fun v => rfl⟩, fun i s t _ => readGr_zero t, ?_, ?_, ?_⟩
  · intro s op x y hop
    have hadd := addWith_of (encode (.add 0 false false op)) hop (optL := false) (optO := false) (c := false) (fun h => by cases h)
    refine ⟨s.afterAdd 0 false x y false, ?_, pswCB_afterAdd s 0 x y false⟩
    rw [exec_add, execAdd, hadd, conclude_ok]
  · intro s seg ofs b pa v hr
    exact ⟨_, exec_ldr_next 0 hr, rfl, rfl⟩
  · intro s seg disp b hofs
    have hword : (s.memOffset false disp b).toNat % Size.bytes .word ≠ 0 := hofs
    exact traps_of_address_trap (i := .ld 0 false seg .word disp b) rfl (dataAddress_misaligned _ hword)

end Sys2Proof.Machine
end
